-- ==== Sys2Proof/Word.lean ====
section
/-! DEFINITION. The byte, the only unit of access of the block (20_memory.md R57), and byte sequences. -/

namespace Sys2Proof

/-- A byte: 8 bits, numbered 7 down to 0 (00_scope.md section 4). -/
abbrev Byte := BitVec 8

/-- A finite byte sequence, indexed from 0 (00_scope.md section 4). -/
abbrev Bytes := List Byte

end Sys2Proof
end

