-- ==== Sys2Proof/Config.lean ====
section
/-! DEFINITION. The two modes, the numeric limits the source fixes (00_scope.md R6 to R11) and the parameters it
leaves open (R12 to R14). -/

namespace Sys2Proof

/-- The two wire-format variants, Mode A and Mode B (00_scope.md R1, 10_state.md R21). -/
inductive Mode where
  | lz10
  | lz11
deriving DecidableEq, Repr

/-- `MAX_SIZE`, the largest uncompressed length (00_scope.md R6). -/
def maxSize : Nat := 0x00FFFFFF

/-- `WINDOW`, the largest displacement (00_scope.md R7). -/
def window : Nat := 4096

/-- `MIN_MATCH`, the shortest match the Encoder will encode (00_scope.md R8). -/
def minMatch : Nat := 3

/-- `MAX_LEN(MODE)`, the longest match each mode can express (00_scope.md R9). -/
def maxLen : Mode → Nat
  | .lz10 => 18
  | .lz11 => 65808

/-- `GROUP`, the units flagged by one control byte (00_scope.md R10). -/
def group : Nat := 8

/-- `PAD_ALIGN`, the multiple the Encoder pads its output to (00_scope.md R11). -/
def padAlign : Nat := 4

/-- The open parameters of the block. A machine has one value of each for all its life; every definition of the model
takes them as an argument, so that a claim is about every choice of them unless it says otherwise. -/
structure Config where
  /-- `TAG_LZ10` (00_scope.md R12). -/
  tagLz10 : Byte
  /-- `TAG_LZ11` (00_scope.md R12). -/
  tagLz11 : Byte
  /-- `LAZY_BIAS` (00_scope.md R13). -/
  lazyBias : Nat
  /-- `PROBE_SHORT` (00_scope.md R14). -/
  probeShort : Nat
deriving DecidableEq, Repr

/-- The default values. PRESUMED (by the spec itself, 92_eei_decisions.md D3; log entry 2): the tags come from general
knowledge. The other two are the spec's decisions D9 and D8 (log entry 3). Unsafe for a claim that needs them. -/
def Config.defaults : Config := { tagLz10 := 0x10, tagLz11 := 0x11, lazyBias := 1, probeShort := 1 }

/-- "They must be distinct" (00_scope.md R12). -/
abbrev Config.WF (c : Config) : Prop := c.tagLz10 ≠ c.tagLz11

/-- The tag byte of a mode (30_encoding.md R72). -/
def Config.tag (c : Config) : Mode → Byte
  | .lz10 => c.tagLz10
  | .lz11 => c.tagLz11

end Sys2Proof
end

