-- ==== Sys2Proof/Syntax.lean ====
section
/-! DEFINITION. The stream instructions: one constructor per row of spec/opcode_table.json (30_encoding.md R89). Operands
are the raw fields of the encoding; the biases are added when an instruction executes (Machine/Operands.lean). -/

namespace Sys2Proof

/-- The eight instructions of the compressed stream. -/
inductive Instr where
  /-- `HDR_LZ10`: stream header of mode LZ10, with the 24-bit declared size (30_encoding.md R71). -/
  | hdrLz10 (size : BitVec 24)
  /-- `HDR_LZ11`: stream header of mode LZ11 (30_encoding.md R71). -/
  | hdrLz11 (size : BitVec 24)
  /-- `CTRL`: a control byte, bit `7 − k` the flag of unit `k` (30_encoding.md R73). -/
  | ctrl (flags : Byte)
  /-- `LIT`: one literal byte (30_encoding.md R75). -/
  | lit (byte : Byte)
  /-- `MATCH10`: length field `L`, displacement field `F` (30_encoding.md R76). -/
  | match10 (l : BitVec 4) (f : BitVec 12)
  /-- `MATCH11_2`: length nibble `T`, which must be 2 or more (30_encoding.md R78). -/
  | match11_2 (t : BitVec 4) (f : BitVec 12)
  /-- `MATCH11_3`: 8-bit length field (30_encoding.md R79). -/
  | match11_3 (l : BitVec 8) (f : BitVec 12)
  /-- `MATCH11_4`: 16-bit length field (30_encoding.md R80). -/
  | match11_4 (l : BitVec 16) (f : BitVec 12)
deriving DecidableEq, Repr

end Sys2Proof
end

