-- ==== Sys2Proof/WellFormed.lean ====
section
/-! DEFINITION. Which terms of `Instr` are instructions. The field widths are in the types; the one remaining check is
that `MATCH11_2`'s length nibble is neither of the two form tags 0 and 1 (30_encoding.md R74, R78). Everything else is
legal: "Every control-byte value, every literal value and every match bit pattern in both modes is a legal encoding"
(R83). -/

namespace Sys2Proof

/-- The check of 30_encoding.md R78, `T ∈ 0x2..0xF`; every other form is always well formed (R83). -/
def Instr.wellFormed : Instr → Bool
  | .hdrLz10 _ => true
  | .hdrLz11 _ => true
  | .ctrl _ => true
  | .lit _ => true
  | .match10 _ _ => true
  | .match11_2 t _ => decide (2 ≤ t.toNat)
  | .match11_3 _ _ => true
  | .match11_4 _ _ => true

/-- `i` is an instruction of the stream. -/
abbrev Instr.WF (i : Instr) : Prop := i.wellFormed = true

end Sys2Proof
end

