-- ==== Sys2Proof/Decode.lean ====
section
/-! DEFINITION. Decoding the bytes of a stream into an instruction, and encoding an instruction into its bytes
(30_encoding.md sections 1 to 3, opcode_table.json). Which table row a byte belongs to depends on where the Decoder stands
in the stream (R74, R89), so the decoder takes that context. It is total: it answers an instruction and the bytes after
it, or says by name why there is none. -/

namespace Sys2Proof

/-- Where the Decoder stands (the "context" column of 30_encoding.md R89). -/
inductive Context where
  /-- stream start: a header is needed -/
  | header
  /-- a unit is needed and no flag is left: a control byte is needed -/
  | control
  /-- the next unit's flag is 0 -/
  | literal
  /-- the next unit's flag is 1, in the given mode -/
  | backRef (mode : Mode)
deriving DecidableEq, Repr

/-- What decoding answers. -/
inductive Decoded where
  /-- an instruction, and the bytes after it -/
  | instr (i : Instr) (rest : Bytes)
  /-- the bytes end inside the instruction (42_decoder.md R166) -/
  | short
  /-- the first byte of a header is no known tag: the only illegal encoding (30_encoding.md R83) -/
  | badTag (tag : Byte)
deriving DecidableEq, Repr

/-- `b[7:4]`. -/
def hiNibble (b : Byte) : BitVec 4 := b.extractLsb' 4 4

/-- `b[3:0]`. -/
def loNibble (b : Byte) : BitVec 4 := b.extractLsb' 0 4

/-- `a:b` of two nibbles (00_scope.md section 4). -/
def joinNibbles (a b : BitVec 4) : Byte := a ++ b

/-- `a:b`, the 12-bit displacement field of a match (30_encoding.md R76 to R80). -/
def join12 (a : BitVec 4) (b : Byte) : BitVec 12 := a ++ b

/-- `a:b:c`, the 16-bit length field of `MATCH11_4` (30_encoding.md R80). -/
def join16 (a : BitVec 4) (b : Byte) (c : BitVec 4) : BitVec 16 := a ++ b ++ c

/-- `b3:b2:b1`, the size of a header, whose last byte is the most significant (30_encoding.md R71). -/
def join24 (b3 b2 b1 : Byte) : BitVec 24 := b3 ++ b2 ++ b1

/-- The header of 30_encoding.md R71 and 43_header_codec.md R181: four bytes must exist before the tag is looked at; the
size is little-endian, so the last byte is the most significant. -/
def decodeHeader (c : Config) : Bytes → Decoded
  | b0 :: b1 :: b2 :: b3 :: rest =>
    if b0 = c.tagLz10 then .instr (.hdrLz10 (join24 b3 b2 b1)) rest
    else if b0 = c.tagLz11 then .instr (.hdrLz11 (join24 b3 b2 b1)) rest
    else .badTag b0
  | _ => .short

/-- An LZ10 match (30_encoding.md R76). -/
def decodeMatch10 : Bytes → Decoded
  | b0 :: b1 :: rest => .instr (.match10 (hiNibble b0) (join12 (loNibble b0) b1)) rest
  | _ => .short

/-- An LZ11 match: the high nibble of the first byte selects the form (30_encoding.md R74), before the remaining bytes
are looked at (42_decoder.md R169). -/
def decodeMatch11 : Bytes → Decoded
  | [] => .short
  | b0 :: more =>
    if hiNibble b0 = 0 then
      match more with
      | b1 :: b2 :: rest => .instr (.match11_3 (joinNibbles (loNibble b0) (hiNibble b1)) (join12 (loNibble b1) b2)) rest
      | _ => .short
    else if hiNibble b0 = 1 then
      match more with
      | b1 :: b2 :: b3 :: rest =>
        .instr (.match11_4 (join16 (loNibble b0) b1 (hiNibble b2)) (join12 (loNibble b2) b3)) rest
      | _ => .short
    else
      match more with
      | b1 :: rest => .instr (.match11_2 (hiNibble b0) (join12 (loNibble b0) b1)) rest
      | _ => .short

/-- The decoder: the instruction that the bytes `bs` begin with, in a context. -/
def decodeIn (c : Config) : Context → Bytes → Decoded
  | .header, bs => decodeHeader c bs
  | .control, b :: rest => .instr (.ctrl b) rest
  | .control, [] => .short
  | .literal, b :: rest => .instr (.lit b) rest
  | .literal, [] => .short
  | .backRef .lz10, bs => decodeMatch10 bs
  | .backRef .lz11, bs => decodeMatch11 bs

/-- The context in which an instruction stands (30_encoding.md R89). -/
def Instr.context : Instr → Context
  | .hdrLz10 _ => .header
  | .hdrLz11 _ => .header
  | .ctrl _ => .control
  | .lit _ => .literal
  | .match10 _ _ => .backRef .lz10
  | .match11_2 _ _ => .backRef .lz11
  | .match11_3 _ _ => .backRef .lz11
  | .match11_4 _ _ => .backRef .lz11

/-- Length in bytes (30_encoding.md R74, R89). -/
def Instr.size : Instr → Nat
  | .hdrLz10 _ => 4
  | .hdrLz11 _ => 4
  | .ctrl _ => 1
  | .lit _ => 1
  | .match10 _ _ => 2
  | .match11_2 _ _ => 2
  | .match11_3 _ _ => 3
  | .match11_4 _ _ => 4

/-- The bytes of a header: the tag, then the size little-endian (30_encoding.md R71). -/
def encodeHeader (tag : Byte) (size : BitVec 24) : Bytes :=
  [tag, size.extractLsb' 0 8, size.extractLsb' 8 8, size.extractLsb' 16 8]

/-- The encoder: the bytes of an instruction in stream order, from the layouts of 30_encoding.md R71 to R80. -/
def encode (c : Config) : Instr → Bytes
  | .hdrLz10 size => encodeHeader c.tagLz10 size
  | .hdrLz11 size => encodeHeader c.tagLz11 size
  | .ctrl flags => [flags]
  | .lit b => [b]
  | .match10 l f => [joinNibbles l (f.extractLsb' 8 4), f.extractLsb' 0 8]
  | .match11_2 t f => [joinNibbles t (f.extractLsb' 8 4), f.extractLsb' 0 8]
  | .match11_3 l f =>
    [joinNibbles 0 (l.extractLsb' 4 4), joinNibbles (l.extractLsb' 0 4) (f.extractLsb' 8 4), f.extractLsb' 0 8]
  | .match11_4 l f =>
    [joinNibbles 1 (l.extractLsb' 12 4), l.extractLsb' 4 8, joinNibbles (l.extractLsb' 0 4) (f.extractLsb' 8 4),
      f.extractLsb' 0 8]

/-- The `n` bytes of a number, most significant first: the table writes an instruction with stream byte 0 leftmost
(opcode_table.json, "Bytes in stream order, byte 0 leftmost"), so its highest-numbered bits are the first byte. -/
def bigEndianBytes : Nat → Nat → Bytes
  | 0, _ => []
  | n + 1, w => BitVec.ofNat 8 (w >>> (8 * n)) :: bigEndianBytes n w

/-- The bytes of a table word, followed by zeros up to the longest instruction (4 bytes). -/
def tableBytes (nbits w : Nat) : Bytes :=
  bigEndianBytes (nbits / 8) w ++ List.replicate (4 - nbits / 8) 0

/-- The context a bare table word is read in. The word alone does not fix it (30_encoding.md R74): the most constrained
row of that width whose fixed bits and constraint the word meets is taken, and between CTRL and LIT, which constrain
nothing, the first of the table. DESIGN CHOICE, log entry 14: used only by `decodeTableWord` and `withFetchWord`, never by
the machine's own fetch. -/
def tableContext (nbits w : Nat) : Option Context :=
  if nbits = 8 then some .control
  else if nbits = 16 then some (if 2 ≤ (w >>> 12) % 16 then .backRef .lz11 else .backRef .lz10)
  else if nbits = 24 then some (.backRef .lz11)
  else if nbits = 32 then
    some (if BitVec.ofNat 8 (w >>> 24) = Config.defaults.tagLz10 ∨ BitVec.ofNat 8 (w >>> 24) = Config.defaults.tagLz11
      then .header else .backRef .lz11)
  else none

/-- The instruction the decoder reads from a table word (log entry 14). -/
def decodeTableWord (nbits w : Nat) : Option Instr :=
  match tableContext nbits w with
  | none => none
  | some ctx =>
    match decodeIn Config.defaults ctx (tableBytes nbits w) with
    | .instr i _ => some i
    | .short => none
    | .badTag _ => none

end Sys2Proof
end

