-- ==== Sys2Proof/Machine/State.lean ====
section
/-! DEFINITION. The state of the block: the registers of the request that runs (10_state.md R26 to R28), the result record
(R24), the parameters, and the host's side of the interface. Plain data throughout. -/

namespace Sys2Proof.Machine

/-- One of the three byte-addressed spaces SRC, CIN and OUT (20_memory.md R50): a finite byte sequence indexed from 0. Index
`i` holds the `i`-th byte; an index at or past the length holds no value (log entry 5). -/
abbrev Memory := Bytes

/-- The names of the spaces. -/
inductive Space where
  | src
  | cin
  | out
deriving DecidableEq, Repr

/-- The fatal errors with their recorded info (60_exceptions.md R200). They are the machine's exceptions: a request that
raises one ends with a result record, and the machine goes on (R208). -/
inductive Err where
  /-- code 1, raised by ENCODE, records `n = |SRC|` (R201) -/
  | inputTooLarge (n : Nat)
  /-- code 2, raised by DECODE, records the tag byte (R202) -/
  | badHeader (tag : Byte)
  /-- code 3, raised by a match of DECODE, records the `CIN` index `u` of the match's first byte, its displacement `d` and
  `PRODUCED` (R203) -/
  | outOfRangeBackReference (u d produced : Nat)
  /-- code 4, raised by DECODE, records the failing `IPOS`, or `|CIN|` for a short header (R204) -/
  | truncatedInput (ipos : Nat)
  /-- code 5, raised by FIND, records `(p, L, D, n)` (R205) -/
  | invalidRequest (p l d n : Nat)
deriving DecidableEq, Repr

/-- A finder result with `FOUND = 1`: `FDISP` and `FLEN` (10_state.md R24, 40_match_finder.md R105). -/
structure Found where
  disp : Nat
  len : Nat
deriving DecidableEq, Repr

/-- The result record (10_state.md R24). A field that R24 calls not meaningful for a record has no place in it. -/
inductive Result where
  /-- FIND with `STATUS = OK`; `none` is `FOUND = 0`, which has no `FDISP` and no `FLEN` (log entry 22) -/
  | find (found : Option Found)
  /-- ENCODE with `STATUS = OK` -/
  | encode (out : Memory)
  /-- DECODE with `STATUS = OK` -/
  | decode (out : Memory) (warnLen warnVram : Bool)
  /-- `STATUS = ERROR`: the code and the info, and no other field -/
  | error (e : Err)
deriving DecidableEq, Repr

/-- The three requests and their operands (10_state.md R20 to R23). -/
inductive Request where
  | find (src : Memory) (p lprobe dmax : Nat) (vramSafe : Bool)
  | encode (src : Memory) (mode : Mode) (vramSafe : Bool)
  | decode (cin : Memory) (vramSafe : Bool)
deriving DecidableEq, Repr

/-- A running FIND: its operands and the Match Finder's registers (10_state.md R28). -/
structure FindRegs where
  src : Memory
  p : Nat
  lprobe : Nat
  dmax : Nat
  vramSafe : Bool
  /-- `FD`, the candidate displacement being examined -/
  fd : Nat
  /-- `FBEST_D` -/
  fbestD : Nat
  /-- `FBEST_L` -/
  fbestL : Nat
deriving DecidableEq, Repr

/-- The group being packed and the output it goes to (`ECTRL`, `EUCNT`, `EUNITS`, `OUT` of 10_state.md R26). -/
structure Packer where
  /-- `ECTRL` -/
  ectrl : Byte
  /-- `EUCNT` -/
  eucnt : Nat
  /-- `EUNITS` -/
  eunits : Bytes
  /-- `OUT` -/
  out : Memory
deriving DecidableEq, Repr

/-- A running ENCODE: its operands and the Encoder's registers (10_state.md R26). -/
structure EncRegs where
  src : Memory
  mode : Mode
  vramSafe : Bool
  /-- `EP`, the cursor -/
  ep : Nat
  /-- `ECTRL`, `EUCNT`, `EUNITS`, `OUT` -/
  pk : Packer
deriving DecidableEq, Repr

/-- A running DECODE: its operands and the Decoder's registers (10_state.md R27). -/
structure DecRegs where
  cin : Memory
  vramSafe : Bool
  /-- `IPOS`, the Decoder's program counter -/
  ipos : Nat
  /-- `DMODE` -/
  dmode : Mode
  /-- `DN`, the declared size -/
  dn : Nat
  /-- `PRODUCED` -/
  produced : Nat
  /-- `DFLAGS` -/
  dflags : Byte
  /-- `DFCNT` -/
  dfcnt : Nat
  /-- `WARN_LEN` -/
  warnLen : Bool
  /-- `WARN_VRAM` -/
  warnVram : Bool
  /-- `OUT` -/
  out : Memory
deriving DecidableEq, Repr

/-- What the block is doing. The registers of a sub-block exist only while its request runs (10_state.md R26 to R28), and
one request runs at a time (R25). -/
inductive Activity where
  | idle
  | finding (f : FindRegs)
  | encoding (e : EncRegs)
  | decoding (d : DecRegs)
deriving DecidableEq, Repr

/-- The fields of the result record, as the host names them (10_state.md R24). -/
inductive ResultField where
  | status
  | err
  | errInfo
  | out
  | warnLen
  | warnVram
  | found
  | fdisp
  | flen
deriving DecidableEq, Repr

/-- The value of a field of the result record. -/
inductive FieldValue where
  /-- `STATUS`: true is OK, false is ERROR -/
  | status (ok : Bool)
  /-- `ERR`, `FDISP`, `FLEN` -/
  | number (n : Nat)
  /-- `ERR_INFO` -/
  | info (e : Err)
  /-- `OUT` -/
  | bytes (m : Memory)
  /-- `WARN_LEN`, `WARN_VRAM`, `FOUND` -/
  | bit (b : Bool)
deriving DecidableEq, Repr

/-- What the host can do to the block (10_state.md R20, R24, R37; 70_reset_and_hazards.md R232). There is no move that
changes `SRC` or `CIN` while a request runs (20_memory.md R64, log entry 13). -/
inductive HostMove where
  /-- submit a request; `outAliases` says that the host gave OUT a buffer that overlaps SRC or CIN (20_memory.md R65) -/
  | request (r : Request) (outAliases : Bool)
  /-- reset the block -/
  | reset
  /-- read a field of the result record -/
  | readField (f : ResultField)
  /-- take the result record, which then exists no more -/
  | takeResult
deriving DecidableEq, Repr

/-- A coming move of the host: it lands after `after` further steps of the block, or later, when it must wait for a running
request to end (log entry 10). -/
structure Pending where
  after : Nat
  move : HostMove
deriving DecidableEq, Repr

/-- The state of the machine. -/
structure State where
  /-- the parameters; no step changes them (log entry 4) -/
  cfg : Config
  /-- what the block does, with the registers of the running request -/
  activity : Activity
  /-- the result record, from the end of a request until the host takes it (10_state.md R37) -/
  result : Option Result
  /-- the host's coming moves, first to last (the model's own, log entry 10) -/
  moves : List Pending
  /-- the records the host took, oldest first (the model's own, log entry 11) -/
  received : List Result
  /-- the field values the host read, oldest first (the model's own, log entry 9) -/
  reads : List FieldValue
deriving DecidableEq, Repr

/-- Why the machine stops with a fault. -/
inductive Fault where
  /-- raised by a host's read (or taking) of the result record when there is none: "A model must treat a read of them in
  either state as a fault" (10_state.md R37). Safe. Log entry 9. -/
  | noResult
  /-- raised by a host's read of a field that the present record's kind does not have (10_state.md R24; log entry 9), or of
  `FDISP` or `FLEN` when FIND found nothing (log entry 22). Safe. -/
  | noSuchField
  /-- raised by an instruction executed where the stream has no place for it (the "context" of 30_encoding.md R89): the
  block never does this, and no step of the model does. Safe. Log entry 7. -/
  | outOfContext
  /-- raised by a back-reference copy at an index of OUT that holds no byte: only in a state where `|OUT| ≠ PRODUCED`, which
  no run reaches (10_state.md R27). Safe. Log entry 8. -/
  | outUnwritten
deriving DecidableEq, Repr

/-- Why the model refuses to go on. -/
inductive Refusal where
  /-- raised by `exec` for an instruction without a meaning; no arm answers it. Safe. -/
  | notModelled (mnemonic : String)
  /-- raised when the host submits an ENCODE or DECODE request whose OUT overlaps its input: "A model refuses a request whose
  buffers alias" (20_memory.md R65). Safe. Log entry 12. -/
  | aliasedBuffers
deriving DecidableEq, Repr

/-- Why the execution of a unit stops: the block raises a fatal error, or the model faults. -/
inductive Stop where
  | raised (e : Err)
  | fault (f : Fault)
deriving DecidableEq, Repr

/-- After reset the block is idle, no register of a sub-block exists and the result record holds nothing
(70_reset_and_hazards.md R230, 10_state.md R37). The parameters have their defaults; the host has nothing queued (log
entries 2 to 4, 10). -/
def State.reset : State :=
  { cfg := Config.defaults, activity := .idle, result := none, moves := [], received := [], reads := [] }

end Sys2Proof.Machine
end

