-- ==== Sys2Proof/Machine/Flags.lean ====
section
/-! DEFINITION. The flag bits of the control bytes, "the block's only condition codes" (10_state.md R30 to R32), and the
sticky warning bits (R33). -/

namespace Sys2Proof.Machine

/-- The bit of a control byte that unit `k` of its group owns: bit `7 − k` (10_state.md R31, 41_encoder.md R133). -/
def flagMask (k : Nat) : Byte := (0x80 : Byte) >>> k

/-- Write the flag of unit `k`: 1 sets its bit, 0 leaves the bit 0 (41_encoder.md R133). -/
def setFlag (ctrl : Byte) (k : Nat) (flag : Bool) : Byte := if flag then ctrl ||| flagMask k else ctrl

/-- The flag of the next unit, `DFLAGS[7]` (10_state.md R32). -/
def nextFlag (flags : Byte) : Bool := flags.getMsbD 0

/-- Load a control byte: all 8 flags, MSB first (42_decoder.md R155). -/
def DecRegs.loadFlags (flags : Byte) (d : DecRegs) : DecRegs := { d with dflags := flags, dfcnt := 8 }

/-- Consume a flag: `DFLAGS <- (DFLAGS << 1) & 0xFF ; DFCNT <- DFCNT − 1` (42_decoder.md R156). -/
def DecRegs.consumeFlag (d : DecRegs) : DecRegs := { d with dflags := d.dflags <<< 1, dfcnt := d.dfcnt - 1 }

/-- A match of length `len` would produce more than the declared size (42_decoder.md R162). -/
def DecRegs.exceeds (d : DecRegs) (len : Nat) : Bool := decide (d.dn < d.produced + len)

/-- `WARN_LEN` is set by a match that exceeds the declared size, and never cleared (42_decoder.md R162, 10_state.md R33). -/
def DecRegs.warnIfExceeds (len : Nat) (d : DecRegs) : DecRegs := { d with warnLen := d.warnLen || d.exceeds len }

/-- `WARN_VRAM` is set by a match of displacement 1 when `VRAM_SAFE = 1`, and never cleared (42_decoder.md R164, 10_state.md
R33). -/
def DecRegs.warnIfUnsafe (disp : Nat) (d : DecRegs) : DecRegs :=
  { d with warnVram := d.warnVram || (d.vramSafe && disp == 1) }

end Sys2Proof.Machine
end

