-- ==== Sys2Proof/Machine/Operands.lean ====
section
/-! DEFINITION. Operand assembly: the length and displacement that the fields of a match stand for (30_encoding.md R76 to
R82). "Every field is unsigned and zero-extended. The bias is added after zero extension" (R82). -/

namespace Sys2Proof.Machine

/-- Every form: `d = zext(F) + 1`, in `1..4096` (30_encoding.md R77). -/
def dispOf (f : BitVec 12) : Nat := f.toNat + 1

/-- `MATCH10`: `zext(L) + 3`, in `3..18` (30_encoding.md R76). -/
def len10 (l : BitVec 4) : Nat := l.toNat + 3

/-- `MATCH11_2`: `zext(T) + 1`, in `3..16` (30_encoding.md R78). -/
def len11x2 (t : BitVec 4) : Nat := t.toNat + 1

/-- `MATCH11_3`: `zext(L) + 0x11`, in `17..272` (30_encoding.md R79). -/
def len11x3 (l : BitVec 8) : Nat := l.toNat + 0x11

/-- `MATCH11_4`: `zext(L) + 0x111`, in `273..65808` (30_encoding.md R80). -/
def len11x4 (l : BitVec 16) : Nat := l.toNat + 0x111

/-- The length and displacement of a match instruction; `none` for an instruction that is no match. -/
def matchOperands : Instr → Option Found
  | .hdrLz10 _ => none
  | .hdrLz11 _ => none
  | .ctrl _ => none
  | .lit _ => none
  | .match10 l f => some { disp := dispOf f, len := len10 l }
  | .match11_2 t f => some { disp := dispOf f, len := len11x2 t }
  | .match11_3 l f => some { disp := dispOf f, len := len11x3 l }
  | .match11_4 l f => some { disp := dispOf f, len := len11x4 l }

/-- The displacement field that stores `d` (30_encoding.md R77, 90_conflicts.md C5). -/
def dispField (d : Nat) : BitVec 12 := BitVec.ofNat 12 (d - 1)

/-- The one match unit of `mode` that stands for displacement `d` and length `l` (30_encoding.md R81; 41_encoder.md R135 to
R138), for `1 ≤ d ≤ WINDOW` and `MIN_MATCH ≤ l ≤ MAX_LEN(mode)`. -/
def matchUnit : Mode → Nat → Nat → Instr
  | .lz10, d, l => .match10 (BitVec.ofNat 4 (l - 3)) (dispField d)
  | .lz11, d, l =>
    if l ≤ 16 then .match11_2 (BitVec.ofNat 4 (l - 1)) (dispField d)
    else if l ≤ 272 then .match11_3 (BitVec.ofNat 8 (l - 0x11)) (dispField d)
    else .match11_4 (BitVec.ofNat 16 (l - 0x111)) (dispField d)

end Sys2Proof.Machine
end

