-- ==== Sys2Proof/Machine/Ops.lean ====
section
/-! DEFINITION. The shared operations: reading and appending bytes, the start and the end of a request, taking an
exception, executing a match, and running an instruction in its context. -/

namespace Sys2Proof.Machine

/-! ### Memory -/

/-- `MemRead(SPACE, i, 1)`: the byte at index `i`, or no value at or past the end (20_memory.md R50, R57, R59). -/
def readByte (m : Memory) (i : Nat) : Option Byte := m[i]?

/-- `Append(OUT, v)` (00_scope.md section 4, 20_memory.md R53). -/
def append (m : Memory) (b : Byte) : Memory := m ++ [b]

/-- A space as a list of address and byte pairs. -/
def Memory.cells (m : Memory) : List Host.Cell := (List.range m.length).zip m

/-- The canonical form: the listed addresses rise strictly. An unlisted address holds no value, so no entry can equal it. -/
def Memory.wf (m : Memory) : Bool := decide (((Memory.cells m).map Prod.fst).Pairwise (· < ·))

/-- The bytes of a space in a state: none while no running request has that space. -/
def State.space (s : State) : Space → Memory
  | .src =>
    match s.activity with
    | .finding f => f.src
    | .encoding e => e.src
    | .decoding _ => []
    | .idle => []
  | .cin =>
    match s.activity with
    | .decoding d => d.cin
    | .finding _ => []
    | .encoding _ => []
    | .idle => []
  | .out =>
    match s.activity with
    | .encoding e => e.pk.out
    | .decoding d => d.out
    | .finding _ => []
    | .idle => []

/-- The model's read of one byte of a space. -/
def State.memRead (s : State) (sp : Space) (i : Nat) : Option Byte := readByte (s.space sp) i

/-! ### Updates of the state -/

/-- Go on with the given activity. -/
def State.setActivity (a : Activity) (s : State) : State := { s with activity := a }

/-- The end of a request: its registers exist no more, and its result record does (60_exceptions.md R219). -/
def finish (r : Result) (s : State) : State := { s with activity := .idle, result := some r }

/-- TAKING AN EXCEPTION (60_exceptions.md R208 to R210): the request ends; the record is `STATUS = ERROR` with the code and the
info; `OUT`, the warnings and every register are discarded; no pc or status is saved, there is no handler and no mode, and
the block is idle. There is no return from it (R210): the next request starts afresh. -/
def raise (e : Err) (s : State) : State := finish (.error e) s

/-! ### Registers of the Decoder -/

/-- The Decoder's registers at the start of a DECODE request (10_state.md R36). `DMODE` and `DN` come from the header; until it
is read they hold LZ10 and 0. DESIGN CHOICE, log entry 6: unsafe only for a claim that reads them before the header. -/
def DecRegs.start (cin : Memory) (vramSafe : Bool) : DecRegs :=
  { cin, vramSafe, ipos := 0, dmode := .lz10, dn := 0, produced := 0, dflags := 0, dfcnt := 0,
    warnLen := false, warnVram := false, out := [] }

/-- The header's effect: mode and size, `IPOS <- 4`, and the registers of 42_decoder.md R153. -/
def DecRegs.loadHeader (mode : Mode) (size : Nat) (d : DecRegs) : DecRegs :=
  { d with
    ipos := 4, dmode := mode, dn := size, produced := 0, dflags := 0, dfcnt := 0,
    warnLen := false, warnVram := false, out := [] }

/-- Move the input cursor past `n` fetched bytes (10_state.md R29). -/
def DecRegs.advance (n : Nat) (d : DecRegs) : DecRegs := { d with ipos := d.ipos + n }

/-- `Append(OUT, b) ; PRODUCED <- PRODUCED + 1` (42_decoder.md R157, R165). -/
def DecRegs.emit (b : Byte) (d : DecRegs) : DecRegs := { d with out := append d.out b, produced := d.produced + 1 }

/-- Where the Decoder stands: `IPOS = 0` until the header is read (10_state.md R29), then a unit is needed while
`PRODUCED < DN` (42_decoder.md R154), its control byte first when no flag is left (R155); nothing once `PRODUCED = DN`
(R167). -/
def DecRegs.context (d : DecRegs) : Option Context :=
  if d.ipos = 0 then some .header
  else if d.produced < d.dn then
    if d.dfcnt = 0 then some .control
    else if nextFlag d.dflags then some (.backRef d.dmode)
    else some .literal
  else none

/-! ### Executing a match -/

/-- The length left after truncation (42_decoder.md R162). -/
def DecRegs.truncated (d : DecRegs) (len : Nat) : Nat := if d.exceeds len then d.dn - d.produced else len

/-- The copy: `n` bytes one at a time, each read after the one before it is appended (42_decoder.md R165,
70_reset_and_hazards.md R234). -/
def copyBytes (disp : Nat) : Nat → DecRegs → Except Stop DecRegs
  | 0, d => .ok d
  | n + 1, d =>
    match readByte d.out (d.produced - disp) with
    | none => .error (.fault .outUnwritten)
    | some b => copyBytes disp n (d.emit b)

/-- `ExecMatch(u, d, l)` (42_decoder.md section 4): truncate and warn, check the range, warn, copy, in this order. -/
def execMatch (u disp len : Nat) (d : DecRegs) : Except Stop DecRegs :=
  if d.produced < disp then .error (.raised (.outOfRangeBackReference u disp d.produced))
  else copyBytes disp (d.truncated len) ((d.warnIfExceeds len).warnIfUnsafe disp)

/-! ### Running an instruction -/

/-- Go on with the registers a unit leaves, or take the exception it raises. -/
def settle (s : State) : Except Stop DecRegs → Host.Outcome State Fault Refusal
  | .ok d => .next (s.setActivity (.decoding d))
  | .error (.raised e) => .next (raise e s)
  | .error (.fault f) => .fault f

/-- Run `f` on the Decoder's registers, if the Decoder stands where the instruction belongs (30_encoding.md R89); otherwise
fault (log entry 7). -/
def inContext (c : Context) (f : DecRegs → Except Stop DecRegs) (s : State) : Host.Outcome State Fault Refusal :=
  match s.activity with
  | .decoding d => if d.context = some c then settle s (f d) else .fault .outOfContext
  | .idle => .fault .outOfContext
  | .finding _ => .fault .outOfContext
  | .encoding _ => .fault .outOfContext

/-- A match unit of `size` bytes: its flag is consumed, its bytes are fetched, then `ExecMatch` with the index `u` of its
first byte (42_decoder.md R156, R158 to R161). -/
def runMatch (mode : Mode) (size : Nat) (m : Found) (s : State) : Host.Outcome State Fault Refusal :=
  inContext (.backRef mode) (fun d => execMatch d.ipos m.disp m.len (d.consumeFlag.advance size)) s

/-! ### The group being packed (shared by the Encoder and the assembler) -/

/-- An empty group and an output. -/
def Packer.start (out : Memory) : Packer := { ectrl := 0, eucnt := 0, eunits := [], out }

/-- Append bytes to `OUT` directly. -/
def Packer.write (bs : Bytes) (k : Packer) : Packer := { k with out := k.out ++ bs }

/-- `Flush()`: the control byte, then the units, then a new group (41_encoder.md R134, R141). -/
def Packer.flush (k : Packer) : Packer := Packer.start (append k.out k.ectrl ++ k.eunits)

/-- Flush a partial group; a group of no unit is not written (41_encoder.md R139). -/
def Packer.flushPartial (k : Packer) : Packer := if 0 < k.eucnt then k.flush else k

/-- `AddUnit(f, bytes)`: unit number `EUCNT` of the group; the 8th unit flushes it (41_encoder.md R133, R134). -/
def Packer.addUnit (flag : Bool) (bs : Bytes) (k : Packer) : Packer :=
  let k' := { k with ectrl := setFlag k.ectrl k.eucnt flag, eunits := k.eunits ++ bs, eucnt := k.eucnt + 1 }
  if k'.eucnt = group then k'.flush else k'

/-- The zero bytes still missing to a multiple of `PAD_ALIGN` (41_encoder.md R142). -/
def padding (m : Memory) : Bytes := List.replicate ((padAlign - m.length % padAlign) % padAlign) 0

/-- `Pad()` (41_encoder.md R142). -/
def Packer.pad (k : Packer) : Packer := k.write (padding k.out)

end Sys2Proof.Machine
end

