-- ==== Sys2Proof/Machine/Control.lean ====
section
/-! DEFINITION. The control-byte fetch (42_decoder.md R155). -/

namespace Sys2Proof.Machine

/-- `CTRL`: `DFLAGS <- Fetch() ; DFCNT <- 8` (42_decoder.md R155). -/
def execCtrl (flags : Byte) (s : State) : Host.Outcome State Fault Refusal :=
  inContext .control (fun d => .ok ((d.advance 1).loadFlags flags)) s

end Sys2Proof.Machine
end

