-- ==== Sys2Proof/Machine/Header.lean ====
section
/-! DEFINITION. The Header Codec (43_header_codec.md): the two header instructions, and WriteHeader and ReadHeader. -/

namespace Sys2Proof.Machine

/-- `HDR_LZ10` (43_header_codec.md R181, 42_decoder.md R151 to R153): `DMODE <- LZ10`, `DN <- N`, `IPOS <- 4`. -/
def execHdrLz10 (size : BitVec 24) (s : State) : Host.Outcome State Fault Refusal :=
  inContext .header (fun d => .ok (d.loadHeader .lz10 size.toNat)) s

/-- `HDR_LZ11` (43_header_codec.md R181, 42_decoder.md R151 to R153): `DMODE <- LZ11`, `DN <- N`, `IPOS <- 4`. -/
def execHdrLz11 (size : BitVec 24) (s : State) : Host.Outcome State Fault Refusal :=
  inContext .header (fun d => .ok (d.loadHeader .lz11 size.toNat)) s

/-- `WriteHeader(MODE, n)`: the four bytes it appends (43_header_codec.md R180). -/
def writeHeader (c : Config) (mode : Mode) (n : Nat) : Bytes :=
  [c.tag mode, BitVec.ofNat 8 (n &&& 0xFF), BitVec.ofNat 8 ((n >>> 8) &&& 0xFF), BitVec.ofNat 8 ((n >>> 16) &&& 0xFF)]

/-- `ReadHeader(CIN)`: the length check, then the tag check, then the little-endian size (43_header_codec.md R181). -/
def readHeader (c : Config) (cin : Memory) : Except Err (Mode × Nat) :=
  match cin with
  | t :: b1 :: b2 :: b3 :: _ =>
    let n := b1.toNat ||| (b2.toNat <<< 8) ||| (b3.toNat <<< 16)
    if t = c.tagLz10 then .ok (.lz10, n)
    else if t = c.tagLz11 then .ok (.lz11, n)
    else .error (.badHeader t)
  | short => .error (.truncatedInput short.length)

end Sys2Proof.Machine
end

