-- ==== Sys2Proof/Machine/Literal.lean ====
section
/-! DEFINITION. The literal unit (42_decoder.md R157). -/

namespace Sys2Proof.Machine

/-- `LIT`: `B = Fetch() ; Append(OUT, B) ; PRODUCED <- PRODUCED + 1` (42_decoder.md R156, R157). -/
def execLit (b : Byte) (s : State) : Host.Outcome State Fault Refusal :=
  inContext .literal (fun d => .ok ((d.consumeFlag.advance 1).emit b)) s

end Sys2Proof.Machine
end

