-- ==== Sys2Proof/Machine/Match.lean ====
section
/-! DEFINITION. The four match units (42_decoder.md R158 to R161): the operands of each form, then the shared `ExecMatch`. -/

namespace Sys2Proof.Machine

/-- `MATCH10` (42_decoder.md R158). -/
def execMatch10 (l : BitVec 4) (f : BitVec 12) (s : State) : Host.Outcome State Fault Refusal :=
  runMatch .lz10 2 { disp := dispOf f, len := len10 l } s

/-- `MATCH11_2` (42_decoder.md R159). -/
def execMatch11x2 (t : BitVec 4) (f : BitVec 12) (s : State) : Host.Outcome State Fault Refusal :=
  runMatch .lz11 2 { disp := dispOf f, len := len11x2 t } s

/-- `MATCH11_3` (42_decoder.md R160). -/
def execMatch11x3 (l : BitVec 8) (f : BitVec 12) (s : State) : Host.Outcome State Fault Refusal :=
  runMatch .lz11 3 { disp := dispOf f, len := len11x3 l } s

/-- `MATCH11_4` (42_decoder.md R161). -/
def execMatch11x4 (l : BitVec 16) (f : BitVec 12) (s : State) : Host.Outcome State Fault Refusal :=
  runMatch .lz11 4 { disp := dispOf f, len := len11x4 l } s

end Sys2Proof.Machine
end

