-- ==== Sys2Proof/Machine/Dispatch.lean ====
section
/-! DEFINITION. The dispatch: one arm per constructor of `Instr`. -/

namespace Sys2Proof.Machine

def exec (i : Instr) (s : State) : Host.Outcome State Fault Refusal :=
  match i with
  | .hdrLz10 size => Sys2Proof.Machine.execHdrLz10 size s
  | .hdrLz11 size => Sys2Proof.Machine.execHdrLz11 size s
  | .ctrl flags => Sys2Proof.Machine.execCtrl flags s
  | .lit b => Sys2Proof.Machine.execLit b s
  | .match10 l f => Sys2Proof.Machine.execMatch10 l f s
  | .match11_2 t f => Sys2Proof.Machine.execMatch11x2 t f s
  | .match11_3 l f => Sys2Proof.Machine.execMatch11x3 l f s
  | .match11_4 l f => Sys2Proof.Machine.execMatch11x4 l f s

end Sys2Proof.Machine
end

