-- ==== Sys2Proof/Machine/Fetch.lean ====
section
/-! DEFINITION. Fetching the next instruction of a DECODE: the bytes of `CIN` from `IPOS` on, decoded in the context where the
Decoder stands (42_decoder.md R151, R154 to R156, R166, R167). -/

namespace Sys2Proof.Machine

/-- What the Decoder does next. -/
inductive Fetched where
  /-- execute an instruction -/
  | run (i : Instr)
  /-- take an exception -/
  | trap (e : Err)
  /-- `PRODUCED = DN`: the request is complete (42_decoder.md R167) -/
  | complete
deriving DecidableEq, Repr

/-- The bytes of `CIN` not yet read. -/
def DecRegs.ahead (d : DecRegs) : Bytes := d.cin.drop d.ipos

/-- Fetch in a context. Bytes missing raise `TruncatedInput` with the index of the first missing one, which for a short
header is `|CIN|` (42_decoder.md R151, R166; 60_exceptions.md R204); an unknown tag raises `BadHeader` (R202). The missing
bytes are noticed before the instruction has any other effect (60_exceptions.md R211). -/
def fetchIn (c : Config) (ctx : Context) (d : DecRegs) : Fetched :=
  match decodeIn c ctx d.ahead with
  | .instr i _ => .run i
  | .short => .trap (.truncatedInput (d.ipos + d.ahead.length))
  | .badTag t => .trap (.badHeader t)

/-- What the Decoder does next. -/
def nextInstr (c : Config) (d : DecRegs) : Fetched :=
  match d.context with
  | none => .complete
  | some ctx => fetchIn c ctx d

/-! ### Placing an instruction where the next fetch reads it (for `State.withFetchWord`) -/

/-- The first `n` bytes, filled up with zeros when there are fewer. -/
def prefixBytes (n : Nat) (m : Memory) : Memory := m.take n ++ List.replicate (n - m.length) 0

/-- The Decoder's registers made to stand in the given context, with `bs` ahead: nothing else of them changes than what that
context asks for (log entry 15). -/
def DecRegs.placed (ctx : Context) (bs : Bytes) (d : DecRegs) : DecRegs :=
  match ctx with
  | .header => DecRegs.start bs d.vramSafe
  | .control =>
    { d with
      cin := prefixBytes (max 4 d.ipos) d.cin ++ bs, ipos := max 4 d.ipos, dn := max d.dn (d.produced + 1), dfcnt := 0 }
  | .literal =>
    { d with
      cin := prefixBytes (max 4 d.ipos) d.cin ++ bs, ipos := max 4 d.ipos, dn := max d.dn (d.produced + 1),
      dfcnt := max 1 d.dfcnt, dflags := d.dflags &&& 0x7F }
  | .backRef mode =>
    { d with
      cin := prefixBytes (max 4 d.ipos) d.cin ++ bs, ipos := max 4 d.ipos, dn := max d.dn (d.produced + 1),
      dfcnt := max 1 d.dfcnt, dflags := d.dflags ||| 0x80, dmode := mode }

/-- The Decoder's registers of a state: those of the running DECODE, else those of a DECODE that starts. -/
def State.decoderOrStart (s : State) : DecRegs :=
  match s.activity with
  | .decoding d => d
  | .idle => DecRegs.start [] false
  | .finding _ => DecRegs.start [] false
  | .encoding _ => DecRegs.start [] false

end Sys2Proof.Machine
end

