-- ==== Sys2Proof/Machine/Decoder.lean ====
section
/-! DEFINITION. DECODE as one atomic step, written as the byte-serial pseudocode of 42_decoder.md R166 and R169. The machine
itself runs instruction by instruction (Machine/Fetch.lean, Machine/Step.lean); that both give the same result is an
obligation. -/

namespace Sys2Proof.Machine

/-- `Fetch()` (42_decoder.md R166): a read past the end raises `TruncatedInput(IPOS)`. -/
def fetchByte (d : DecRegs) : Except Stop (Byte × DecRegs) :=
  match readByte d.cin d.ipos with
  | none => .error (.raised (.truncatedInput d.ipos))
  | some b => .ok (b, d.advance 1)

/-- `b[7:4]` as a number. -/
def hi (b : Byte) : Nat := b.toNat / 16

/-- `b[3:0]` as a number. -/
def lo (b : Byte) : Nat := b.toNat % 16

/-- `LIT` (42_decoder.md R157). -/
def litUnit (d : DecRegs) : Except Stop DecRegs := do
  let (b, d) ← fetchByte d
  return d.emit b

/-- `MATCH10` (42_decoder.md R158). -/
def match10Unit (d : DecRegs) : Except Stop DecRegs := do
  let u := d.ipos
  let (b0, d) ← fetchByte d
  let (b1, d) ← fetchByte d
  execMatch u (lo b0 * 256 + b1.toNat + 1) (hi b0 + 3) d

/-- `MATCH11_2`, `MATCH11_3`, `MATCH11_4`: the unit's own first fetch selects the form (42_decoder.md R159 to R161, R169). -/
def match11Unit (d : DecRegs) : Except Stop DecRegs := do
  let u := d.ipos
  let (b0, d) ← fetchByte d
  if hi b0 = 0 then
    let (b1, d) ← fetchByte d
    let (b2, d) ← fetchByte d
    execMatch u (lo b1 * 256 + b2.toNat + 1) (lo b0 * 16 + hi b1 + 0x11) d
  else if hi b0 = 1 then
    let (b1, d) ← fetchByte d
    let (b2, d) ← fetchByte d
    let (b3, d) ← fetchByte d
    execMatch u (lo b2 * 256 + b3.toNat + 1) (lo b0 * 4096 + b1.toNat * 16 + hi b2 + 0x111) d
  else
    let (b1, d) ← fetchByte d
    execMatch u (lo b0 * 256 + b1.toNat + 1) (hi b0 + 1) d

/-- `if DFCNT = 0: DFLAGS <- Fetch() ; DFCNT <- 8` (42_decoder.md R155). -/
def reloadFlags (d : DecRegs) : Except Stop DecRegs :=
  if d.dfcnt = 0 then do
    let (flags, d) ← fetchByte d
    return d.loadFlags flags
  else .ok d

/-- One turn of the Decoder's loop (42_decoder.md R169). -/
def decodeTurn (d : DecRegs) : Except Stop DecRegs := do
  let d ← reloadFlags d
  let flag := nextFlag d.dflags
  let d := d.consumeFlag
  if flag = false then litUnit d
  else
    match d.dmode with
    | .lz10 => match10Unit d
    | .lz11 => match11Unit d

/-- The loop `while PRODUCED < DN`; `fuel` bounds its turns. Each turn fetches a byte, so one turn more than `|CIN|` is
enough (60_exceptions.md R219). -/
def decodeLoop : (fuel : Nat) → DecRegs → Except Stop DecRegs
  | 0, d => .ok d
  | fuel + 1, d => if d.produced < d.dn then decodeTurn d >>= decodeLoop fuel else .ok d

/-- The result of a DECODE that has ended well (42_decoder.md R168). -/
def DecRegs.okResult (d : DecRegs) : Result := .decode d.out d.warnLen d.warnVram

/-- The registers at the end of a whole DECODE, or the error that ends it (42_decoder.md R169). -/
def decodeStream (c : Config) (cin : Memory) (vramSafe : Bool) : Except Stop DecRegs :=
  match readHeader c cin with
  | .error e => .error (.raised e)
  | .ok (mode, n) => decodeLoop (cin.length + 1) ((DecRegs.start cin vramSafe).loadHeader mode n)

/-- DECODE as one atomic step. It never faults, so that it always has a result (an obligation states this). -/
def decodeRequest (c : Config) (cin : Memory) (vramSafe : Bool) : Option Result :=
  match decodeStream c cin vramSafe with
  | .ok d => some d.okResult
  | .error (.raised e) => some (.error e)
  | .error (.fault _) => none

end Sys2Proof.Machine
end

