-- ==== Sys2Proof/Machine/Finder.lean ====
section
/-! DEFINITION. The Match Finder (40_match_finder.md): as a function, which the Encoder queries, and as the steps of a FIND
request on the registers FD, FBEST_D and FBEST_L. -/

namespace Sys2Proof.Machine

/-- The match length of the candidate at `q` for the cursor `p`, capped: the inner loop of 40_match_finder.md R109
(R102). -/
def matchLen (src : Memory) : (cap q p : Nat) → Nat
  | 0, _, _ => 0
  | cap + 1, q, p =>
    match readByte src q, readByte src p with
    | some a, some b => if a = b then matchLen src cap (q + 1) (p + 1) + 1 else 0
    | _, _ => 0

/-- The candidate displacement `d` is disqualified (40_match_finder.md R104). -/
def excluded (vramSafe : Bool) (d : Nat) : Bool := vramSafe && d == 1

/-- Examine candidate `d`: a strictly longer match replaces the best so far, so that a tie keeps the nearer one
(40_match_finder.md R106, R109). The best so far is length 0 while there is none. -/
def examine (src : Memory) (p cap : Nat) (vramSafe : Bool) (d : Nat) (best : Found) : Found :=
  if excluded vramSafe d then best
  else
    let k := matchLen src cap (p - d) p
    if best.len < k then { disp := d, len := k } else best

/-- Examine `n` candidates from displacement `d` on, nearest first, stopping once the cap is reached (40_match_finder.md
R106, R109). -/
def scan (src : Memory) (p cap : Nat) (vramSafe : Bool) : (n d : Nat) → Found → Found
  | 0, _, best => best
  | n + 1, d, best =>
    let best' := examine src p cap vramSafe d best
    if best'.len = cap then best' else scan src p cap vramSafe n (d + 1) best'

/-- `cap = min(L, n − p)` (40_match_finder.md R102). -/
def findCap (src : Memory) (p lprobe : Nat) : Nat := min lprobe (src.length - p)

/-- No best candidate is "no match" (40_match_finder.md R107). -/
def foundOf (best : Found) : Option Found := if best.len = 0 then none else some best

/-- The finder as a function of valid operands (40_match_finder.md R109). -/
def find (src : Memory) (p lprobe dmax : Nat) (vramSafe : Bool) : Option Found :=
  foundOf (scan src p (findCap src p lprobe) vramSafe (min dmax p) 1 { disp := 0, len := 0 })

/-- The operands of a FIND request are in range (40_match_finder.md R100, 10_state.md R23). -/
abbrev ValidFind (src : Memory) (p lprobe dmax : Nat) : Prop :=
  0 < p ∧ p < src.length ∧ 1 ≤ lprobe ∧ 1 ≤ dmax ∧ dmax ≤ window

/-- FIND as one atomic step (40_match_finder.md R109). -/
def findRequest (src : Memory) (p lprobe dmax : Nat) (vramSafe : Bool) : Result :=
  if ValidFind src p lprobe dmax then .find (find src p lprobe dmax vramSafe)
  else .error (.invalidRequest p lprobe dmax src.length)

/-! ### The steps of a FIND request -/

/-- The Finder's registers at the start (10_state.md R36). -/
def FindRegs.start (src : Memory) (p lprobe dmax : Nat) (vramSafe : Bool) : FindRegs :=
  { src, p, lprobe, dmax, vramSafe, fd := 1, fbestD := 0, fbestL := 0 }

/-- The best candidate so far. -/
def FindRegs.best (f : FindRegs) : Found := { disp := f.fbestD, len := f.fbestL }

/-- The best candidate after the candidate `FD`. -/
def FindRegs.examined (f : FindRegs) : Found :=
  examine f.src f.p (findCap f.src f.p f.lprobe) f.vramSafe f.fd f.best

/-- The scan ends after the candidate `FD`: the cap is reached, or it is the last one. -/
abbrev FindRegs.isLast (f : FindRegs) : Prop :=
  f.examined.len = findCap f.src f.p f.lprobe ∨ min f.dmax f.p ≤ f.fd

/-- One step of a FIND request: the operands' check, then one candidate (40_match_finder.md R109; log entry 1). -/
def stepFind (f : FindRegs) (s : State) : State :=
  if ValidFind f.src f.p f.lprobe f.dmax then
    if f.isLast then finish (.find (foundOf f.examined)) s
    else
      s.setActivity (.finding { f with fd := f.fd + 1, fbestD := f.examined.disp, fbestL := f.examined.len })
  else raise (.invalidRequest f.p f.lprobe f.dmax f.src.length) s

end Sys2Proof.Machine
end

