-- ==== Sys2Proof/Machine/Encoder.lean ====
section
/-! DEFINITION. The Encoder (41_encoder.md): as a function of the request, and as the steps of an ENCODE request on the
registers EP, ECTRL, EUCNT, EUNITS and OUT. -/

namespace Sys2Proof.Machine

/-- The Encoder's query of the finder (41_encoder.md R126). -/
def query (src : Memory) (mode : Mode) (vramSafe : Bool) (p : Nat) : Option Found :=
  find src p (maxLen mode) window vramSafe

/-- The finder result, if usable: `FOUND = 1` and `FLEN ≥ MIN_MATCH` (41_encoder.md R127). -/
def usableMatch (src : Memory) (mode : Mode) (vramSafe : Bool) (p : Nat) : Option Found :=
  match query src mode vramSafe p with
  | none => none
  | some m => if minMatch ≤ m.len then some m else none

/-- `ProbeLen(x)` (41_encoder.md R129). -/
def probeLen (c : Config) (src : Memory) (mode : Mode) (vramSafe : Bool) (x : Nat) : Nat :=
  match usableMatch src mode vramSafe x with
  | none => c.probeShort
  | some m => m.len

/-- The lazy decision prefers a literal at `p` to the usable match `m` (41_encoder.md R128 to R130): only when the match ends
before the end of the source, and when `l0 + l2 ≤ 1 + l1 + LAZY_BIAS`. -/
abbrev PrefersLiteral (c : Config) (src : Memory) (mode : Mode) (vramSafe : Bool) (p : Nat) (m : Found) : Prop :=
  p + m.len < src.length ∧
    m.len + probeLen c src mode vramSafe (p + m.len) ≤ 1 + probeLen c src mode vramSafe (p + 1) + c.lazyBias

/-- The match the Encoder commits at `p`, or none for a literal (41_encoder.md R124 to R132). -/
def committed (c : Config) (src : Memory) (mode : Mode) (vramSafe : Bool) (p : Nat) : Option Found :=
  if p = 0 then none
  else
    match usableMatch src mode vramSafe p with
    | none => none
    | some m => if PrefersLiteral c src mode vramSafe p m then none else some m

/-- The bytes of a match unit, `EncodeMatch(MODE, d, l)` (41_encoder.md R135 to R138). -/
def encodeMatch (c : Config) (mode : Mode) (m : Found) : Bytes := encode c (matchUnit mode m.disp m.len)

/-- `EmitLiteral()` for the byte `b = SRC[EP]` (41_encoder.md R131). -/
def EncRegs.emitLiteral (b : Byte) (e : EncRegs) : EncRegs := { e with pk := e.pk.addUnit false [b], ep := e.ep + 1 }

/-- `EmitMatch(d, l)` (41_encoder.md R132). -/
def EncRegs.emitMatch (c : Config) (m : Found) (e : EncRegs) : EncRegs :=
  { e with pk := e.pk.addUnit true (encodeMatch c e.mode m), ep := e.ep + m.len }

/-- One iteration of the Encoder's loop, at the byte `b = SRC[EP]` (41_encoder.md R124). -/
def encodeUnit (c : Config) (b : Byte) (e : EncRegs) : EncRegs :=
  match committed c e.src e.mode e.vramSafe e.ep with
  | none => e.emitLiteral b
  | some m => e.emitMatch c m

/-- The Encoder's registers at the start (10_state.md R36). -/
def EncRegs.start (src : Memory) (mode : Mode) (vramSafe : Bool) : EncRegs :=
  { src, mode, vramSafe, ep := 0, pk := Packer.start [] }

/-- The header is the first write of `OUT` (41_encoder.md R122). -/
def EncRegs.writeHeader (c : Config) (e : EncRegs) : EncRegs :=
  { e with pk := e.pk.write (Machine.writeHeader c e.mode e.src.length) }

/-- The loop `while EP < n`; `fuel` bounds its turns, and `n` turns are enough, each advancing `EP` (41_encoder.md R124). -/
def encodeLoop (c : Config) : (fuel : Nat) → EncRegs → EncRegs
  | 0, e => e
  | fuel + 1, e =>
    match readByte e.src e.ep with
    | none => e
    | some b => encodeLoop c fuel (encodeUnit c b e)

/-- The registers after the loop of a whole ENCODE. -/
def encodeUnits (c : Config) (src : Memory) (mode : Mode) (vramSafe : Bool) : EncRegs :=
  encodeLoop c src.length ((EncRegs.start src mode vramSafe).writeHeader c)

/-- The output of ENCODE for a source of legal size: header, groups, padding (41_encoder.md R124, R141). -/
def encodeStream (c : Config) (src : Memory) (mode : Mode) (vramSafe : Bool) : Memory :=
  (encodeUnits c src mode vramSafe).pk.flushPartial.pad.out

/-- ENCODE as one atomic step (41_encoder.md R124). -/
def encodeRequest (c : Config) (src : Memory) (mode : Mode) (vramSafe : Bool) : Result :=
  if maxSize < src.length then .error (.inputTooLarge src.length)
  else .encode (encodeStream c src mode vramSafe)

/-! ### The steps of an ENCODE request -/

/-- One step of an ENCODE request (41_encoder.md R124, 95_test_vectors.md P5; log entry 1): while `OUT` is empty, the size
check and the header; then one unit while `EP < n`; then the flush of a partial group; then the padding; then the
result. -/
def stepEncode (e : EncRegs) (s : State) : State :=
  if e.pk.out = [] then
    if maxSize < e.src.length then raise (.inputTooLarge e.src.length) s
    else s.setActivity (.encoding (e.writeHeader s.cfg))
  else
    match readByte e.src e.ep with
    | some b => s.setActivity (.encoding (encodeUnit s.cfg b e))
    | none =>
      if 0 < e.pk.eucnt then s.setActivity (.encoding { e with pk := e.pk.flush })
      else if padding e.pk.out ≠ [] then s.setActivity (.encoding { e with pk := e.pk.pad })
      else finish (.encode e.pk.out) s

end Sys2Proof.Machine
end

