-- ==== Sys2Proof/Machine/Requests.lean ====
section
/-! DEFINITION. The requests and the moves of the host (10_state.md R20 to R25, R37; 70_reset_and_hazards.md R230 to R233). -/

namespace Sys2Proof.Machine

/-- The activity a request starts, with its registers at the values of 10_state.md R36 (70_reset_and_hazards.md R231). -/
def Request.activity : Request → Activity
  | .find src p lprobe dmax vramSafe => .finding (FindRegs.start src p lprobe dmax vramSafe)
  | .encode src mode vramSafe => .encoding (EncRegs.start src mode vramSafe)
  | .decode cin vramSafe => .decoding (DecRegs.start cin vramSafe)

/-- The result of a request, as one atomic step (00_scope.md R3). `decodeRequest` is the only one that is an option, and it
always has a value. -/
def Request.answer (c : Config) : Request → Option Result
  | .find src p lprobe dmax vramSafe => some (findRequest src p lprobe dmax vramSafe)
  | .encode src mode vramSafe => some (encodeRequest c src mode vramSafe)
  | .decode cin vramSafe => decodeRequest c cin vramSafe

/-- Start a request. -/
def startRequest (r : Request) (s : State) : State := s.setActivity r.activity

/-- The request writes an `OUT` (20_memory.md R50). -/
def Request.writesOut : Request → Bool
  | .find _ _ _ _ _ => false
  | .encode _ _ _ => true
  | .decode _ _ => true

/-- The numeric codes of 60_exceptions.md R200. -/
def Err.code : Err → Nat
  | .inputTooLarge _ => 1
  | .badHeader _ => 2
  | .outOfRangeBackReference _ _ _ => 3
  | .truncatedInput _ => 4
  | .invalidRequest _ _ _ _ => 5

/-- A field of a result record, where the record has it (10_state.md R24). A FIND that found nothing has no `FDISP` and no
`FLEN`: 40_match_finder.md R107 and R109 give them no value, and R24 does not speak of them there. DESIGN CHOICE, log entry
22: safe, since a read of them faults. -/
def Result.field : Result → ResultField → Option FieldValue
  | .error _, .status => some (.status false)
  | .error e, .err => some (.number e.code)
  | .error e, .errInfo => some (.info e)
  | .error _, _ => none
  | _, .status => some (.status true)
  | .find m, .found => some (.bit m.isSome)
  | .find (some m), .fdisp => some (.number m.disp)
  | .find (some m), .flen => some (.number m.len)
  | .find _, _ => none
  | .encode out, .out => some (.bytes out)
  | .encode _, _ => none
  | .decode out _ _, .out => some (.bytes out)
  | .decode _ w _, .warnLen => some (.bit w)
  | .decode _ _ w, .warnVram => some (.bit w)
  | .decode _ _ _, _ => none

/-- Reset: the request in progress is abandoned without a result, and the record holds nothing (70_reset_and_hazards.md
R230, R232). What the host itself holds is not the block's. -/
def resetBlock (s : State) : State := { s with activity := .idle, result := none }

/-- The host reads a field of the record; the read changes nothing of the block (20_memory.md R59), and where there is
nothing to read it faults (10_state.md R24, R37; log entry 9). -/
def readField (f : ResultField) (s : State) : Host.Outcome State Fault Refusal :=
  match s.result with
  | none => .fault .noResult
  | some r =>
    match r.field f with
    | none => .fault .noSuchField
    | some v => .next { s with reads := s.reads ++ [v] }

/-- The host takes the record (10_state.md R37). -/
def takeResult (s : State) : Host.Outcome State Fault Refusal :=
  match s.result with
  | none => .fault .noResult
  | some r => .next { s with result := none, received := s.received ++ [r] }

/-- A request is refused when its `OUT` aliases its input (20_memory.md R65), else it starts. -/
def submit (r : Request) (outAliases : Bool) (s : State) : Host.Outcome State Fault Refusal :=
  if r.writesOut && outAliases then .refused .aliasedBuffers else .next (startRequest r s)

/-- The effect of a move of the host. -/
def hostMove : HostMove → State → Host.Outcome State Fault Refusal
  | .request r outAliases, s => submit r outAliases s
  | .reset, s => .next (resetBlock s)
  | .readField f, s => readField f s
  | .takeResult, s => takeResult s

/-- A move can land now. Inside a request only a reset can (70_reset_and_hazards.md R232): seen by the host, a request is one
atomic step from its operands to its result (00_scope.md R3, 70_reset_and_hazards.md R238), so a further request (10_state.md
R25; log entry 10), a read of the record and a taking of it wait until the block is idle. -/
def HostMove.canLand (s : State) : HostMove → Bool
  | .request _ _ => decide (s.activity = .idle)
  | .reset => true
  | .readField _ => decide (s.activity = .idle)
  | .takeResult => decide (s.activity = .idle)

/-- The move that lands in this step, if any: the first of the queue, when its time has come. -/
def State.dueMove (s : State) : Option HostMove :=
  match s.moves with
  | ⟨0, m⟩ :: _ => if m.canLand s then some m else none
  | _ => none

/-- The state without the first of the coming moves. -/
def State.popMove (s : State) : State := { s with moves := s.moves.tail }

/-- One step of the block brings the first of the coming moves one step nearer; a move whose time has come waits. -/
def State.tick (s : State) : State :=
  match s.moves with
  | ⟨k + 1, m⟩ :: rest => { s with moves := ⟨k, m⟩ :: rest }
  | _ => s

/-- Put off a move that is due, by one step (for `State.withFetchWord`). -/
def State.holdMove (s : State) : State :=
  match s.moves with
  | ⟨0, m⟩ :: rest => { s with moves := ⟨1, m⟩ :: rest }
  | _ => s

end Sys2Proof.Machine
end

