-- ==== Sys2Proof/Machine/Step.lean ====
section
/-! DEFINITION. One step of the machine: a move of the host that is due lands; else the block goes on with what it does (log
entries 1 and 10). A request takes several steps, so that its registers and a reset inside it can be seen; no other move of
the host lands inside it, so that the host sees it as one atomic step (00_scope.md R3). -/

namespace Sys2Proof.Machine

/-- The block's own step: nothing when idle (log entry 19); a candidate of a FIND; a turn of an ENCODE; for a DECODE, fetch
and run the next instruction, take the exception its fetch raises, or complete the request. -/
def blockStep (s : State) : Host.Outcome State Fault Refusal :=
  match s.activity with
  | .idle => .next s
  | .finding f => .next (stepFind f s)
  | .encoding e => .next (stepEncode e s)
  | .decoding d =>
    match nextInstr s.cfg d with
    | .run i => exec i s
    | .trap e => .next (raise e s)
    | .complete => .next (finish d.okResult s)

/-- One step. -/
def step (s : State) : Host.Outcome State Fault Refusal :=
  match s.dueMove with
  | some m => hostMove m s.popMove
  | none => blockStep s.tick

/-- `s` with a table word placed where `step` fetches its next instruction (log entries 14 and 15): a DECODE request runs, the
Decoder stands in the word's context, and the word's bytes lie in `CIN` at `IPOS`. -/
def State.withFetchWord (s : State) (nbits w : Nat) : State :=
  match tableContext nbits w with
  | none => s
  | some ctx => (s.setActivity (.decoding (s.decoderOrStart.placed ctx (tableBytes nbits w)))).holdMove

end Sys2Proof.Machine
end

