-- ==== Sys2Proof/Machine/Assembler.lean ====
section
/-! DEFINITION. The stream assembler of 30_encoding.md R86 to R88. It is the spec's notation for streams, outside the block:
no step of the machine uses it. -/

namespace Sys2Proof.Machine

/-- A line of the notation (30_encoding.md R86). -/
inductive AsmLine where
  /-- `.lz10 N`, `.lz11 N` -/
  | header (mode : Mode) (n : Nat)
  /-- `lit 0xBB` -/
  | lit (b : Byte)
  /-- `match d, l` -/
  | backRef (d l : Nat)
  /-- `.pad` -/
  | pad
  /-- `.byte 0xBB, ...` -/
  | bytes (bs : Bytes)
deriving DecidableEq, Repr

/-- Why a line is refused (30_encoding.md R86, R88). -/
inductive AsmError where
  /-- the size of a header is over `MAX_SIZE` -/
  | badSize (n : Nat)
  /-- a match before any header: no mode selects its form (log entry 16) -/
  | noMode
  /-- a displacement outside `1..4096` -/
  | badDisp (d : Nat)
  /-- a length the mode cannot express -/
  | badLen (l : Nat)
deriving DecidableEq, Repr

/-- The assembler's own state: the mode of the last header, and the group being packed. -/
structure AsmState where
  mode : Option Mode
  pk : Packer
deriving DecidableEq, Repr

/-- Assemble one line. The assembler inserts the control bytes itself (30_encoding.md R87): a `.byte` line ends the current
group, and so do `.pad` and a header line (log entry 16). -/
def asmLine (c : Config) (a : AsmState) : AsmLine → Except AsmError AsmState
  | .header mode n =>
    if maxSize < n then .error (.badSize n)
    else .ok { mode := some mode, pk := a.pk.flushPartial.write (writeHeader c mode n) }
  | .lit b => .ok { a with pk := a.pk.addUnit false [b] }
  | .backRef d l =>
    match a.mode with
    | none => .error .noMode
    | some mode =>
      if d < 1 ∨ window < d then .error (.badDisp d)
      else if l < minMatch ∨ maxLen mode < l then .error (.badLen l)
      else .ok { a with pk := a.pk.addUnit true (encodeMatch c mode { disp := d, len := l }) }
  | .pad => .ok { a with pk := a.pk.flushPartial.pad }
  | .bytes bs => .ok { a with pk := a.pk.flushPartial.write bs }

/-- Assemble the lines one after another. -/
def asmLines (c : Config) : AsmState → List AsmLine → Except AsmError AsmState
  | a, [] => .ok a
  | a, line :: rest =>
    match asmLine c a line with
    | .error e => .error e
    | .ok a' => asmLines c a' rest

/-- Assemble a stream (30_encoding.md R86 to R88). -/
def assemble (c : Config) (lines : List AsmLine) : Except AsmError Bytes :=
  match asmLines c { mode := none, pk := Packer.start [] } lines with
  | .error e => .error e
  | .ok a => .ok a.pk.flushPartial.out

end Sys2Proof.Machine
end

