-- ==== Sys2Proof/Safety.lean ====
section
/-! DEFINITION. What counts as a safe state and a safe run, in the terms the claims use: the invariants the spec gives the
registers (10_state.md R26 to R28, 42_decoder.md R170), and reaching a state by steps of the machine. -/

namespace Sys2Proof.Machine

/-- The Decoder's registers are in the ranges of 10_state.md R27, `|OUT| = PRODUCED`, and each warning has its cause:
`WARN_LEN` only once the output is complete (42_decoder.md R162), `WARN_VRAM` only under `VRAM_SAFE` (R164). The flags not yet
consumed are in the high bits of `DFLAGS` (10_state.md R32). Until the header is read every register has its initial
value. -/
structure DecRegs.Inv (d : DecRegs) : Prop where
  ipos_le : d.ipos ≤ d.cin.length
  ipos_header : d.ipos = 0 ∨ 4 ≤ d.ipos
  start_of_ipos : d.ipos = 0 → d = DecRegs.start d.cin d.vramSafe
  out_length : d.out.length = d.produced
  produced_le : d.produced ≤ d.dn
  dn_le : d.dn ≤ maxSize
  dfcnt_le : d.dfcnt ≤ 8
  dflags_low : d.dflags.toNat % 2 ^ (8 - d.dfcnt) = 0
  warnLen_complete : d.warnLen = true → d.produced = d.dn
  warnVram_safe : d.warnVram = true → d.vramSafe = true

/-- The Encoder's registers are in the ranges of 10_state.md R26 between two units: fewer than 8 units wait, the flag bits of
the missing ones are 0 (41_encoder.md R140), and once anything is written the source is of legal size (R121) and `OUT` begins
with its header (R122). -/
structure EncRegs.Inv (c : Config) (e : EncRegs) : Prop where
  ep_le : e.ep ≤ e.src.length
  eucnt_lt : e.pk.eucnt < group
  eunits_le : e.pk.eunits.length ≤ 4 * e.pk.eucnt
  ectrl_low : e.pk.ectrl.toNat % 2 ^ (8 - e.pk.eucnt) = 0
  start_of_out : e.pk.out = [] → e = EncRegs.start e.src e.mode e.vramSafe
  size_le : e.pk.out ≠ [] → e.src.length ≤ maxSize
  header_written : e.pk.out ≠ [] → e.pk.out.take 4 = Machine.writeHeader c e.mode e.src.length

/-- The Finder's registers are in the ranges of 10_state.md R28: `FD` is a candidate, and the best so far is a candidate before
it, of its own match length, not yet the cap. Operands out of range are noticed before any register changes
(60_exceptions.md R212). -/
structure FindRegs.Inv (f : FindRegs) : Prop where
  fd_pos : 1 ≤ f.fd
  fd_le : ValidFind f.src f.p f.lprobe f.dmax → f.fd ≤ min f.dmax f.p
  best_before : f.fbestD < f.fd
  best_below_cap : ValidFind f.src f.p f.lprobe f.dmax → f.fbestL < findCap f.src f.p f.lprobe
  best_none : f.fbestD = 0 ↔ f.fbestL = 0
  best_len : 0 < f.fbestD → f.fbestL = matchLen f.src (findCap f.src f.p f.lprobe) (f.p - f.fbestD) f.p
  best_allowed : excluded f.vramSafe f.fbestD = false
  start_of_invalid : ¬ ValidFind f.src f.p f.lprobe f.dmax → f = FindRegs.start f.src f.p f.lprobe f.dmax f.vramSafe

/-- What a result record can hold (10_state.md R24, 60_exceptions.md R200): a found match is in the window; an ENCODE output is
padded; a DECODE output is no longer than the format can declare; an error's info shows its cause. -/
def Result.Inv (c : Config) : Result → Prop
  | .find none => True
  | .find (some m) => 1 ≤ m.disp ∧ m.disp ≤ window ∧ 1 ≤ m.len
  | .encode out => out.length % padAlign = 0
  | .decode out _ _ => out.length ≤ maxSize
  | .error (.inputTooLarge n) => maxSize < n
  | .error (.badHeader t) => t ≠ c.tagLz10 ∧ t ≠ c.tagLz11
  | .error (.outOfRangeBackReference _ d produced) => produced < d ∧ d ≤ window
  | .error (.truncatedInput _) => True
  | .error (.invalidRequest p l d n) => ¬ (0 < p ∧ p < n ∧ 1 ≤ l ∧ 1 ≤ d ∧ d ≤ window)

/-- The registers of the running request meet their invariant. -/
def Activity.Inv (c : Config) : Activity → Prop
  | .idle => True
  | .finding f => f.Inv
  | .encoding e => e.Inv c
  | .decoding d => d.Inv

/-- The invariant of the machine. -/
structure State.Inv (s : State) : Prop where
  activity : s.activity.Inv s.cfg
  result : ∀ r, s.result = some r → r.Inv s.cfg

/-- `k` steps of the machine, stopping at the first fault or refusal (the host's `Core.run` on this machine: Laws/Run.lean). -/
def runSteps : Nat → State → Host.Outcome State Fault Refusal
  | 0, s => .next s
  | k + 1, s =>
    match step s with
    | .next s' => runSteps k s'
    | .fault r => .fault r
    | .refused r => .refused r

/-- Some number of steps leads from `s` to `t`, none of them stopping. -/
def RunsTo (s t : State) : Prop := ∃ k, runSteps k s = .next t

/-- The coming moves `k` steps of the block nearer: only the first one's time runs, and not past 0. -/
def nearer (k : Nat) : List Pending → List Pending
  | [] => []
  | p :: rest => { p with after := p.after - k } :: rest

/-- The state with the coming moves `k` steps nearer, which is all that `k` steps of the block do to the host's side. -/
def State.nearer (k : Nat) (s : State) : State := { s with moves := Machine.nearer k s.moves }

/-- No reset of the host lands within the next `k` steps of the block. (No other move can land inside a request.) -/
abbrev NoResetWithin (k : Nat) (moves : List Pending) : Prop := ∀ j rest, moves = ⟨j, .reset⟩ :: rest → k ≤ j

/-- The block is idle and the host has nothing queued. -/
abbrev State.Quiet (s : State) : Prop := s.activity = .idle ∧ s.moves = []

/-- The displacements a FIND may answer (40_match_finder.md R101, R104). -/
abbrev IsCandidate (p dmax : Nat) (vramSafe : Bool) (d : Nat) : Prop :=
  1 ≤ d ∧ d ≤ min dmax p ∧ ¬ (vramSafe = true ∧ d = 1)

/-- The Decoder stands before a unit with a flag left: the header is read, output is owed, and `DFCNT` is not 0
(42_decoder.md R154 to R156). -/
abbrev DecRegs.AtUnit (d : DecRegs) (flag : Bool) : Prop :=
  d.ipos ≠ 0 ∧ d.produced < d.dn ∧ d.dfcnt ≠ 0 ∧ d.dflags.getLsbD 7 = flag

/-- What a match unit of `size` bytes, displacement `disp` and length `len` leaves of the registers (42_decoder.md R156, R162,
R164, R165): `copied` are the bytes it appends, each equal to the byte `disp` before it. -/
structure DecRegs.MatchDone (d : DecRegs) (size disp len : Nat) (copied : Bytes) (d' : DecRegs) : Prop where
  registers : d' =
    { d with
      ipos := d.ipos + size, dflags := d.dflags <<< 1, dfcnt := d.dfcnt - 1,
      produced := d.produced + copied.length, out := d.out ++ copied,
      warnLen := d.warnLen || decide (d.produced + len > d.dn),
      warnVram := d.warnVram || (d.vramSafe && decide (disp = 1)) }
  length : copied.length = min len (d.dn - d.produced)
  bytes : ∀ j, j < copied.length →
    (d.out ++ copied)[d.produced + j]? = (d.out ++ copied)[d.produced + j - disp]?

end Sys2Proof.Machine
end

