-- ==== Sys2Proof/Certificates/Slice0/Obligations.lean ====
section
/-! DEFINITION. The statements for the provers: one `def Obligations.<Name> : Prop` each, named for what it says. -/

open Sys2Proof Sys2Proof.Machine

/-! ### Encoding -/

/-- Decoding an encoded instruction, in its context, gives it back with the bytes after it, for every operand value
(30_encoding.md R71 to R80; the tags distinct, 00_scope.md R12). -/
def Obligations.DecodeOfEncode : Prop :=
  ∀ (c : Config) (i : Instr) (rest : Bytes), c.WF → i.WF →
    decodeIn c i.context (encode c i ++ rest) = .instr i rest

/-- What decodes is well formed, stands in its context, and is the encoding of what it decodes to: each word has one meaning
in a context (30_encoding.md R74, R83). -/
def Obligations.EncodeOfDecode : Prop :=
  ∀ (c : Config) (ctx : Context) (bs : Bytes) (i : Instr) (rest : Bytes), decodeIn c ctx bs = .instr i rest →
    i.WF ∧ i.context = ctx ∧ encode c i ++ rest = bs ∧ (encode c i).length = i.size

/-- Of four bytes or more, only a header whose tag is neither known tag is no instruction (30_encoding.md R83). -/
def Obligations.OnlyAnUnknownTagIsIllegal : Prop :=
  ∀ (c : Config) (ctx : Context) (b : Byte) (more : Bytes), 3 ≤ more.length →
    (∃ i rest, decodeIn c ctx (b :: more) = .instr i rest ∧ ¬ (ctx = .header ∧ b ≠ c.tagLz10 ∧ b ≠ c.tagLz11)) ∨
      (decodeIn c ctx (b :: more) = .badTag b ∧ ctx = .header ∧ b ≠ c.tagLz10 ∧ b ≠ c.tagLz11)

/-- Every displacement and length has exactly one encoding in each mode that can express the length, and in LZ11 the length
selects the form (30_encoding.md R81). -/
def Obligations.EveryMatchHasOneForm : Prop :=
  ∀ d l : Nat, 1 ≤ d → d ≤ 4096 → 3 ≤ l →
    (l ≤ 18 → ∃! i : Instr, i.WF ∧ i.context = .backRef .lz10 ∧ matchOperands i = some { disp := d, len := l }) ∧
    (l ≤ 65808 → ∃! i : Instr, i.WF ∧ i.context = .backRef .lz11 ∧ matchOperands i = some { disp := d, len := l }) ∧
    (∀ i : Instr, i.WF → i.context = .backRef .lz11 → matchOperands i = some { disp := d, len := l } →
      l ≤ 65808 ∧ ((∃ t f, i = .match11_2 t f) ↔ l ≤ 16) ∧ ((∃ x f, i = .match11_3 x f) ↔ 17 ≤ l ∧ l ≤ 272) ∧
        ((∃ x f, i = .match11_4 x f) ↔ 273 ≤ l))

/-- The bytes the Encoder writes for a match are those of the formulas of 41_encoder.md R135 to R138. -/
def Obligations.MatchBytesAreTheFormulas : Prop :=
  ∀ (c : Config) (d l : Nat), 1 ≤ d → d ≤ 4096 →
    (3 ≤ l → l ≤ 18 → encodeMatch c .lz10 { disp := d, len := l } =
      [BitVec.ofNat 8 (((l - 3) <<< 4) ||| ((d - 1) >>> 8)), BitVec.ofNat 8 ((d - 1) &&& 0xFF)]) ∧
    (3 ≤ l → l ≤ 16 → encodeMatch c .lz11 { disp := d, len := l } =
      [BitVec.ofNat 8 (((l - 1) <<< 4) ||| ((d - 1) >>> 8)), BitVec.ofNat 8 ((d - 1) &&& 0xFF)]) ∧
    (17 ≤ l → l ≤ 272 → encodeMatch c .lz11 { disp := d, len := l } =
      [BitVec.ofNat 8 ((l - 0x11) >>> 4), BitVec.ofNat 8 ((((l - 0x11) &&& 0xF) <<< 4) ||| ((d - 1) >>> 8)),
        BitVec.ofNat 8 ((d - 1) &&& 0xFF)]) ∧
    (273 ≤ l → l ≤ 65808 → encodeMatch c .lz11 { disp := d, len := l } =
      [BitVec.ofNat 8 (0x10 ||| ((l - 0x111) >>> 12)), BitVec.ofNat 8 (((l - 0x111) >>> 4) &&& 0xFF),
        BitVec.ofNat 8 ((((l - 0x111) &&& 0xF) <<< 4) ||| ((d - 1) >>> 8)), BitVec.ofNat 8 ((d - 1) &&& 0xFF)])

/-- `ReadHeader(WriteHeader(MODE, n)) = (MODE, n)` (43_header_codec.md R182), whatever follows the header. -/
def Obligations.HeaderRoundTrip : Prop :=
  ∀ (c : Config) (mode : Mode) (n : Nat) (rest : Bytes), c.WF → n ≤ maxSize →
    readHeader c (writeHeader c mode n ++ rest) = .ok (mode, n)

/-- Words written out from the layouts of 30_encoding.md and the examples of 42_decoder.md and 43_header_codec.md decode to
what they stand for. A sanity statement, at the default tags (log entry 2). -/
def Obligations.SpecWordsDecode : Prop :=
  decodeIn Config.defaults .header [0x11, 0x2C, 0x01, 0x00] = .instr (.hdrLz11 300) [] ∧
  decodeIn Config.defaults .header [0x10, 0x14, 0x00, 0x00] = .instr (.hdrLz10 20) [] ∧
  decodeIn Config.defaults .control [0x40] = .instr (.ctrl 0x40) [] ∧
  decodeIn Config.defaults .literal [0x41] = .instr (.lit 0x41) [] ∧
  decodeIn Config.defaults (.backRef .lz10) [0x60, 0x02] = .instr (.match10 6 2) [] ∧
  decodeIn Config.defaults (.backRef .lz11) [0xF1, 0x23] = .instr (.match11_2 0xF 0x123) [] ∧
  decodeIn Config.defaults (.backRef .lz11) [0x0A, 0xB1, 0x23] = .instr (.match11_3 0xAB 0x123) [] ∧
  decodeIn Config.defaults (.backRef .lz11) [0x1A, 0xBC, 0xD1, 0x23] = .instr (.match11_4 0xABCD 0x123) []

/-! ### Fetching and stepping -/

/-- When no move of the host is due and the bytes at `IPOS` decode in the Decoder's context, a step is `exec` of that
instruction; what the step adds is that a coming host move comes one step nearer (`tick`), which no register sees. -/
def Obligations.StepRunsTheDecodedInstruction : Prop :=
  ∀ (s : State) (d : DecRegs) (ctx : Context) (i : Instr) (rest : Bytes), s.dueMove = none →
    s.activity = .decoding d → d.context = some ctx → decodeIn s.cfg ctx (d.cin.drop d.ipos) = .instr i rest →
    step s = exec i s.tick

/-- The first step of a DECODE reads the header: too short, unknown tag, or mode, size and the registers of the start of the
unit loop (42_decoder.md R151 to R153). -/
def Obligations.HeaderStep : Prop :=
  ∀ (s : State) (d : DecRegs), s.dueMove = none → s.activity = .decoding d → d.ipos = 0 →
    (d.cin.length < 4 → step s = .next (raise (.truncatedInput d.cin.length) s.tick)) ∧
    ∀ t b1 b2 b3 rest, d.cin = t :: b1 :: b2 :: b3 :: rest →
      (t ≠ s.cfg.tagLz10 → t ≠ s.cfg.tagLz11 → step s = .next (raise (.badHeader t) s.tick)) ∧
      (t = s.cfg.tagLz10 ∨ t = s.cfg.tagLz11 → step s = .next (s.tick.setActivity (.decoding
        { d with
          ipos := 4, dmode := if t = s.cfg.tagLz10 then .lz10 else .lz11,
          dn := b1.toNat ||| (b2.toNat <<< 8) ||| (b3.toNat <<< 16), produced := 0, out := [], dflags := 0, dfcnt := 0,
          warnLen := false, warnVram := false })))

/-- After the header, a missing control byte, literal or match byte raises `TruncatedInput` with the index of the first missing
byte (42_decoder.md R166, 60_exceptions.md R204). The length of an LZ11 match is that of 30_encoding.md R74. -/
def Obligations.MissingByteRaisesTruncatedInput : Prop :=
  ∀ (s : State) (d : DecRegs), s.dueMove = none → s.activity = .decoding d → d.ipos ≠ 0 → d.produced < d.dn →
    d.ipos ≤ d.cin.length →
    (d.dfcnt = 0 ∨ d.dflags.getLsbD 7 = false ∨ d.dmode = .lz11 → d.ipos = d.cin.length →
      step s = .next (raise (.truncatedInput d.ipos) s.tick)) ∧
    (d.AtUnit true → d.dmode = .lz10 → d.cin.length < d.ipos + 2 →
      step s = .next (raise (.truncatedInput d.cin.length) s.tick)) ∧
    (∀ b0, d.AtUnit true → d.dmode = .lz11 → d.cin[d.ipos]? = some b0 →
      d.cin.length < d.ipos + (if b0.toNat / 16 = 0 then 3 else if b0.toNat / 16 = 1 then 4 else 2) →
      step s = .next (raise (.truncatedInput d.cin.length) s.tick))

/-- Once `PRODUCED = DN` the request is complete, even in the middle of a group and whatever bytes follow (42_decoder.md R167,
R168). -/
def Obligations.DecodeCompletesAtDeclaredSize : Prop :=
  ∀ (s : State) (d : DecRegs), s.dueMove = none → s.activity = .decoding d → d.ipos ≠ 0 → d.produced = d.dn →
    step s = .next (finish (.decode d.out d.warnLen d.warnVram) s.tick)

/-- A table word placed by `withFetchWord` is what the next step runs. The reading of a bare word is the model's choice (log
entries 14, 15). -/
def Obligations.PlacedWordIsRun : Prop :=
  ∀ (s : State) (nbits w : Nat) (i : Instr), s.cfg = Config.defaults → decodeTableWord nbits w = some i →
    step (s.withFetchWord nbits w) = exec i (s.withFetchWord nbits w).tick

/-! ### What the instructions do -/

/-- `HDR_LZ10` and `HDR_LZ11` at the start of the stream set the mode, the declared size, `IPOS = 4` and the registers of
42_decoder.md R153; nothing else changes. -/
def Obligations.HeadersComplete : Prop :=
  ∀ (s : State) (d : DecRegs) (size : BitVec 24), s.activity = .decoding d → d.ipos = 0 →
    exec (.hdrLz10 size) s = .next (s.setActivity (.decoding
      { d with
        ipos := 4, dmode := .lz10, dn := size.toNat, produced := 0, out := [], dflags := 0x00, dfcnt := 0,
        warnLen := false, warnVram := false })) ∧
    exec (.hdrLz11 size) s = .next (s.setActivity (.decoding
      { d with
        ipos := 4, dmode := .lz11, dn := size.toNat, produced := 0, out := [], dflags := 0x00, dfcnt := 0,
        warnLen := false, warnVram := false }))

/-- `CTRL`, when a unit is needed and no flag is left, loads all 8 flags (42_decoder.md R155). -/
def Obligations.ControlByteCompletes : Prop :=
  ∀ (s : State) (d : DecRegs) (flags : Byte), s.activity = .decoding d → d.ipos ≠ 0 → d.produced < d.dn → d.dfcnt = 0 →
    exec (.ctrl flags) s =
      .next { s with activity := .decoding { d with ipos := d.ipos + 1, dflags := flags, dfcnt := 8 } }

/-- `LIT`, at a unit whose flag `DFLAGS[7]` is 0, consumes the flag, appends its byte and counts it (42_decoder.md R156,
R157). -/
def Obligations.LiteralCompletes : Prop :=
  ∀ (s : State) (d : DecRegs) (b : Byte), s.activity = .decoding d → d.AtUnit false →
    exec (.lit b) s = .next (s.setActivity (.decoding
      { d with
        ipos := d.ipos + 1, dflags := d.dflags <<< 1, dfcnt := d.dfcnt - 1, out := d.out ++ [b],
        produced := d.produced + 1 }))

/-- `MATCH10`, at a unit whose flag is 1 in LZ10, with a displacement no larger than `PRODUCED`, copies (42_decoder.md R158,
R162, R164, R165). -/
def Obligations.Match10Completes : Prop :=
  ∀ (s : State) (d : DecRegs) (l : BitVec 4) (f : BitVec 12), s.activity = .decoding d → d.AtUnit true → d.dmode = .lz10 →
    d.out.length = d.produced → f.toNat + 1 ≤ d.produced →
    ∃ copied d', exec (.match10 l f) s = .next { s with activity := .decoding d' } ∧
      d.MatchDone 2 (f.toNat + 1) (l.toNat + 3) copied d'

/-- `MATCH11_2`, `MATCH11_3` and `MATCH11_4`, at a unit whose flag is 1 in LZ11, with a displacement no larger than `PRODUCED`,
copy (42_decoder.md R159 to R161, R162, R164, R165). -/
def Obligations.Match11Completes : Prop :=
  ∀ (s : State) (d : DecRegs) (f : BitVec 12), s.activity = .decoding d → d.AtUnit true → d.dmode = .lz11 →
    d.out.length = d.produced → f.toNat + 1 ≤ d.produced →
    (∀ t : BitVec 4, 2 ≤ t.toNat → ∃ copied d', exec (.match11_2 t f) s = .next { s with activity := .decoding d' } ∧
      d.MatchDone 2 (f.toNat + 1) (t.toNat + 1) copied d') ∧
    (∀ l : BitVec 8, ∃ copied d', exec (.match11_3 l f) s = .next { s with activity := .decoding d' } ∧
      d.MatchDone 3 (f.toNat + 1) (l.toNat + 0x11) copied d') ∧
    (∀ l : BitVec 16, ∃ copied d', exec (.match11_4 l f) s = .next { s with activity := .decoding d' } ∧
      d.MatchDone 4 (f.toNat + 1) (l.toNat + 0x111) copied d')

/-- A match of any form whose displacement exceeds `PRODUCED` raises `OutOfRangeBackReference` with the `CIN` index of its
first byte, its displacement and `PRODUCED` (42_decoder.md R163, 60_exceptions.md R203). -/
def Obligations.OutOfRangeMatchRaises : Prop :=
  ∀ (s : State) (d : DecRegs) (i : Instr) (m : Found), s.activity = .decoding d → d.AtUnit true →
    i.context = .backRef d.dmode → matchOperands i = some m → d.produced < m.disp →
    exec i s = .next (raise (.outOfRangeBackReference d.ipos m.disp d.produced) s)

/-- An overlapping copy repeats the last `disp` bytes: byte `j` of the copy is byte `j mod disp` of the bytes the displacement
points at (42_decoder.md R165, 70_reset_and_hazards.md R234). -/
def Obligations.OverlappingCopyRepeats : Prop :=
  ∀ (disp n : Nat) (d : DecRegs), 1 ≤ disp → disp ≤ d.produced → d.out.length = d.produced →
    ∃ d', copyBytes disp n d = .ok d' ∧ d'.produced = d.produced + n ∧ d'.out.length = d.produced + n ∧
      (∀ a, a < d.produced → readByte d'.out a = readByte d.out a) ∧
      ∀ j, j < n → readByte d'.out (d.produced + j) = readByte d.out (d.produced - disp + j % disp)

/-! ### Frames -/

/-- The frame of the headers and of `CTRL`: nothing outside the running request changes, no operand of it does, every byte of
`CIN` reads as before; `CTRL` leaves the mode, the size, the warnings, `PRODUCED` and every byte of `OUT` alone. (A header
stands where `OUT` is empty, and leaves it empty.) -/
def Obligations.HeaderAndControlFrame : Prop :=
  ∀ (s t : State) (d : DecRegs) (i : Instr), i.context = .header ∨ i.context = .control →
    s.activity = .decoding d → exec i s = .next t →
    t.cfg = s.cfg ∧ t.result = s.result ∧ t.moves = s.moves ∧ t.received = s.received ∧ t.reads = s.reads ∧
    (∀ a, t.memRead .cin a = s.memRead .cin a) ∧
    ∃ d', t.activity = .decoding d' ∧ d'.cin = d.cin ∧ d'.vramSafe = d.vramSafe ∧
      (i.context = .control → d'.dmode = d.dmode ∧ d'.dn = d.dn ∧ d'.produced = d.produced ∧
        d'.warnLen = d.warnLen ∧ d'.warnVram = d.warnVram ∧ ∀ a, t.memRead .out a = s.memRead .out a) ∧
      (i.context = .header → d.Inv → ∀ a, t.memRead .out a = s.memRead .out a)

/-- The frame of `LIT`: only `IPOS`, `DFLAGS`, `DFCNT`, `PRODUCED` and the one byte of `OUT` at index `|OUT|` may change. -/
def Obligations.LiteralFrame : Prop :=
  ∀ (s t : State) (d : DecRegs) (b : Byte), s.activity = .decoding d → exec (.lit b) s = .next t →
    t.cfg = s.cfg ∧ t.result = s.result ∧ t.moves = s.moves ∧ t.received = s.received ∧ t.reads = s.reads ∧
    (∀ a, t.memRead .cin a = s.memRead .cin a) ∧
    (∀ a, a ≠ d.out.length → t.memRead .out a = s.memRead .out a) ∧
    ∃ d', t.activity = .decoding d' ∧ d'.cin = d.cin ∧ d'.vramSafe = d.vramSafe ∧ d'.dmode = d.dmode ∧ d'.dn = d.dn ∧
      d'.warnLen = d.warnLen ∧ d'.warnVram = d.warnVram

/-- The frame of the four matches, when they go on: only `IPOS`, `DFLAGS`, `DFCNT`, `PRODUCED`, the warnings and the bytes of
`OUT` from `|OUT|` on, as many as the truncated length, may change. (A match that raises discards every register:
`FatalErrorEndsTheRequest`.) -/
def Obligations.MatchFrame : Prop :=
  ∀ (s t : State) (d d' : DecRegs) (i : Instr) (m : Found), matchOperands i = some m → s.activity = .decoding d →
    exec i s = .next t → t.activity = .decoding d' →
    t.cfg = s.cfg ∧ t.result = s.result ∧ t.moves = s.moves ∧ t.received = s.received ∧ t.reads = s.reads ∧
    (∀ a, t.memRead .cin a = s.memRead .cin a) ∧
    (∀ a, a < d.out.length ∨ d.out.length + d.truncated m.len ≤ a → t.memRead .out a = s.memRead .out a) ∧
    d'.cin = d.cin ∧ d'.vramSafe = d.vramSafe ∧ d'.dmode = d.dmode ∧ d'.dn = d.dn

/-! ### Exceptions and warnings -/

/-- A fatal error leaves the block idle with an ERROR record of its code and info; the record has no other field, no register
and no space of the request is left, and what the host holds is unchanged (60_exceptions.md R208 to R210, 10_state.md
R24). -/
def Obligations.FatalErrorEndsTheRequest : Prop :=
  ∀ (e : Err) (s : State),
    (raise e s).activity = .idle ∧ (raise e s).result = some (.error e) ∧ (raise e s).cfg = s.cfg ∧
    (raise e s).moves = s.moves ∧ (raise e s).received = s.received ∧ (raise e s).reads = s.reads ∧
    (∀ sp a, (raise e s).memRead sp a = none) ∧
    (Result.error e).field .status = some (.status false) ∧ (Result.error e).field .err = some (.number e.code) ∧
    (Result.error e).field .errInfo = some (.info e) ∧
    ∀ f, f ≠ .status → f ≠ .err → f ≠ .errInfo → (Result.error e).field f = none

/-- A request raises only the errors of its row in 60_exceptions.md R200: FIND only `InvalidRequest`, ENCODE only
`InputTooLarge` (R212), DECODE only the other three. -/
def Obligations.ErrorsOfEachRequest : Prop :=
  ∀ (s t : State) (e : Err), s.dueMove = none → s.activity ≠ .idle → step s = .next t → t.activity = .idle →
    t.result = some (.error e) →
    ((∃ f, s.activity = .finding f) → ∃ p l d n, e = .invalidRequest p l d n) ∧
    ((∃ f, s.activity = .encoding f) → ∃ n, e = .inputTooLarge n) ∧
    ((∃ f, s.activity = .decoding f) →
      (∃ b, e = .badHeader b) ∨ (∃ u d p, e = .outOfRangeBackReference u d p) ∨ ∃ p, e = .truncatedInput p)

/-- The numeric codes and the recorded info of the five fatal errors (60_exceptions.md R200 to R205), as the host reads them
from the record. -/
def Obligations.ErrorCodes : Prop :=
  ∀ n u d p l : Nat, ∀ t : Byte,
    (Result.error (.inputTooLarge n)).field .err = some (.number 1) ∧
    (Result.error (.badHeader t)).field .err = some (.number 2) ∧
    (Result.error (.outOfRangeBackReference u d p)).field .err = some (.number 3) ∧
    (Result.error (.truncatedInput p)).field .err = some (.number 4) ∧
    (Result.error (.invalidRequest p l d n)).field .err = some (.number 5)

/-- An instruction executed where the Decoder does not stand in its context faults; the model's own stop (log entry 7), which no
step of the machine comes to (`BlockNeverStops`). -/
def Obligations.OutOfContextFaults : Prop :=
  ∀ (i : Instr) (s : State), (∀ d, s.activity = .decoding d → d.context ≠ some i.context) →
    exec i s = .fault .outOfContext

/-- Whatever the data, the block itself never stops the machine: from every state of the invariant, a step with no move of the
host due answers a next state (an exception is one too: 60_exceptions.md R208). -/
def Obligations.BlockNeverStops : Prop :=
  ∀ s : State, s.Inv → s.dueMove = none → ∃ t, step s = .next t

/-- The warnings are sticky: no step of a running DECODE past its header clears one (10_state.md R33). -/
def Obligations.WarningsAreSticky : Prop :=
  ∀ (s t : State) (d d' : DecRegs), s.dueMove = none → s.activity = .decoding d → d.ipos ≠ 0 → step s = .next t →
    t.activity = .decoding d' →
    (d.warnLen = true → d'.warnLen = true) ∧ (d.warnVram = true → d'.warnVram = true)

/-! ### Invariants and whole-machine rules -/

/-- The machine after reset meets the invariant, and is idle with no register and an empty record (70_reset_and_hazards.md
R230). -/
def Obligations.ResetMeetsTheInvariant : Prop :=
  State.reset.Inv ∧ State.reset.activity = .idle ∧ State.reset.result = none

/-- Every step keeps the invariant of the machine: the register ranges of 10_state.md R26 to R28, `|OUT| = PRODUCED ≤ DN`, the
header at the head of the Encoder's output, the bounds of the result record. -/
def Obligations.StepKeepsTheInvariant : Prop :=
  ∀ s t : State, s.Inv → step s = .next t → t.Inv

/-- While a request goes on, no step changes its input (20_memory.md R51, R52, R64) or its other operands (00_scope.md R3). That
no step changes a parameter either is the model's choice, since they stand in State (log entry 4; 00_scope.md R12 to R14). -/
def Obligations.InputsAreStable : Prop :=
  ∀ s t : State, step s = .next t → t.cfg = s.cfg ∧ (s.activity ≠ .idle →
    (∀ d d', s.activity = .decoding d → t.activity = .decoding d' → d'.cin = d.cin ∧ d'.vramSafe = d.vramSafe) ∧
    (∀ e e', s.activity = .encoding e → t.activity = .encoding e' →
      e'.src = e.src ∧ e'.mode = e.mode ∧ e'.vramSafe = e.vramSafe) ∧
    (∀ f f', s.activity = .finding f → t.activity = .finding f' →
      f'.src = f.src ∧ f'.p = f.p ∧ f'.lprobe = f.lprobe ∧ f'.dmax = f.dmax ∧ f'.vramSafe = f.vramSafe))

/-- `OUT` is append-only: while a request goes on, a byte once written keeps its index and value (20_memory.md R53). The
invariant rules out a header read over a non-empty `OUT`, which no run reaches. -/
def Obligations.OutputIsAppendOnly : Prop :=
  ∀ s t : State, s.Inv → s.activity ≠ .idle → t.activity ≠ .idle → step s = .next t →
    ∀ a b, s.memRead .out a = some b → t.memRead .out a = some b

/-- Every step of a running DECODE that does not end it moves `IPOS` forward, and never past the end of `CIN` (10_state.md R29,
60_exceptions.md R219). -/
def Obligations.DecoderAdvances : Prop :=
  ∀ (s t : State) (d d' : DecRegs), s.Inv → s.dueMove = none → s.activity = .decoding d → step s = .next t →
    t.activity = .decoding d' → d.ipos < d'.ipos ∧ d'.ipos ≤ d.cin.length

/-- Every loop turn of the Encoder moves `EP` forward, and never past the end of `SRC` (41_encoder.md R124, 60_exceptions.md
R219). -/
def Obligations.EncoderAdvances : Prop :=
  ∀ (s : State) (e : EncRegs), s.dueMove = none → s.activity = .encoding e → e.pk.out ≠ [] → e.ep < e.src.length →
    ∃ e', step s = .next (s.tick.setActivity (.encoding e')) ∧ e.ep < e'.ep ∧ e'.ep ≤ e.src.length

/-! ### The host -/

/-- A request that is due on an idle block, and gives `OUT` no buffer that overlaps its input (a FIND has no `OUT`), starts with
the register values of 10_state.md R36, whatever was run before (70_reset_and_hazards.md R231); `DMODE` and `DN` come from the
header and their values until then are the model's (log entry 6). That a record not taken stays meanwhile is the model's
choice too (log entry 11). -/
def Obligations.RequestsStartAfresh : Prop :=
  ∀ (s : State) (r : Request) (outAliases : Bool) (later : List Pending), s.activity = .idle →
    s.moves = ⟨0, .request r outAliases⟩ :: later → (r.writesOut && outAliases) = false →
    ∃ t, step s = .next t ∧ t.moves = later ∧ t.cfg = s.cfg ∧ t.result = s.result ∧
      (∀ src p l dm v, r = .find src p l dm v → t.activity = .finding
        { src := src, p := p, lprobe := l, dmax := dm, vramSafe := v, fd := 1, fbestD := 0, fbestL := 0 }) ∧
      (∀ src m v, r = .encode src m v → t.activity = .encoding
        { src := src, mode := m, vramSafe := v, ep := 0, pk := { ectrl := 0x00, eucnt := 0, eunits := [], out := [] } }) ∧
      (∀ cin v, r = .decode cin v → ∃ d, t.activity = .decoding d ∧ d.cin = cin ∧ d.vramSafe = v ∧ d.ipos = 0 ∧
        d.produced = 0 ∧ d.out = [] ∧ d.dflags = 0x00 ∧ d.dfcnt = 0 ∧ d.warnLen = false ∧ d.warnVram = false)

/-- A reset abandons the request in progress: no result, no register, the block idle (70_reset_and_hazards.md R232). -/
def Obligations.ResetAbandonsTheRequest : Prop :=
  ∀ (s : State) (later : List Pending), s.moves = ⟨0, .reset⟩ :: later →
    step s = .next { s with activity := .idle, result := none, moves := later }

/-- Seen by the host, a request is one atomic step (00_scope.md R3, 70_reset_and_hazards.md R238): some number of steps after it
is submitted, which only the request and the parameters fix, the block is idle with the result of the request as one function
of its operands, the moves behind the request that many steps nearer and nothing else changed; unless a reset lands within
them (70_reset_and_hazards.md R232). That the atomic step is spread over several steps of the machine is the model's choice
(log entry 1). -/
def Obligations.EveryRequestIsOneTransaction : Prop :=
  ∀ (c : Config) (r : Request), ∃ k res, r.answer c = some res ∧
    ∀ (s : State) (outAliases : Bool) (later : List Pending), s.cfg = c → s.activity = .idle →
      s.moves = ⟨0, .request r outAliases⟩ :: later → (r.writesOut && outAliases) = false → NoResetWithin k later →
      runSteps (k + 1) s = .next { s with activity := .idle, result := some res, moves := nearer k later }

/-- Inside a request no move of the host lands but a reset (70_reset_and_hazards.md R232, R238): every other one waits, the step
is the block's own, and what the host holds is unchanged. That the moves are a queue is the model's choice (log entry 10). The
last clause, that a record not taken stays while the request goes on, is the model's choice too (log entry 11). -/
def Obligations.OnlyAResetLandsInsideARequest : Prop :=
  ∀ s : State, s.activity ≠ .idle → (∀ later, s.moves ≠ ⟨0, .reset⟩ :: later) →
    step s = blockStep s.tick ∧
    (∀ m later, s.moves = ⟨0, m⟩ :: later → s.tick = s) ∧
    ∀ t, step s = .next t → t.moves = s.tick.moves ∧ t.received = s.received ∧ t.reads = s.reads ∧
      (t.activity ≠ .idle → t.result = s.result)

/-- The fields of the records of a request that ended well (10_state.md R24). That a FIND which found nothing has no `FDISP` and
no `FLEN` is the model's choice (log entry 22), and so is that a field not meaningful for the record is absent (log entry
21). -/
def Obligations.FieldsOfOkRecords : Prop :=
  ∀ (m : Found) (out : Memory) (w v : Bool),
    ((Result.find (some m)).field .status = some (.status true) ∧ (Result.find (some m)).field .found = some (.bit true) ∧
      (Result.find (some m)).field .fdisp = some (.number m.disp) ∧
      (Result.find (some m)).field .flen = some (.number m.len) ∧
      ∀ f, f = .err ∨ f = .errInfo ∨ f = .out ∨ f = .warnLen ∨ f = .warnVram → (Result.find (some m)).field f = none) ∧
    ((Result.find none).field .status = some (.status true) ∧ (Result.find none).field .found = some (.bit false) ∧
      ∀ f, f ≠ .status → f ≠ .found → (Result.find none).field f = none) ∧
    ((Result.encode out).field .status = some (.status true) ∧ (Result.encode out).field .out = some (.bytes out) ∧
      ∀ f, f ≠ .status → f ≠ .out → (Result.encode out).field f = none) ∧
    ((Result.decode out w v).field .status = some (.status true) ∧
      (Result.decode out w v).field .out = some (.bytes out) ∧
      (Result.decode out w v).field .warnLen = some (.bit w) ∧
      (Result.decode out w v).field .warnVram = some (.bit v) ∧
      ∀ f, f = .err ∨ f = .errInfo ∨ f = .found ∨ f = .fdisp ∨ f = .flen → (Result.decode out w v).field f = none)

/-- Reading the result record of an idle block when it holds nothing is a fault, and taking it leaves none (10_state.md R37);
reading a field that the record does not have is a fault too (R24; the model's reading, log entry 9), and reading one it has
gives its value, which `FieldsOfOkRecords`, `FatalErrorEndsTheRequest` and `ErrorCodes` say. While a request runs these moves
wait (`OnlyAResetLandsInsideARequest`). -/
def Obligations.ResultRecordReads : Prop :=
  ∀ (s : State) (later : List Pending) (f : ResultField), s.activity = .idle →
    (∀ r, s.moves = ⟨0, .readField f⟩ :: later → s.result = some r → r.field f = none →
      step s = .fault .noSuchField) ∧
    (s.moves = ⟨0, .readField f⟩ :: later → s.result = none → step s = .fault .noResult) ∧
    (s.moves = ⟨0, .takeResult⟩ :: later → s.result = none → step s = .fault .noResult) ∧
    (∀ r, s.moves = ⟨0, .takeResult⟩ :: later → s.result = some r →
      step s = .next { s with result := none, received := s.received ++ [r], moves := later }) ∧
    (∀ r v, s.moves = ⟨0, .readField f⟩ :: later → s.result = some r → r.field f = some v →
      step s = .next { s with reads := s.reads ++ [v], moves := later })

/-- A request whose `OUT` overlaps its input is refused (20_memory.md R65). -/
def Obligations.AliasedRequestIsRefused : Prop :=
  ∀ (s : State) (r : Request) (later : List Pending), s.activity = .idle → s.moves = ⟨0, .request r true⟩ :: later →
    (∀ src m v, r = .encode src m v → step s = .refused .aliasedBuffers) ∧
    (∀ cin v, r = .decode cin v → step s = .refused .aliasedBuffers)

/-! ### FIND -/

/-- The match length of a candidate is the largest `k` within the cap for which the `k` bytes at the candidate equal those at
the cursor (40_match_finder.md R102). -/
def Obligations.MatchLengthIsTheLongest : Prop :=
  ∀ (src : Memory) (p q l : Nat), q < p → p < src.length →
    IsGreatest {k | k ≤ min l (src.length - p) ∧ ∀ i, i < k → src[q + i]? = src[p + i]?}
      (matchLen src (findCap src p l) q p)

/-- The finder answers the candidate with the greatest match length, and of those the one with the smallest displacement; it
answers "no match" exactly when no candidate has a length of 1 or more (40_match_finder.md R101, R104, R105, R107, R108). -/
def Obligations.FindAnswersTheBestCandidate : Prop :=
  ∀ (src : Memory) (p l dmax : Nat) (v : Bool), ValidFind src p l dmax →
    (∀ m, find src p l dmax v = some m →
      IsCandidate p dmax v m.disp ∧ 1 ≤ m.len ∧ matchLen src (findCap src p l) (p - m.disp) p = m.len ∧
      ∀ d, IsCandidate p dmax v d → matchLen src (findCap src p l) (p - d) p ≤ m.len ∧
        (matchLen src (findCap src p l) (p - d) p = m.len → m.disp ≤ d)) ∧
    (find src p l dmax v = none ↔ ∀ d, IsCandidate p dmax v d → matchLen src (findCap src p l) (p - d) p = 0)

/-- A FIND request with operands out of range raises `InvalidRequest` in its first step, recording them (60_exceptions.md R205,
40_match_finder.md R100). -/
def Obligations.InvalidFindRaises : Prop :=
  ∀ (s : State) (src : Memory) (p l dmax : Nat) (v : Bool), s.Quiet →
    (p = 0 ∨ src.length ≤ p ∨ l = 0 ∨ dmax = 0 ∨ 4096 < dmax) →
    step (startRequest (.find src p l dmax v) s) = .next (raise (.invalidRequest p l dmax src.length) s)

/-- The steps of a FIND request, their number fixed by the request, lead to the result of the finder as one atomic step, whatever
the host has queued, unless a reset lands within them (00_scope.md R3, 40_match_finder.md R109; log entries 1, 10). -/
def Obligations.FindRunsToItsResult : Prop :=
  ∀ (src : Memory) (p l dmax : Nat) (v : Bool), ∃ k, ∀ s : State, NoResetWithin k s.moves →
    runSteps k (startRequest (.find src p l dmax v) s) = .next (finish (findRequest src p l dmax v) (s.nearer k))

/-! ### ENCODE -/

/-- A source over `MAX_SIZE` is rejected in the first step, with nothing written (41_encoder.md R121, 60_exceptions.md R201);
any other source's header is the first write of `OUT` (R122). -/
def Obligations.EncodeFirstStep : Prop :=
  ∀ (s : State) (src : Memory) (mode : Mode) (v : Bool), s.Quiet →
    (0x00FFFFFF < src.length →
      step (startRequest (.encode src mode v) s) = .next (raise (.inputTooLarge src.length) s)) ∧
    (src.length ≤ 0x00FFFFFF → ∃ t, step (startRequest (.encode src mode v) s) = .next t ∧
      (∀ a b, [s.cfg.tag mode, BitVec.ofNat 8 (src.length &&& 0xFF), BitVec.ofNat 8 ((src.length >>> 8) &&& 0xFF),
        BitVec.ofNat 8 ((src.length >>> 16) &&& 0xFF)][a]? = b → t.memRead .out a = b) ∧
      ∀ a, t.memRead .src a = readByte src a)

/-- What the Encoder emits at the cursor: a literal at the first byte (41_encoder.md R125), a literal where there is no usable
match (R127), a usable match that ends at the end of the source (R128), and otherwise the match unless
`l0 + l2 ≤ 1 + l1 + LAZY_BIAS` (R129, R130); the unit joins the group and `EP` moves past it (R131, R132). -/
def Obligations.EncoderUnitRule : Prop :=
  ∀ (s : State) (e : EncRegs) (b : Byte), s.dueMove = none → s.activity = .encoding e → e.pk.out ≠ [] →
    e.src[e.ep]? = some b →
    let literal := { e with pk := e.pk.addUnit false [b], ep := e.ep + 1 }
    let backRef := fun m : Found =>
      { e with pk := e.pk.addUnit true (encodeMatch s.cfg e.mode m), ep := e.ep + m.len }
    let usable := fun p => match find e.src p (maxLen e.mode) 4096 e.vramSafe with
      | some m => if 3 ≤ m.len then some m else none
      | none => none
    let probe := fun p => match usable p with
      | some m => m.len
      | none => s.cfg.probeShort
    (e.ep = 0 → step s = .next (s.tick.setActivity (.encoding literal))) ∧
    (e.ep ≠ 0 → usable e.ep = none → step s = .next (s.tick.setActivity (.encoding literal))) ∧
    (∀ m, e.ep ≠ 0 → usable e.ep = some m → e.src.length ≤ e.ep + m.len →
      step s = .next (s.tick.setActivity (.encoding (backRef m)))) ∧
    (∀ m, e.ep ≠ 0 → usable e.ep = some m → e.ep + m.len < e.src.length →
      m.len + probe (e.ep + m.len) ≤ 1 + probe (e.ep + 1) + s.cfg.lazyBias →
      step s = .next (s.tick.setActivity (.encoding literal))) ∧
    (∀ m, e.ep ≠ 0 → usable e.ep = some m → e.ep + m.len < e.src.length →
      1 + probe (e.ep + 1) + s.cfg.lazyBias < m.len + probe (e.ep + m.len) →
      step s = .next (s.tick.setActivity (.encoding (backRef m))))

/-- Packing units into an empty group: fewer than 8 wait, with bit `7 − k` of the control byte the flag of unit `k` and the
other bits 0; the 8th writes the control byte and then the units' bytes in order, and starts a new group (41_encoder.md R133,
R134, R140; 10_state.md R31). -/
def Obligations.GroupPacking : Prop :=
  ∀ (out : Memory) (units : List (Bool × Bytes)), units.length ≤ 8 →
    ∃ ctrl : Byte,
      (∀ k, k < 8 → ctrl.getLsbD (7 - k) = ((units[k]?).map Prod.fst).getD false) ∧
      units.foldl (fun k u => k.addUnit u.1 u.2) (Packer.start out) =
        if units.length = 8 then
          { ectrl := 0x00, eucnt := 0, eunits := [], out := out ++ ctrl :: (units.map Prod.snd).flatten }
        else { ectrl := ctrl, eucnt := units.length, eunits := (units.map Prod.snd).flatten, out := out }

/-- A committed match is in the ranges of its mode, lies in the source's past, ends in the source, and under `VRAM_SAFE` has no
displacement 1 (41_encoder.md R132, R147); its bytes are found again at its displacement. -/
def Obligations.CommittedMatchIsSound : Prop :=
  ∀ (c : Config) (src : Memory) (mode : Mode) (v : Bool) (p : Nat) (m : Found), p < src.length →
    committed c src mode v p = some m →
    3 ≤ m.len ∧ m.len ≤ maxLen mode ∧ p + m.len ≤ src.length ∧ 1 ≤ m.disp ∧ m.disp ≤ min 4096 p ∧
    (v = true → m.disp ≠ 1) ∧ ∀ j, j < m.len → src[p + j]? = src[p - m.disp + j]?

/-- The output of ENCODE begins with the header of the mode and the source length, is a multiple of 4 bytes long, and is no
longer than literals alone would make it (41_encoder.md R143, R146). Its padding (R142): to `OUT` after the last flush, exactly
`(4 − |OUT| mod 4) mod 4` bytes of 0x00 are appended. -/
def Obligations.EncodeOutputShape : Prop :=
  ∀ (c : Config) (src : Memory) (mode : Mode) (v : Bool), src.length ≤ maxSize →
    (c.WF → readHeader c (encodeStream c src mode v) = .ok (mode, src.length)) ∧
    (encodeStream c src mode v).take 4 = writeHeader c mode src.length ∧
    (encodeStream c src mode v).length % 4 = 0 ∧
    (encodeStream c src mode v).length ≤ 4 + src.length + (src.length + 7) / 8 + 3 ∧
    ∃ flushed : Memory, flushed = (encodeUnits c src mode v).pk.flushPartial.out ∧
      encodeStream c src mode v = flushed ++ List.replicate ((4 - flushed.length % 4) % 4) 0x00

/-- What the Encoder writes before the padding has no byte too many: it decodes to the source, and cut after any number `k` of its
bytes it is truncated at `k` (41_encoder.md R141, R142, R145; 42_decoder.md R166). -/
def Obligations.NoByteBeforeThePaddingIsSpare : Prop :=
  ∀ (c : Config) (src : Memory) (mode : Mode) (v : Bool), c.WF → src.length ≤ maxSize →
    decodeRequest c (encodeUnits c src mode v).pk.flushPartial.out v = some (.decode src false false) ∧
    ∀ k, k < (encodeUnits c src mode v).pk.flushPartial.out.length →
      decodeRequest c ((encodeUnits c src mode v).pk.flushPartial.out.take k) v = some (.error (.truncatedInput k))

/-- The steps of an ENCODE request, their number fixed by the request and the parameters, lead to the result of ENCODE as one
atomic step, whatever the host has queued, unless a reset lands within them (00_scope.md R3, 41_encoder.md R124; log entries
1, 10). -/
def Obligations.EncodeRunsToItsResult : Prop :=
  ∀ (c : Config) (src : Memory) (mode : Mode) (v : Bool), ∃ k, ∀ s : State, s.cfg = c → NoResetWithin k s.moves →
    runSteps k (startRequest (.encode src mode v) s) = .next (finish (encodeRequest c src mode v) (s.nearer k))

/-! ### DECODE -/

/-- The steps of a DECODE request, instruction by instruction, their number fixed by the request and the parameters, lead to the
result of the byte-serial pseudocode of 42_decoder.md R169 as one atomic step, whatever the host has queued, unless a reset
lands within them (00_scope.md R3; log entries 1, 10); and that result always exists. -/
def Obligations.DecodeRunsToItsResult : Prop :=
  ∀ (c : Config) (cin : Memory) (v : Bool), ∃ k r, decodeRequest c cin v = some r ∧
    ∀ s : State, s.cfg = c → NoResetWithin k s.moves →
      runSteps k (startRequest (.decode cin v) s) = .next (finish r (s.nearer k))

/-- A DECODE that succeeds returns exactly the declared number of bytes (42_decoder.md R168, R170); without `VRAM_SAFE` it never
warns of displacement 1 (R164). -/
def Obligations.DecodeReturnsTheDeclaredSize : Prop :=
  ∀ (c : Config) (cin out : Memory) (v wl wv : Bool), decodeRequest c cin v = some (.decode out wl wv) →
    ∃ mode, readHeader c cin = .ok (mode, out.length) ∧ (v = false → wv = false)

/-- Bytes after the unit that completes the output change nothing (30_encoding.md R84, 42_decoder.md R167). -/
def Obligations.TrailingBytesAreIgnored : Prop :=
  ∀ (c : Config) (cin junk out : Memory) (v wl wv : Bool), decodeRequest c cin v = some (.decode out wl wv) →
    decodeRequest c (cin ++ junk) v = some (.decode out wl wv)

/-- Round trip: decoding what the Encoder wrote gives the source back, for every source, mode and VRAM setting and every value of
the parameters (41_encoder.md R145), with no warning (R147 with 42_decoder.md R164). -/
def Obligations.EncodeDecodeRoundTrip : Prop :=
  ∀ (c : Config) (src : Memory) (mode : Mode) (v : Bool), c.WF → src.length < 2 ^ 24 →
    decodeRequest c (encodeStream c src mode v) v = some (.decode src false false)

/-! ### The assembler -/

/-- The assembler takes a match line under a header exactly when its displacement and its length are ones the mode can express
(30_encoding.md R88), and then its bytes decode to that displacement and length. -/
def Obligations.AssemblerMatchLine : Prop :=
  ∀ (c : Config) (a : AsmState) (mode : Mode) (d l : Nat), a.mode = some mode →
    ((∃ a', asmLine c a (.backRef d l) = .ok a') ↔ 1 ≤ d ∧ d ≤ 4096 ∧ 3 ≤ l ∧ l ≤ maxLen mode) ∧
    ∀ a', asmLine c a (.backRef d l) = .ok a' →
      ∃ bs i, a' = { a with pk := a.pk.addUnit true bs } ∧ decodeIn c (.backRef mode) bs = .instr i [] ∧
        matchOperands i = some { disp := d, len := l }
end

