-- ==== Sys2Proof/Laws/Decode.lean ====
section
/-! SUPPORT. The field helpers of the decoder and encoder as numbers, and as inverses of each other. -/

namespace Sys2Proof

/-- Concatenation as a number. -/
theorem append_toNat {m n : Nat} (a : BitVec m) (b : BitVec n) : (a ++ b).toNat = a.toNat * 2 ^ n + b.toNat := by
  rw [BitVec.toNat_append, Nat.shiftLeft_eq, Nat.mul_comm, Nat.two_pow_add_eq_or_of_lt b.isLt]

theorem joinNibbles_toNat (a b : BitVec 4) : (joinNibbles a b).toNat = a.toNat * 16 + b.toNat :=
  append_toNat a b

theorem join12_toNat (a : BitVec 4) (b : Byte) : (join12 a b).toNat = a.toNat * 256 + b.toNat :=
  append_toNat a b

theorem join16_toNat (a : BitVec 4) (b : Byte) (c : BitVec 4) :
    (join16 a b c).toNat = a.toNat * 4096 + b.toNat * 16 + c.toNat := by
  have h : (join16 a b c).toNat = (a ++ b).toNat * 2 ^ 4 + c.toNat := append_toNat (a ++ b) c
  rw [h, append_toNat]
  omega

theorem join24_toNat (b3 b2 b1 : Byte) :
    (join24 b3 b2 b1).toNat = b3.toNat * 65536 + b2.toNat * 256 + b1.toNat := by
  have h : (join24 b3 b2 b1).toNat = (b3 ++ b2).toNat * 2 ^ 8 + b1.toNat := append_toNat (b3 ++ b2) b1
  rw [h, append_toNat]
  omega

theorem hiNibble_toNat (b : Byte) : (hiNibble b).toNat = b.toNat / 16 := by
  simp only [hiNibble, BitVec.extractLsb'_toNat, Nat.shiftRight_eq_div_pow]
  omega

theorem loNibble_toNat (b : Byte) : (loNibble b).toNat = b.toNat % 16 := by
  simp [loNibble, BitVec.extractLsb'_toNat]

/-- A field cut out of a bit vector, as a number. -/
theorem extract_toNat {w : Nat} (x : BitVec w) (start len : Nat) :
    (x.extractLsb' start len).toNat = x.toNat / 2 ^ start % 2 ^ len := by
  simp [BitVec.extractLsb'_toNat, Nat.shiftRight_eq_div_pow]

theorem hiNibble_joinNibbles (a b : BitVec 4) : hiNibble (joinNibbles a b) = a := by
  apply BitVec.eq_of_toNat_eq
  rw [hiNibble_toNat, joinNibbles_toNat]
  omega

theorem loNibble_joinNibbles (a b : BitVec 4) : loNibble (joinNibbles a b) = b := by
  apply BitVec.eq_of_toNat_eq
  rw [loNibble_toNat, joinNibbles_toNat]
  omega

theorem joinNibbles_nibbles (b : Byte) : joinNibbles (hiNibble b) (loNibble b) = b := by
  apply BitVec.eq_of_toNat_eq
  rw [joinNibbles_toNat, hiNibble_toNat, loNibble_toNat]
  omega

theorem join12_split (f : BitVec 12) : join12 (f.extractLsb' 8 4) (f.extractLsb' 0 8) = f := by
  apply BitVec.eq_of_toNat_eq
  rw [join12_toNat, extract_toNat, extract_toNat]
  omega

theorem join12_high (a : BitVec 4) (b : Byte) : (join12 a b).extractLsb' 8 4 = a := by
  apply BitVec.eq_of_toNat_eq
  rw [extract_toNat, join12_toNat]
  omega

theorem join12_low (a : BitVec 4) (b : Byte) : (join12 a b).extractLsb' 0 8 = b := by
  apply BitVec.eq_of_toNat_eq
  rw [extract_toNat, join12_toNat]
  omega

theorem join8_split (l : BitVec 8) : joinNibbles (l.extractLsb' 4 4) (l.extractLsb' 0 4) = l := by
  apply BitVec.eq_of_toNat_eq
  rw [joinNibbles_toNat, extract_toNat, extract_toNat]
  omega

theorem join16_split (l : BitVec 16) : join16 (l.extractLsb' 12 4) (l.extractLsb' 4 8) (l.extractLsb' 0 4) = l := by
  apply BitVec.eq_of_toNat_eq
  rw [join16_toNat, extract_toNat, extract_toNat, extract_toNat]
  omega

theorem join16_fields (a : BitVec 4) (b : Byte) (c : BitVec 4) :
    (join16 a b c).extractLsb' 12 4 = a ∧ (join16 a b c).extractLsb' 4 8 = b ∧ (join16 a b c).extractLsb' 0 4 = c := by
  refine ⟨?_, ?_, ?_⟩ <;> apply BitVec.eq_of_toNat_eq <;> rw [extract_toNat, join16_toNat] <;> omega

theorem join24_split (n : BitVec 24) : join24 (n.extractLsb' 16 8) (n.extractLsb' 8 8) (n.extractLsb' 0 8) = n := by
  apply BitVec.eq_of_toNat_eq
  rw [join24_toNat, extract_toNat, extract_toNat, extract_toNat]
  omega

theorem join24_fields (b3 b2 b1 : Byte) :
    (join24 b3 b2 b1).extractLsb' 0 8 = b1 ∧ (join24 b3 b2 b1).extractLsb' 8 8 = b2 ∧
      (join24 b3 b2 b1).extractLsb' 16 8 = b3 := by
  refine ⟨?_, ?_, ?_⟩ <;> apply BitVec.eq_of_toNat_eq <;> rw [extract_toNat, join24_toNat] <;> omega

/-- The size of a header as the shifts and ors of 20_memory.md R54. -/
theorem join24_eq_or (b3 b2 b1 : Byte) :
    (join24 b3 b2 b1).toNat = b1.toNat ||| (b2.toNat <<< 8) ||| (b3.toNat <<< 16) := by
  have h1 : b1.toNat ||| (b2.toNat <<< 8) = b2.toNat * 2 ^ 8 + b1.toNat := by
    rw [Nat.or_comm, Nat.shiftLeft_eq, Nat.mul_comm, Nat.two_pow_add_eq_or_of_lt b1.isLt]
  have h2 : b2.toNat * 2 ^ 8 + b1.toNat < 2 ^ 16 := by omega
  rw [h1, Nat.or_comm, Nat.shiftLeft_eq, Nat.mul_comm b3.toNat, ← Nat.two_pow_add_eq_or_of_lt h2, join24_toNat]
  omega

end Sys2Proof
end

