-- ==== Sys2Proof/Laws/State.lean ====
section
/-! SUPPORT. One lemma per field per update, true by rfl, so that no proof unfolds a record update; and what `tick` and
`holdMove`, which touch only the queue of moves, leave alone. -/

namespace Sys2Proof.Machine

/-! ### Updates of the state -/

@[simp] theorem State.setActivity_cfg (a : Activity) (s : State) : (s.setActivity a).cfg = s.cfg := rfl
@[simp] theorem State.setActivity_activity (a : Activity) (s : State) : (s.setActivity a).activity = a := rfl
@[simp] theorem State.setActivity_result (a : Activity) (s : State) : (s.setActivity a).result = s.result := rfl
@[simp] theorem State.setActivity_moves (a : Activity) (s : State) : (s.setActivity a).moves = s.moves := rfl
@[simp] theorem State.setActivity_received (a : Activity) (s : State) : (s.setActivity a).received = s.received := rfl
@[simp] theorem State.setActivity_reads (a : Activity) (s : State) : (s.setActivity a).reads = s.reads := rfl

@[simp] theorem finish_cfg (r : Result) (s : State) : (finish r s).cfg = s.cfg := rfl
@[simp] theorem finish_activity (r : Result) (s : State) : (finish r s).activity = .idle := rfl
@[simp] theorem finish_result (r : Result) (s : State) : (finish r s).result = some r := rfl
@[simp] theorem finish_moves (r : Result) (s : State) : (finish r s).moves = s.moves := rfl
@[simp] theorem finish_received (r : Result) (s : State) : (finish r s).received = s.received := rfl
@[simp] theorem finish_reads (r : Result) (s : State) : (finish r s).reads = s.reads := rfl

@[simp] theorem raise_cfg (e : Err) (s : State) : (raise e s).cfg = s.cfg := rfl
@[simp] theorem raise_activity (e : Err) (s : State) : (raise e s).activity = .idle := rfl
@[simp] theorem raise_result (e : Err) (s : State) : (raise e s).result = some (.error e) := rfl
@[simp] theorem raise_moves (e : Err) (s : State) : (raise e s).moves = s.moves := rfl
@[simp] theorem raise_received (e : Err) (s : State) : (raise e s).received = s.received := rfl
@[simp] theorem raise_reads (e : Err) (s : State) : (raise e s).reads = s.reads := rfl

@[simp] theorem startRequest_cfg (r : Request) (s : State) : (startRequest r s).cfg = s.cfg := rfl
@[simp] theorem startRequest_activity (r : Request) (s : State) : (startRequest r s).activity = r.activity := rfl
@[simp] theorem startRequest_result (r : Request) (s : State) : (startRequest r s).result = s.result := rfl
@[simp] theorem startRequest_moves (r : Request) (s : State) : (startRequest r s).moves = s.moves := rfl
@[simp] theorem startRequest_received (r : Request) (s : State) : (startRequest r s).received = s.received := rfl
@[simp] theorem startRequest_reads (r : Request) (s : State) : (startRequest r s).reads = s.reads := rfl

@[simp] theorem resetBlock_cfg (s : State) : (resetBlock s).cfg = s.cfg := rfl
@[simp] theorem resetBlock_activity (s : State) : (resetBlock s).activity = .idle := rfl
@[simp] theorem resetBlock_result (s : State) : (resetBlock s).result = none := rfl
@[simp] theorem resetBlock_moves (s : State) : (resetBlock s).moves = s.moves := rfl
@[simp] theorem resetBlock_received (s : State) : (resetBlock s).received = s.received := rfl
@[simp] theorem resetBlock_reads (s : State) : (resetBlock s).reads = s.reads := rfl

@[simp] theorem State.popMove_cfg (s : State) : (s.popMove).cfg = s.cfg := rfl
@[simp] theorem State.popMove_activity (s : State) : (s.popMove).activity = s.activity := rfl
@[simp] theorem State.popMove_result (s : State) : (s.popMove).result = s.result := rfl
@[simp] theorem State.popMove_moves (s : State) : (s.popMove).moves = s.moves.tail := rfl
@[simp] theorem State.popMove_received (s : State) : (s.popMove).received = s.received := rfl
@[simp] theorem State.popMove_reads (s : State) : (s.popMove).reads = s.reads := rfl

/-! ### Updates of the Decoder's registers -/

@[simp] theorem DecRegs.start_cin (cin : Memory) (v : Bool) : (DecRegs.start cin v).cin = cin := rfl
@[simp] theorem DecRegs.start_vramSafe (cin : Memory) (v : Bool) : (DecRegs.start cin v).vramSafe = v := rfl
@[simp] theorem DecRegs.start_ipos (cin : Memory) (v : Bool) : (DecRegs.start cin v).ipos = 0 := rfl
@[simp] theorem DecRegs.start_dmode (cin : Memory) (v : Bool) : (DecRegs.start cin v).dmode = .lz10 := rfl
@[simp] theorem DecRegs.start_dn (cin : Memory) (v : Bool) : (DecRegs.start cin v).dn = 0 := rfl
@[simp] theorem DecRegs.start_produced (cin : Memory) (v : Bool) : (DecRegs.start cin v).produced = 0 := rfl
@[simp] theorem DecRegs.start_dflags (cin : Memory) (v : Bool) : (DecRegs.start cin v).dflags = 0 := rfl
@[simp] theorem DecRegs.start_dfcnt (cin : Memory) (v : Bool) : (DecRegs.start cin v).dfcnt = 0 := rfl
@[simp] theorem DecRegs.start_warnLen (cin : Memory) (v : Bool) : (DecRegs.start cin v).warnLen = false := rfl
@[simp] theorem DecRegs.start_warnVram (cin : Memory) (v : Bool) : (DecRegs.start cin v).warnVram = false := rfl
@[simp] theorem DecRegs.start_out (cin : Memory) (v : Bool) : (DecRegs.start cin v).out = [] := rfl

@[simp] theorem DecRegs.loadHeader_cin (m : Mode) (n : Nat) (d : DecRegs) : (d.loadHeader m n).cin = d.cin := rfl
@[simp] theorem DecRegs.loadHeader_vramSafe (m : Mode) (n : Nat) (d : DecRegs) : (d.loadHeader m n).vramSafe = d.vramSafe := rfl
@[simp] theorem DecRegs.loadHeader_ipos (m : Mode) (n : Nat) (d : DecRegs) : (d.loadHeader m n).ipos = 4 := rfl
@[simp] theorem DecRegs.loadHeader_dmode (m : Mode) (n : Nat) (d : DecRegs) : (d.loadHeader m n).dmode = m := rfl
@[simp] theorem DecRegs.loadHeader_dn (m : Mode) (n : Nat) (d : DecRegs) : (d.loadHeader m n).dn = n := rfl
@[simp] theorem DecRegs.loadHeader_produced (m : Mode) (n : Nat) (d : DecRegs) : (d.loadHeader m n).produced = 0 := rfl
@[simp] theorem DecRegs.loadHeader_dflags (m : Mode) (n : Nat) (d : DecRegs) : (d.loadHeader m n).dflags = 0 := rfl
@[simp] theorem DecRegs.loadHeader_dfcnt (m : Mode) (n : Nat) (d : DecRegs) : (d.loadHeader m n).dfcnt = 0 := rfl
@[simp] theorem DecRegs.loadHeader_warnLen (m : Mode) (n : Nat) (d : DecRegs) : (d.loadHeader m n).warnLen = false := rfl
@[simp] theorem DecRegs.loadHeader_warnVram (m : Mode) (n : Nat) (d : DecRegs) : (d.loadHeader m n).warnVram = false := rfl
@[simp] theorem DecRegs.loadHeader_out (m : Mode) (n : Nat) (d : DecRegs) : (d.loadHeader m n).out = [] := rfl

@[simp] theorem DecRegs.advance_cin (n : Nat) (d : DecRegs) : (d.advance n).cin = d.cin := rfl
@[simp] theorem DecRegs.advance_vramSafe (n : Nat) (d : DecRegs) : (d.advance n).vramSafe = d.vramSafe := rfl
@[simp] theorem DecRegs.advance_ipos (n : Nat) (d : DecRegs) : (d.advance n).ipos = d.ipos + n := rfl
@[simp] theorem DecRegs.advance_dmode (n : Nat) (d : DecRegs) : (d.advance n).dmode = d.dmode := rfl
@[simp] theorem DecRegs.advance_dn (n : Nat) (d : DecRegs) : (d.advance n).dn = d.dn := rfl
@[simp] theorem DecRegs.advance_produced (n : Nat) (d : DecRegs) : (d.advance n).produced = d.produced := rfl
@[simp] theorem DecRegs.advance_dflags (n : Nat) (d : DecRegs) : (d.advance n).dflags = d.dflags := rfl
@[simp] theorem DecRegs.advance_dfcnt (n : Nat) (d : DecRegs) : (d.advance n).dfcnt = d.dfcnt := rfl
@[simp] theorem DecRegs.advance_warnLen (n : Nat) (d : DecRegs) : (d.advance n).warnLen = d.warnLen := rfl
@[simp] theorem DecRegs.advance_warnVram (n : Nat) (d : DecRegs) : (d.advance n).warnVram = d.warnVram := rfl
@[simp] theorem DecRegs.advance_out (n : Nat) (d : DecRegs) : (d.advance n).out = d.out := rfl

@[simp] theorem DecRegs.emit_cin (b : Byte) (d : DecRegs) : (d.emit b).cin = d.cin := rfl
@[simp] theorem DecRegs.emit_vramSafe (b : Byte) (d : DecRegs) : (d.emit b).vramSafe = d.vramSafe := rfl
@[simp] theorem DecRegs.emit_ipos (b : Byte) (d : DecRegs) : (d.emit b).ipos = d.ipos := rfl
@[simp] theorem DecRegs.emit_dmode (b : Byte) (d : DecRegs) : (d.emit b).dmode = d.dmode := rfl
@[simp] theorem DecRegs.emit_dn (b : Byte) (d : DecRegs) : (d.emit b).dn = d.dn := rfl
@[simp] theorem DecRegs.emit_produced (b : Byte) (d : DecRegs) : (d.emit b).produced = d.produced + 1 := rfl
@[simp] theorem DecRegs.emit_dflags (b : Byte) (d : DecRegs) : (d.emit b).dflags = d.dflags := rfl
@[simp] theorem DecRegs.emit_dfcnt (b : Byte) (d : DecRegs) : (d.emit b).dfcnt = d.dfcnt := rfl
@[simp] theorem DecRegs.emit_warnLen (b : Byte) (d : DecRegs) : (d.emit b).warnLen = d.warnLen := rfl
@[simp] theorem DecRegs.emit_warnVram (b : Byte) (d : DecRegs) : (d.emit b).warnVram = d.warnVram := rfl
@[simp] theorem DecRegs.emit_out (b : Byte) (d : DecRegs) : (d.emit b).out = d.out ++ [b] := rfl

@[simp] theorem DecRegs.loadFlags_cin (fl : Byte) (d : DecRegs) : (d.loadFlags fl).cin = d.cin := rfl
@[simp] theorem DecRegs.loadFlags_vramSafe (fl : Byte) (d : DecRegs) : (d.loadFlags fl).vramSafe = d.vramSafe := rfl
@[simp] theorem DecRegs.loadFlags_ipos (fl : Byte) (d : DecRegs) : (d.loadFlags fl).ipos = d.ipos := rfl
@[simp] theorem DecRegs.loadFlags_dmode (fl : Byte) (d : DecRegs) : (d.loadFlags fl).dmode = d.dmode := rfl
@[simp] theorem DecRegs.loadFlags_dn (fl : Byte) (d : DecRegs) : (d.loadFlags fl).dn = d.dn := rfl
@[simp] theorem DecRegs.loadFlags_produced (fl : Byte) (d : DecRegs) : (d.loadFlags fl).produced = d.produced := rfl
@[simp] theorem DecRegs.loadFlags_dflags (fl : Byte) (d : DecRegs) : (d.loadFlags fl).dflags = fl := rfl
@[simp] theorem DecRegs.loadFlags_dfcnt (fl : Byte) (d : DecRegs) : (d.loadFlags fl).dfcnt = 8 := rfl
@[simp] theorem DecRegs.loadFlags_warnLen (fl : Byte) (d : DecRegs) : (d.loadFlags fl).warnLen = d.warnLen := rfl
@[simp] theorem DecRegs.loadFlags_warnVram (fl : Byte) (d : DecRegs) : (d.loadFlags fl).warnVram = d.warnVram := rfl
@[simp] theorem DecRegs.loadFlags_out (fl : Byte) (d : DecRegs) : (d.loadFlags fl).out = d.out := rfl

@[simp] theorem DecRegs.consumeFlag_cin (d : DecRegs) : (d.consumeFlag).cin = d.cin := rfl
@[simp] theorem DecRegs.consumeFlag_vramSafe (d : DecRegs) : (d.consumeFlag).vramSafe = d.vramSafe := rfl
@[simp] theorem DecRegs.consumeFlag_ipos (d : DecRegs) : (d.consumeFlag).ipos = d.ipos := rfl
@[simp] theorem DecRegs.consumeFlag_dmode (d : DecRegs) : (d.consumeFlag).dmode = d.dmode := rfl
@[simp] theorem DecRegs.consumeFlag_dn (d : DecRegs) : (d.consumeFlag).dn = d.dn := rfl
@[simp] theorem DecRegs.consumeFlag_produced (d : DecRegs) : (d.consumeFlag).produced = d.produced := rfl
@[simp] theorem DecRegs.consumeFlag_dflags (d : DecRegs) : (d.consumeFlag).dflags = d.dflags <<< 1 := rfl
@[simp] theorem DecRegs.consumeFlag_dfcnt (d : DecRegs) : (d.consumeFlag).dfcnt = d.dfcnt - 1 := rfl
@[simp] theorem DecRegs.consumeFlag_warnLen (d : DecRegs) : (d.consumeFlag).warnLen = d.warnLen := rfl
@[simp] theorem DecRegs.consumeFlag_warnVram (d : DecRegs) : (d.consumeFlag).warnVram = d.warnVram := rfl
@[simp] theorem DecRegs.consumeFlag_out (d : DecRegs) : (d.consumeFlag).out = d.out := rfl

@[simp] theorem DecRegs.warnIfExceeds_cin (l : Nat) (d : DecRegs) : (d.warnIfExceeds l).cin = d.cin := rfl
@[simp] theorem DecRegs.warnIfExceeds_vramSafe (l : Nat) (d : DecRegs) : (d.warnIfExceeds l).vramSafe = d.vramSafe := rfl
@[simp] theorem DecRegs.warnIfExceeds_ipos (l : Nat) (d : DecRegs) : (d.warnIfExceeds l).ipos = d.ipos := rfl
@[simp] theorem DecRegs.warnIfExceeds_dmode (l : Nat) (d : DecRegs) : (d.warnIfExceeds l).dmode = d.dmode := rfl
@[simp] theorem DecRegs.warnIfExceeds_dn (l : Nat) (d : DecRegs) : (d.warnIfExceeds l).dn = d.dn := rfl
@[simp] theorem DecRegs.warnIfExceeds_produced (l : Nat) (d : DecRegs) : (d.warnIfExceeds l).produced = d.produced := rfl
@[simp] theorem DecRegs.warnIfExceeds_dflags (l : Nat) (d : DecRegs) : (d.warnIfExceeds l).dflags = d.dflags := rfl
@[simp] theorem DecRegs.warnIfExceeds_dfcnt (l : Nat) (d : DecRegs) : (d.warnIfExceeds l).dfcnt = d.dfcnt := rfl
@[simp] theorem DecRegs.warnIfExceeds_warnLen (l : Nat) (d : DecRegs) : (d.warnIfExceeds l).warnLen = (d.warnLen || d.exceeds l) := rfl
@[simp] theorem DecRegs.warnIfExceeds_warnVram (l : Nat) (d : DecRegs) : (d.warnIfExceeds l).warnVram = d.warnVram := rfl
@[simp] theorem DecRegs.warnIfExceeds_out (l : Nat) (d : DecRegs) : (d.warnIfExceeds l).out = d.out := rfl

@[simp] theorem DecRegs.warnIfUnsafe_cin (p : Nat) (d : DecRegs) : (d.warnIfUnsafe p).cin = d.cin := rfl
@[simp] theorem DecRegs.warnIfUnsafe_vramSafe (p : Nat) (d : DecRegs) : (d.warnIfUnsafe p).vramSafe = d.vramSafe := rfl
@[simp] theorem DecRegs.warnIfUnsafe_ipos (p : Nat) (d : DecRegs) : (d.warnIfUnsafe p).ipos = d.ipos := rfl
@[simp] theorem DecRegs.warnIfUnsafe_dmode (p : Nat) (d : DecRegs) : (d.warnIfUnsafe p).dmode = d.dmode := rfl
@[simp] theorem DecRegs.warnIfUnsafe_dn (p : Nat) (d : DecRegs) : (d.warnIfUnsafe p).dn = d.dn := rfl
@[simp] theorem DecRegs.warnIfUnsafe_produced (p : Nat) (d : DecRegs) : (d.warnIfUnsafe p).produced = d.produced := rfl
@[simp] theorem DecRegs.warnIfUnsafe_dflags (p : Nat) (d : DecRegs) : (d.warnIfUnsafe p).dflags = d.dflags := rfl
@[simp] theorem DecRegs.warnIfUnsafe_dfcnt (p : Nat) (d : DecRegs) : (d.warnIfUnsafe p).dfcnt = d.dfcnt := rfl
@[simp] theorem DecRegs.warnIfUnsafe_warnLen (p : Nat) (d : DecRegs) : (d.warnIfUnsafe p).warnLen = d.warnLen := rfl
@[simp] theorem DecRegs.warnIfUnsafe_warnVram (p : Nat) (d : DecRegs) : (d.warnIfUnsafe p).warnVram = (d.warnVram || (d.vramSafe && p == 1)) := rfl
@[simp] theorem DecRegs.warnIfUnsafe_out (p : Nat) (d : DecRegs) : (d.warnIfUnsafe p).out = d.out := rfl

/-! ### Updates of the Encoder's and the Finder's registers -/

@[simp] theorem Packer.start_ectrl (out : Memory) : (Packer.start out).ectrl = 0 := rfl
@[simp] theorem Packer.start_eucnt (out : Memory) : (Packer.start out).eucnt = 0 := rfl
@[simp] theorem Packer.start_eunits (out : Memory) : (Packer.start out).eunits = [] := rfl
@[simp] theorem Packer.start_out (out : Memory) : (Packer.start out).out = out := rfl

@[simp] theorem Packer.write_ectrl (bs : Bytes) (k : Packer) : (k.write bs).ectrl = k.ectrl := rfl
@[simp] theorem Packer.write_eucnt (bs : Bytes) (k : Packer) : (k.write bs).eucnt = k.eucnt := rfl
@[simp] theorem Packer.write_eunits (bs : Bytes) (k : Packer) : (k.write bs).eunits = k.eunits := rfl
@[simp] theorem Packer.write_out (bs : Bytes) (k : Packer) : (k.write bs).out = k.out ++ bs := rfl

@[simp] theorem Packer.pad_ectrl (k : Packer) : (k.pad).ectrl = k.ectrl := rfl
@[simp] theorem Packer.pad_eucnt (k : Packer) : (k.pad).eucnt = k.eucnt := rfl
@[simp] theorem Packer.pad_eunits (k : Packer) : (k.pad).eunits = k.eunits := rfl
@[simp] theorem Packer.pad_out (k : Packer) : (k.pad).out = k.out ++ padding k.out := rfl

@[simp] theorem Packer.flush_ectrl (k : Packer) : (k.flush).ectrl = 0 := rfl
@[simp] theorem Packer.flush_eucnt (k : Packer) : (k.flush).eucnt = 0 := rfl
@[simp] theorem Packer.flush_eunits (k : Packer) : (k.flush).eunits = [] := rfl
@[simp] theorem Packer.flush_out (k : Packer) : (k.flush).out = k.out ++ [k.ectrl] ++ k.eunits := rfl

@[simp] theorem EncRegs.start_src (src : Memory) (m : Mode) (v : Bool) : (EncRegs.start src m v).src = src := rfl
@[simp] theorem EncRegs.start_mode (src : Memory) (m : Mode) (v : Bool) : (EncRegs.start src m v).mode = m := rfl
@[simp] theorem EncRegs.start_vramSafe (src : Memory) (m : Mode) (v : Bool) : (EncRegs.start src m v).vramSafe = v := rfl
@[simp] theorem EncRegs.start_ep (src : Memory) (m : Mode) (v : Bool) : (EncRegs.start src m v).ep = 0 := rfl
@[simp] theorem EncRegs.start_pk (src : Memory) (m : Mode) (v : Bool) : (EncRegs.start src m v).pk = Packer.start [] := rfl

@[simp] theorem EncRegs.writeHeader_src (c : Config) (e : EncRegs) : (e.writeHeader c).src = e.src := rfl
@[simp] theorem EncRegs.writeHeader_mode (c : Config) (e : EncRegs) : (e.writeHeader c).mode = e.mode := rfl
@[simp] theorem EncRegs.writeHeader_vramSafe (c : Config) (e : EncRegs) : (e.writeHeader c).vramSafe = e.vramSafe := rfl
@[simp] theorem EncRegs.writeHeader_ep (c : Config) (e : EncRegs) : (e.writeHeader c).ep = e.ep := rfl
@[simp] theorem EncRegs.writeHeader_pk (c : Config) (e : EncRegs) : (e.writeHeader c).pk = e.pk.write (Machine.writeHeader c e.mode e.src.length) := rfl

@[simp] theorem EncRegs.emitLiteral_src (b : Byte) (e : EncRegs) : (e.emitLiteral b).src = e.src := rfl
@[simp] theorem EncRegs.emitLiteral_mode (b : Byte) (e : EncRegs) : (e.emitLiteral b).mode = e.mode := rfl
@[simp] theorem EncRegs.emitLiteral_vramSafe (b : Byte) (e : EncRegs) : (e.emitLiteral b).vramSafe = e.vramSafe := rfl
@[simp] theorem EncRegs.emitLiteral_ep (b : Byte) (e : EncRegs) : (e.emitLiteral b).ep = e.ep + 1 := rfl
@[simp] theorem EncRegs.emitLiteral_pk (b : Byte) (e : EncRegs) : (e.emitLiteral b).pk = e.pk.addUnit false [b] := rfl

@[simp] theorem EncRegs.emitMatch_src (c : Config) (m : Found) (e : EncRegs) : (e.emitMatch c m).src = e.src := rfl
@[simp] theorem EncRegs.emitMatch_mode (c : Config) (m : Found) (e : EncRegs) : (e.emitMatch c m).mode = e.mode := rfl
@[simp] theorem EncRegs.emitMatch_vramSafe (c : Config) (m : Found) (e : EncRegs) : (e.emitMatch c m).vramSafe = e.vramSafe := rfl
@[simp] theorem EncRegs.emitMatch_ep (c : Config) (m : Found) (e : EncRegs) : (e.emitMatch c m).ep = e.ep + m.len := rfl
@[simp] theorem EncRegs.emitMatch_pk (c : Config) (m : Found) (e : EncRegs) : (e.emitMatch c m).pk = e.pk.addUnit true (encodeMatch c e.mode m) := rfl

@[simp] theorem FindRegs.start_src (src : Memory) (p l dm : Nat) (v : Bool) : (FindRegs.start src p l dm v).src = src := rfl
@[simp] theorem FindRegs.start_p (src : Memory) (p l dm : Nat) (v : Bool) : (FindRegs.start src p l dm v).p = p := rfl
@[simp] theorem FindRegs.start_lprobe (src : Memory) (p l dm : Nat) (v : Bool) : (FindRegs.start src p l dm v).lprobe = l := rfl
@[simp] theorem FindRegs.start_dmax (src : Memory) (p l dm : Nat) (v : Bool) : (FindRegs.start src p l dm v).dmax = dm := rfl
@[simp] theorem FindRegs.start_vramSafe (src : Memory) (p l dm : Nat) (v : Bool) : (FindRegs.start src p l dm v).vramSafe = v := rfl
@[simp] theorem FindRegs.start_fd (src : Memory) (p l dm : Nat) (v : Bool) : (FindRegs.start src p l dm v).fd = 1 := rfl
@[simp] theorem FindRegs.start_fbestD (src : Memory) (p l dm : Nat) (v : Bool) : (FindRegs.start src p l dm v).fbestD = 0 := rfl
@[simp] theorem FindRegs.start_fbestL (src : Memory) (p l dm : Nat) (v : Bool) : (FindRegs.start src p l dm v).fbestL = 0 := rfl

/-! ### The queue of the host's moves -/

theorem State.tick_eq (s : State) : s.tick = { s with moves := s.tick.moves } := by
  unfold State.tick; split <;> rfl

@[simp] theorem State.tick_cfg (s : State) : s.tick.cfg = s.cfg := by rw [s.tick_eq]

@[simp] theorem State.tick_activity (s : State) : s.tick.activity = s.activity := by rw [s.tick_eq]

@[simp] theorem State.tick_result (s : State) : s.tick.result = s.result := by rw [s.tick_eq]

@[simp] theorem State.tick_received (s : State) : s.tick.received = s.received := by rw [s.tick_eq]

@[simp] theorem State.tick_reads (s : State) : s.tick.reads = s.reads := by rw [s.tick_eq]

theorem State.tick_of_moves_nil {s : State} (h : s.moves = []) : s.tick = s := by
  unfold State.tick; rw [h]

theorem State.dueMove_of_moves_nil {s : State} (h : s.moves = []) : s.dueMove = none := by
  unfold State.dueMove; rw [h]

/-- A move put off is not due. -/
theorem State.dueMove_holdMove (s : State) : s.holdMove.dueMove = none := by
  unfold State.holdMove State.dueMove
  rcases s with ⟨c, a, r, _ | ⟨⟨_ | k, m⟩, rest⟩, rc, rd⟩ <;> rfl

theorem State.holdMove_eq (s : State) : s.holdMove = { s with moves := s.holdMove.moves } := by
  unfold State.holdMove; split <;> rfl

@[simp] theorem State.holdMove_cfg (s : State) : s.holdMove.cfg = s.cfg := by rw [s.holdMove_eq]

@[simp] theorem State.holdMove_activity (s : State) : s.holdMove.activity = s.activity := by rw [s.holdMove_eq]

end Sys2Proof.Machine
end

