-- ==== Sys2Proof/Laws/Ops.lean ====
section
/-! SUPPORT. What each shared operation can do, said once: bytes of memory, the copy, `ExecMatch`, an instruction in its
context, `exec` and `step`. -/

namespace Sys2Proof.Machine

/-! ### Memory -/

@[simp] theorem readByte_append_left {m : Memory} {i : Nat} (b : Byte) (h : i < m.length) :
    readByte (append m b) i = readByte m i :=
  List.getElem?_append_left h

@[simp] theorem readByte_append_self (m : Memory) (b : Byte) : readByte (append m b) m.length = some b := by
  simp [readByte, append]

theorem readByte_eq_none {m : Memory} {i : Nat} : readByte m i = none ↔ m.length ≤ i := by
  simp [readByte]

/-- Every space is in the canonical form: the addresses of its cells rise strictly. -/
theorem Memory.wf_all (m : Memory) : Memory.wf m = true := by
  have h : (Memory.cells m).map Prod.fst = List.range m.length := by
    unfold Memory.cells
    exact List.map_fst_zip (by simp)
  simp only [Memory.wf, h, decide_eq_true_eq]
  exact List.pairwise_lt_range

/-- Appending keeps the canonical form, and the cells already there. -/
theorem Memory.cells_append (m : Memory) (b : Byte) :
    Memory.cells (append m b) = Memory.cells m ++ [(m.length, b)] := by
  simp only [Memory.cells, append, List.length_append, List.length_cons, List.length_nil, List.range_succ]
  rw [List.zip_append (by simp)]
  rfl

/-- Reset lists no byte in any space. -/
theorem State.reset_space (sp : Space) : State.reset.space sp = [] := by
  cases sp <;> rfl

/-! ### Where the Decoder stands -/

theorem DecRegs.context_eq_header {d : DecRegs} : d.context = some .header ↔ d.ipos = 0 := by
  unfold DecRegs.context
  split
  · simp_all
  · split
    · split
      · simp_all
      · split <;> simp_all
    · simp_all

theorem DecRegs.context_eq_none {d : DecRegs} : d.context = none ↔ d.ipos ≠ 0 ∧ d.dn ≤ d.produced := by
  unfold DecRegs.context
  split
  · simp_all
  · split
    · split
      · simp_all
      · split <;> simp_all
    · simp_all

theorem DecRegs.context_eq_control {d : DecRegs} :
    d.context = some .control ↔ d.ipos ≠ 0 ∧ d.produced < d.dn ∧ d.dfcnt = 0 := by
  unfold DecRegs.context
  split
  · simp_all
  · split
    · split
      · simp_all
      · split <;> simp_all
    · simp_all

theorem nextFlag_eq (b : Byte) : nextFlag b = b.getLsbD 7 := by
  simp [nextFlag, BitVec.getMsbD]

theorem DecRegs.context_eq_literal {d : DecRegs} : d.context = some .literal ↔ d.AtUnit false := by
  unfold DecRegs.context
  rw [nextFlag_eq]
  split
  · simp_all
  · split
    · split
      · simp_all
      · split <;> simp_all [DecRegs.AtUnit]
    · simp_all

theorem DecRegs.context_eq_backRef {d : DecRegs} {m : Mode} :
    d.context = some (.backRef m) ↔ d.AtUnit true ∧ d.dmode = m := by
  unfold DecRegs.context
  rw [nextFlag_eq]
  split
  · simp_all
  · split
    · split
      · simp_all
      · split <;> simp_all [DecRegs.AtUnit]
    · simp_all

/-! ### The copy and `ExecMatch` -/

/-- A copy that goes on appends as many bytes as it was asked for and changes nothing else. -/
theorem copyBytes_ok {disp n : Nat} {d d' : DecRegs} (h : copyBytes disp n d = .ok d') :
    ∃ copied : Bytes, copied.length = n ∧
      d' = { d with out := d.out ++ copied, produced := d.produced + n } := by
  induction n generalizing d with
  | zero => cases h; exact ⟨[], rfl, by simp⟩
  | succ n ih =>
    unfold copyBytes at h
    split at h
    · cases h
    · rename_i b _
      obtain ⟨copied, hl, rfl⟩ := ih h
      refine ⟨b :: copied, by simp [hl], ?_⟩
      simp [DecRegs.emit, append, Nat.add_assoc, Nat.add_comm 1 n]

/-- A copy stops only on an index that holds no byte. -/
theorem copyBytes_error {disp n : Nat} {d : DecRegs} {e : Stop} (h : copyBytes disp n d = .error e) :
    e = .fault .outUnwritten := by
  induction n generalizing d with
  | zero => cases h
  | succ n ih =>
    unfold copyBytes at h
    split at h
    · cases h; rfl
    · exact ih h

/-- With `|OUT| = PRODUCED` and a displacement in range, a copy goes on, and each byte it appends equals the byte `disp` before
it. -/
theorem copyBytes_spec {disp n : Nat} {d : DecRegs} (h1 : 1 ≤ disp) (h2 : disp ≤ d.produced)
    (h3 : d.out.length = d.produced) :
    ∃ copied : Bytes, copied.length = n ∧
      copyBytes disp n d = .ok { d with out := d.out ++ copied, produced := d.produced + n } ∧
      ∀ j, j < n → (d.out ++ copied)[d.produced + j]? = (d.out ++ copied)[d.produced + j - disp]? := by
  induction n generalizing d with
  | zero => exact ⟨[], rfl, by simp [copyBytes], by simp⟩
  | succ n ih =>
    have hlt : d.produced - disp < d.out.length := by omega
    obtain ⟨b, hb⟩ : ∃ b, readByte d.out (d.produced - disp) = some b := ⟨_, List.getElem?_eq_getElem hlt⟩
    obtain ⟨copied, hl, hc, hj⟩ := ih (d := d.emit b) (by simp; omega) (by simp [h3])
    refine ⟨b :: copied, by simp [hl], ?_, ?_⟩
    · simp only [copyBytes, hb, hc]
      simp [DecRegs.emit, append, Nat.add_assoc, Nat.add_comm 1 n]
    · intro j hj'
      have happ : d.out ++ b :: copied = (d.out ++ [b]) ++ copied := by simp
      rcases j with _ | j
      · have : (d.out ++ b :: copied)[d.produced]? = some b := by rw [← h3]; simp
        simp only [Nat.add_zero, this]
        rw [List.getElem?_append_left hlt]
        exact hb.symm
      · have := hj j (by omega)
        simp only [DecRegs.emit_out, DecRegs.emit_produced] at this
        rw [happ, show d.produced + (j + 1) = d.produced + 1 + j by omega]
        exact this

@[simp] theorem DecRegs.truncated_advance (d : DecRegs) (k len : Nat) :
    (d.consumeFlag.advance k).truncated len = d.truncated len := rfl

theorem DecRegs.truncated_eq_min {d : DecRegs} (len : Nat) (h : d.produced ≤ d.dn) :
    d.truncated len = min len (d.dn - d.produced) := by
  simp only [DecRegs.truncated, DecRegs.exceeds, decide_eq_true_eq]
  split <;> omega

/-- A match that goes on had a displacement in range; it sets the warnings and appends the truncated length. -/
theorem execMatch_ok {u disp len : Nat} {d d' : DecRegs} (h : execMatch u disp len d = .ok d') :
    disp ≤ d.produced ∧ ∃ copied : Bytes, copied.length = d.truncated len ∧
      d' = { d with
        out := d.out ++ copied, produced := d.produced + d.truncated len,
        warnLen := d.warnLen || d.exceeds len, warnVram := d.warnVram || (d.vramSafe && disp == 1) } := by
  unfold execMatch at h
  split at h
  · cases h
  · obtain ⟨copied, hl, rfl⟩ := copyBytes_ok h
    exact ⟨by omega, copied, hl, rfl⟩

/-- A match raises only on a displacement out of range. -/
theorem execMatch_error {u disp len : Nat} {d : DecRegs} {e : Stop} (h : execMatch u disp len d = .error e) :
    (d.produced < disp ∧ e = .raised (.outOfRangeBackReference u disp d.produced)) ∨
      (disp ≤ d.produced ∧ e = .fault .outUnwritten) := by
  unfold execMatch at h
  split at h
  · cases h; exact .inl ⟨‹_›, rfl⟩
  · exact .inr ⟨by omega, copyBytes_error h⟩

/-! ### An instruction -/

/-- What an instruction does to the Decoder's registers. -/
def effect : Instr → DecRegs → Except Stop DecRegs
  | .hdrLz10 size, d => .ok (d.loadHeader .lz10 size.toNat)
  | .hdrLz11 size, d => .ok (d.loadHeader .lz11 size.toNat)
  | .ctrl flags, d => .ok ((d.advance 1).loadFlags flags)
  | .lit b, d => .ok ((d.consumeFlag.advance 1).emit b)
  | .match10 l f, d => execMatch d.ipos (dispOf f) (len10 l) (d.consumeFlag.advance 2)
  | .match11_2 t f, d => execMatch d.ipos (dispOf f) (len11x2 t) (d.consumeFlag.advance 2)
  | .match11_3 l f, d => execMatch d.ipos (dispOf f) (len11x3 l) (d.consumeFlag.advance 3)
  | .match11_4 l f, d => execMatch d.ipos (dispOf f) (len11x4 l) (d.consumeFlag.advance 4)

/-- `exec` is the effect of the instruction, in its context. -/
theorem exec_eq (i : Instr) (s : State) : exec i s = inContext i.context (effect i) s := by
  cases i <;> rfl

/-- The effect of any match. -/
theorem effect_match {i : Instr} {m : Found} (h : matchOperands i = some m) (d : DecRegs) :
    effect i d = execMatch d.ipos m.disp m.len (d.consumeFlag.advance i.size) := by
  cases i <;> simp_all only [matchOperands, Option.some.injEq, reduceCtorEq] <;> subst h <;> rfl

/-- A match stands in the context of its mode. -/
theorem context_of_matchOperands {i : Instr} {m : Found} (h : matchOperands i = some m) :
    ∃ mode, i.context = .backRef mode := by
  cases i <;> simp_all [matchOperands, Instr.context]

/-- An instruction in its context runs. -/
theorem inContext_of {c : Context} {f : DecRegs → Except Stop DecRegs} {s : State} {d : DecRegs}
    (hs : s.activity = .decoding d) (hc : d.context = some c) : inContext c f s = settle s (f d) := by
  simp [inContext, hs, hc]

theorem exec_of {i : Instr} {s : State} {d : DecRegs} (hs : s.activity = .decoding d)
    (hc : d.context = some i.context) : exec i s = settle s (effect i d) := by
  rw [exec_eq, inContext_of hs hc]

/-- What an instruction that answers a next state can have done: a DECODE runs, the Decoder stands in its context, and it goes
on with new registers or takes an exception. -/
theorem inContext_next {c : Context} {f : DecRegs → Except Stop DecRegs} {s t : State}
    (h : inContext c f s = .next t) :
    ∃ d, s.activity = .decoding d ∧ d.context = some c ∧
      ((∃ d', f d = .ok d' ∧ t = s.setActivity (.decoding d')) ∨ ∃ e, f d = .error (.raised e) ∧ t = raise e s) := by
  unfold inContext at h
  split at h <;> try cases h
  split at h <;> try cases h
  rename_i d hd hc
  refine ⟨d, hd, hc, ?_⟩
  unfold settle at h
  split at h <;> cases h
  · exact .inl ⟨_, ‹_›, rfl⟩
  · exact .inr ⟨_, ‹_›, rfl⟩

theorem exec_next {i : Instr} {s t : State} (h : exec i s = .next t) :
    ∃ d, s.activity = .decoding d ∧ d.context = some i.context ∧
      ((∃ d', effect i d = .ok d' ∧ t = s.setActivity (.decoding d')) ∨
        ∃ e, effect i d = .error (.raised e) ∧ t = raise e s) :=
  inContext_next (exec_eq i s ▸ h)

/-! ### A step -/

theorem step_of_notDue {s : State} (h : s.dueMove = none) : step s = blockStep s.tick := by
  simp [step, h]

theorem step_of_due {s : State} {m : HostMove} (h : s.dueMove = some m) : step s = hostMove m s.popMove := by
  simp [step, h]

/-- What the step of a running DECODE does. -/
theorem step_decoding {s : State} {d : DecRegs} (h : s.dueMove = none) (hs : s.activity = .decoding d) :
    step s =
      match nextInstr s.cfg d with
      | .run i => exec i s.tick
      | .trap e => .next (raise e s.tick)
      | .complete => .next (finish d.okResult s.tick) := by
  rw [step_of_notDue h]
  simp only [blockStep, State.tick_activity, hs, State.tick_cfg] <;> rfl

theorem step_encoding {s : State} {e : EncRegs} (h : s.dueMove = none) (hs : s.activity = .encoding e) :
    step s = .next (stepEncode e s.tick) := by
  rw [step_of_notDue h]
  simp only [blockStep, State.tick_activity, hs]

theorem step_finding {s : State} {f : FindRegs} (h : s.dueMove = none) (hs : s.activity = .finding f) :
    step s = .next (stepFind f s.tick) := by
  rw [step_of_notDue h]
  simp only [blockStep, State.tick_activity, hs]

theorem step_idle {s : State} (h : s.dueMove = none) (hs : s.activity = .idle) : step s = .next s.tick := by
  rw [step_of_notDue h]
  simp only [blockStep, State.tick_activity, hs]

/-- A move of the host that is due changes no register of a running request: it ends the request or leaves it. -/
theorem hostMove_next {m : HostMove} {s t : State} (h : hostMove m s = .next t) :
    t.cfg = s.cfg ∧ ((∃ r, t = startRequest r s) ∨ t.activity = .idle ∧ t.result = none ∨
      t.activity = s.activity ∧ (t.result = s.result ∨ t.result = none)) := by
  cases m with
  | request r al =>
    simp only [hostMove, submit] at h
    split at h <;> cases h
    exact ⟨rfl, .inl ⟨r, rfl⟩⟩
  | reset => cases h; exact ⟨rfl, .inr (.inl ⟨rfl, rfl⟩)⟩
  | readField f =>
    simp only [hostMove, readField] at h
    split at h <;> try cases h
    split at h <;> cases h
    exact ⟨rfl, .inr (.inr ⟨rfl, .inl rfl⟩)⟩
  | takeResult =>
    simp only [hostMove, takeResult] at h
    split at h <;> cases h
    exact ⟨rfl, .inr (.inr ⟨rfl, .inr rfl⟩)⟩

/-- Every move but a reset is due only on an idle block. -/
theorem idle_of_due {s : State} {m : HostMove} (h : s.dueMove = some m) (hm : m ≠ .reset) : s.activity = .idle := by
  unfold State.dueMove at h
  split at h
  · split at h
    · rename_i hland
      cases h
      cases m with
      | reset => exact absurd rfl hm
      | request r al => simpa only [HostMove.canLand, decide_eq_true_eq] using hland
      | readField f => simpa only [HostMove.canLand, decide_eq_true_eq] using hland
      | takeResult => simpa only [HostMove.canLand, decide_eq_true_eq] using hland
    · cases h
  · cases h

/-- A request is due only on an idle block. -/
theorem idle_of_request_due {s : State} {r : Request} {al : Bool} (h : s.dueMove = some (.request r al)) :
    s.activity = .idle :=
  idle_of_due h (by simp)

end Sys2Proof.Machine
end

