-- ==== Sys2Proof/Laws/Encoder.lean ====
section
/-! SUPPORT. The parts of the Match Finder and of the Encoder: match lengths, examining a candidate, usable matches, the flags of
a control byte, and adding a unit to a group. -/

namespace Sys2Proof.Machine

/-- The match length never exceeds the cap. -/
theorem matchLen_le (src : Memory) (cap q p : Nat) : matchLen src cap q p ≤ cap := by
  induction cap generalizing q p with
  | zero => simp [matchLen]
  | succ n ih =>
    unfold matchLen
    split
    · split
      · have := ih (q + 1) (p + 1); omega
      · omega
    · omega

/-- The bytes within the match length agree. -/
theorem matchLen_agree (src : Memory) (cap q p : Nat) :
    ∀ i, i < matchLen src cap q p → src[q + i]? = src[p + i]? := by
  induction cap generalizing q p with
  | zero => simp [matchLen]
  | succ n ih =>
    intro i hi
    unfold matchLen at hi
    split at hi
    · rename_i a b ha hb
      split at hi
      · rename_i hab
        rcases i with _ | i
        · simp only [Nat.add_zero]; exact ha.trans (by rw [hab]; exact hb.symm)
        · have := ih (q + 1) (p + 1) i (by omega)
          rw [show q + (i + 1) = q + 1 + i by omega, show p + (i + 1) = p + 1 + i by omega]
          exact this
      · omega
    · omega

/-- Examining a candidate answers the best so far or the candidate, strictly longer and allowed. -/
theorem examine_cases (src : Memory) (p cap : Nat) (v : Bool) (d : Nat) (best : Found) :
    (examine src p cap v d best = best ∧
      (excluded v d = true ∨ matchLen src cap (p - d) p ≤ best.len)) ∨
    (examine src p cap v d best = { disp := d, len := matchLen src cap (p - d) p } ∧ excluded v d = false ∧
      best.len < matchLen src cap (p - d) p) := by
  unfold examine
  split
  · exact .inl ⟨rfl, .inl ‹_›⟩
  · simp only
    split
    · exact .inr ⟨rfl, by simpa using ‹¬ excluded v d = true›, ‹_›⟩
    · exact .inl ⟨rfl, .inr (by omega)⟩

theorem examine_le {src : Memory} {p cap d : Nat} {v : Bool} {m : Found} (h : m.len ≤ cap) :
    (examine src p cap v d m).len ≤ cap := by
  rcases examine_cases src p cap v d m with ⟨h', -⟩ | ⟨h', -⟩ <;> rw [h']
  · exact h
  · exact matchLen_le ..

/-- A scan never answers more than the cap. -/
theorem scan_le {src : Memory} {p cap n d : Nat} {v : Bool} {m : Found} (h : m.len ≤ cap) :
    (scan src p cap v n d m).len ≤ cap := by
  induction n generalizing d m with
  | zero => exact h
  | succ n ih =>
    unfold scan
    simp only
    split
    · exact examine_le h
    · exact ih (examine_le h)

/-- A usable match is long enough, expressible, and ends in the source. -/
theorem usableMatch_some {src : Memory} {mode : Mode} {v : Bool} {p : Nat} {m : Found}
    (h : usableMatch src mode v p = some m) :
    minMatch ≤ m.len ∧ m.len ≤ maxLen mode ∧ m.len ≤ src.length - p := by
  unfold usableMatch query find foundOf at h
  have hle := scan_le (src := src) (p := p) (cap := findCap src p (maxLen mode)) (v := v) (n := min window p) (d := 1)
    (m := ⟨0, 0⟩) (Nat.zero_le _)
  split at h
  · cases h
  · rename_i hm
    split at hm <;> cases hm
    split at h <;> cases h
    simp only [findCap] at *
    omega

/-- What is committed is usable, and not at the first byte. -/
theorem committed_some {c : Config} {src : Memory} {mode : Mode} {v : Bool} {p : Nat} {m : Found}
    (h : committed c src mode v p = some m) : p ≠ 0 ∧ usableMatch src mode v p = some m := by
  unfold committed at h
  split at h
  · cases h
  · split at h
    · cases h
    · split at h <;> cases h
      exact ⟨‹_›, ‹_›⟩

/-- A turn of the Encoder emits a literal or commits a match. -/
theorem encodeUnit_cases (c : Config) (b : Byte) (e : EncRegs) :
    (committed c e.src e.mode e.vramSafe e.ep = none ∧ encodeUnit c b e = e.emitLiteral b) ∨
      ∃ m, committed c e.src e.mode e.vramSafe e.ep = some m ∧ encodeUnit c b e = e.emitMatch c m := by
  unfold encodeUnit
  split
  · exact .inl ⟨‹_›, rfl⟩
  · exact .inr ⟨_, ‹_›, rfl⟩

/-- A match unit is at most 4 bytes long. -/
theorem encodeMatch_length_le (c : Config) (mode : Mode) (m : Found) : (encodeMatch c mode m).length ≤ 4 := by
  unfold encodeMatch matchUnit
  cases mode
  · simp [encode]
  · simp only
    split
    · simp [encode]
    · split <;> simp [encode]

/-- Setting the flag of unit `k` touches bit `7 − k` alone. -/
theorem setFlag_bit (ctrl : Byte) (k : Nat) (f : Bool) (j : Nat) (hk : k < 8) (hj : j < 8) :
    (setFlag ctrl k f).getLsbD (7 - j) = (ctrl.getLsbD (7 - j) || (f && decide (j = k))) := by
  unfold setFlag flagMask
  cases f
  · simp
  · simp only [if_true, BitVec.getLsbD_or, Bool.true_and]
    congr 1
    interval_cases k <;> interval_cases j <;> rfl

theorem flagMask_toNat {k : Nat} (h : k < 8) : (flagMask k).toNat = 2 ^ (7 - k) := by
  unfold flagMask
  interval_cases k <;> rfl

/-- Adding a unit: the group waits with one unit more, or is written and a new one begins. -/
theorem addUnit_cases (f : Bool) (bs : Bytes) (k : Packer) :
    (k.eucnt + 1 ≠ group ∧ k.addUnit f bs =
      { k with ectrl := setFlag k.ectrl k.eucnt f, eucnt := k.eucnt + 1, eunits := k.eunits ++ bs }) ∨
    (k.eucnt + 1 = group ∧ k.addUnit f bs =
      Packer.start (k.out ++ setFlag k.ectrl k.eucnt f :: (k.eunits ++ bs))) := by
  unfold Packer.addUnit
  simp only
  split
  · refine .inr ⟨‹_›, ?_⟩
    simp [Packer.flush, append, List.append_assoc]
  · exact .inl ⟨‹_›, rfl⟩

/-- The padding fills up to a multiple of 4. -/
theorem length_padding (m : Memory) : (m ++ padding m).length % padAlign = 0 := by
  simp [padding, padAlign]
  omega

end Sys2Proof.Machine
end

