-- ==== Sys2Proof/Laws/Fetch.lean ====
section
/-! SUPPORT. What fetching can give and what one step of a running DECODE can do, said once; when a move of the host is due. -/

namespace Sys2Proof.Machine

/-- A move that is due is the first of the queue, and its time has come. -/
theorem dueMove_some {s : State} {m : HostMove} (h : s.dueMove = some m) :
    ∃ rest, s.moves = ⟨0, m⟩ :: rest ∧ m.canLand s = true := by
  unfold State.dueMove at h
  split at h
  · split at h
    · cases h; exact ⟨_, ‹_›, ‹_›⟩
    · cases h
  · cases h

theorem dueMove_of_moves {s : State} {m : HostMove} {rest : List Pending} (h : s.moves = ⟨0, m⟩ :: rest)
    (hc : m.canLand s = true) : s.dueMove = some m := by
  unfold State.dueMove
  rw [h]
  simp [hc]

/-- What decodes takes its size of the bytes, and stands in the context it was decoded in. -/
theorem decodeIn_instr {c : Config} {ctx : Context} {bs : Bytes} {i : Instr} {rest : Bytes}
    (h : decodeIn c ctx bs = .instr i rest) : bs.length = i.size + rest.length ∧ i.context = ctx := by
  match ctx, bs with
  | .header, [] | .header, [_] | .header, [_, _] | .header, [_, _, _] => simp [decodeIn, decodeHeader] at h
  | .header, b0 :: b1 :: b2 :: b3 :: more =>
    simp only [decodeIn, decodeHeader] at h
    split at h
    · cases h; simp [Instr.size, Instr.context]; omega
    · split at h <;> cases h; simp [Instr.size, Instr.context]; omega
  | .control, [] => simp [decodeIn] at h
  | .control, b :: more => cases h; simp [Instr.context, Instr.size]; omega
  | .literal, [] => simp [decodeIn] at h
  | .literal, b :: more => cases h; simp [Instr.context, Instr.size]; omega
  | .backRef .lz10, [] | .backRef .lz10, [_] => simp [decodeIn, decodeMatch10] at h
  | .backRef .lz10, b0 :: b1 :: more => cases h; simp [Instr.context, Instr.size]; omega
  | .backRef .lz11, [] => simp [decodeIn, decodeMatch11] at h
  | .backRef .lz11, b0 :: more =>
    simp only [decodeIn, decodeMatch11] at h
    split at h
    · split at h <;> cases h; simp [Instr.size, Instr.context]; omega
    · split at h
      · split at h <;> cases h; simp [Instr.size, Instr.context]; omega
      · split at h <;> cases h; simp [Instr.size, Instr.context]; omega

/-- An instruction that goes on moves `IPOS` past itself and leaves the operands of the request alone. -/
theorem effect_ok {i : Instr} {d d' : DecRegs} (h : effect i d = .ok d') :
    d'.cin = d.cin ∧ d'.vramSafe = d.vramSafe ∧
      d'.ipos = if i.context = .header then 4 else d.ipos + i.size := by
  rcases hm : matchOperands i with _ | m
  · cases i <;> simp_all [matchOperands, effect, Instr.context, Instr.size] <;> subst h <;> simp
  · rw [effect_match hm] at h
    obtain ⟨mode, hc⟩ := context_of_matchOperands hm
    obtain ⟨_, _, _, rfl⟩ := execMatch_ok h
    simp [hc]

/-- What the Decoder does next, by where it stands and what the bytes ahead decode to. -/
theorem nextInstr_run {c : Config} {d : DecRegs} {i : Instr} (h : nextInstr c d = .run i) :
    ∃ rest, decodeIn c i.context d.ahead = .instr i rest ∧ d.context = some i.context := by
  unfold nextInstr at h
  split at h
  · cases h
  · rename_i ctx hctx
    unfold fetchIn at h
    split at h <;> cases h
    rename_i rest hdec
    have := (decodeIn_instr hdec).2
    subst this
    exact ⟨rest, hdec, hctx⟩

theorem nextInstr_complete {c : Config} {d : DecRegs} : nextInstr c d = .complete ↔ d.context = none := by
  unfold nextInstr
  split
  · simp_all
  · unfold fetchIn
    split <;> simp_all

/-- What a step of a running DECODE that goes on can have done: run an instruction, take its exception or the fetch's, or
complete the request. -/
theorem step_decoding_next {s t : State} {d : DecRegs} (hd : s.dueMove = none) (hs : s.activity = .decoding d)
    (hst : step s = .next t) :
    (∃ i rest d', decodeIn s.cfg i.context d.ahead = .instr i rest ∧ d.context = some i.context ∧ effect i d = .ok d' ∧
      t = s.tick.setActivity (.decoding d')) ∨
    (∃ i rest e, decodeIn s.cfg i.context d.ahead = .instr i rest ∧ d.context = some i.context ∧
      effect i d = .error (.raised e) ∧ t = raise e s.tick) ∨
    (∃ e, nextInstr s.cfg d = .trap e ∧ t = raise e s.tick) ∨
    (d.context = none ∧ t = finish d.okResult s.tick) := by
  rw [step_decoding hd hs] at hst
  split at hst
  · rename_i i hi
    obtain ⟨rest, hdec, hctx⟩ := nextInstr_run hi
    obtain ⟨d1, hs1, -, ⟨d2, he, rfl⟩ | ⟨e, he, rfl⟩⟩ := exec_next hst
    · rw [State.tick_activity, hs] at hs1; cases hs1
      exact .inl ⟨i, rest, d2, hdec, hctx, he, rfl⟩
    · rw [State.tick_activity, hs] at hs1; cases hs1
      exact .inr (.inl ⟨i, rest, e, hdec, hctx, he, rfl⟩)
  · cases hst; exact .inr (.inr (.inl ⟨_, ‹_›, rfl⟩))
  · cases hst; exact .inr (.inr (.inr ⟨nextInstr_complete.1 ‹_›, rfl⟩))

end Sys2Proof.Machine
end

