-- ==== Sys2Proof/Laws/PerInstr.lean ====
section
/-! SUPPORT. A statement for every instruction, one lemma per constructor: the encoding has the length the table gives
(30_encoding.md R74, R89), whatever the tags. -/

namespace Sys2Proof.Laws

/-- The encoding of `i` is as long as its row of the table says. -/
def EncodedSize.Statement (i : Sys2Proof.Instr) : Prop :=
  ∀ c : Sys2Proof.Config, (Sys2Proof.encode c i).length = i.size

theorem EncodedSize.hdrLz10 (size : BitVec 24) : EncodedSize.Statement (.hdrLz10 size) := fun _ => rfl

theorem EncodedSize.hdrLz11 (size : BitVec 24) : EncodedSize.Statement (.hdrLz11 size) := fun _ => rfl

theorem EncodedSize.ctrl (flags : Sys2Proof.Byte) : EncodedSize.Statement (.ctrl flags) := fun _ => rfl

theorem EncodedSize.lit (byte : Sys2Proof.Byte) : EncodedSize.Statement (.lit byte) := fun _ => rfl

theorem EncodedSize.match10 (l : BitVec 4) (f : BitVec 12) : EncodedSize.Statement (.match10 l f) := fun _ => rfl

theorem EncodedSize.match11_2 (t : BitVec 4) (f : BitVec 12) : EncodedSize.Statement (.match11_2 t f) := fun _ => rfl

theorem EncodedSize.match11_3 (l : BitVec 8) (f : BitVec 12) : EncodedSize.Statement (.match11_3 l f) := fun _ => rfl

theorem EncodedSize.match11_4 (l : BitVec 16) (f : BitVec 12) : EncodedSize.Statement (.match11_4 l f) := fun _ => rfl

end Sys2Proof.Laws
end

