-- ==== Sys2Proof/Laws/Run.lean ====
section
/-! SUPPORT. Runs of the machine: how `RunsTo` is built step by step, and that it speaks of the host's own run. -/

namespace Sys2Proof.Machine

theorem RunsTo.refl (s : State) : RunsTo s s := ⟨0, rfl⟩

/-- A step, then a run. -/
theorem RunsTo.head {s t u : State} (h : step s = .next t) (hr : RunsTo t u) : RunsTo s u := by
  obtain ⟨k, hk⟩ := hr
  exact ⟨k + 1, by simp only [runSteps, h, hk]⟩

theorem RunsTo.single {s t : State} (h : step s = .next t) : RunsTo s t := .head h (.refl t)

/-- A run, then a run. -/
theorem RunsTo.trans {s t u : State} (h : RunsTo s t) (hr : RunsTo t u) : RunsTo s u := by
  obtain ⟨k, hk⟩ := h
  induction k generalizing s with
  | zero => cases hk; exact hr
  | succ k ih =>
    simp only [runSteps] at hk
    split at hk
    · exact .head ‹_› (ih hk)
    · cases hk
    · cases hk

/-- One step of the host's run, by the step's outcome. -/
theorem core_run_succ (M : Host.Core) (k : Nat) (s : M.State) :
    (∀ t, M.step s = .next t → M.run (k + 1) s = M.run k t) ∧
      (∀ r, M.step s = .fault r → M.run (k + 1) s = .fault r) ∧
      ∀ r, M.step s = .refused r → M.run (k + 1) s = .refused r := by
  refine ⟨?_, ?_, ?_⟩ <;> intro x h <;> rw [Host.Core.run, h]

/-- `runSteps` is the host's run of the machine behind its interface. -/
theorem runSteps_eq_core (k : Nat) (s : State) : runSteps k s = Host.Core.run Sys2Proof.core k s := by
  induction k generalizing s with
  | zero => rfl
  | succ k ih =>
    obtain ⟨hn, hf, hr⟩ := core_run_succ Sys2Proof.core k s
    cases h : step s with
    | next t => exact (show runSteps (k + 1) s = runSteps k t by simp only [runSteps, h]).trans ((ih t).trans (hn t h).symm)
    | fault r => exact (show runSteps (k + 1) s = .fault r by simp only [runSteps, h]).trans (hf r h).symm
    | refused r => exact (show runSteps (k + 1) s = .refused r by simp only [runSteps, h]).trans (hr r h).symm

/-! ### The host's side of a run -/

/-- A step of the block brings the coming moves one step nearer. -/
theorem State.tick_eq_nearer (s : State) : s.tick = s.nearer 1 := by
  unfold State.tick State.nearer
  split
  · rename_i h
    simp [h, Machine.nearer]
  · rename_i h
    match hm : s.moves with
    | [] => exact (congrArg (fun m => { s with moves := m }) hm)
    | ⟨0, m⟩ :: rest => exact (congrArg (fun m => { s with moves := m }) hm)
    | ⟨k + 1, m⟩ :: rest => exact absurd hm (h k m rest)

theorem nearer_zero (moves : List Pending) : nearer 0 moves = moves := by
  cases moves <;> rfl

theorem nearer_nearer (j k : Nat) (moves : List Pending) : nearer k (nearer j moves) = nearer (j + k) moves := by
  cases moves <;> simp [nearer, Nat.sub_sub]

theorem State.nearer_nearer (j k : Nat) (s : State) : (s.nearer j).nearer k = s.nearer (j + k) := by
  simp [State.nearer, Machine.nearer_nearer]

theorem State.nearer_zero (s : State) : s.nearer 0 = s := by
  simp [State.nearer, Machine.nearer_zero]

@[simp] theorem State.nearer_cfg (k : Nat) (s : State) : (s.nearer k).cfg = s.cfg := rfl
@[simp] theorem State.nearer_activity (k : Nat) (s : State) : (s.nearer k).activity = s.activity := rfl
@[simp] theorem State.nearer_result (k : Nat) (s : State) : (s.nearer k).result = s.result := rfl
@[simp] theorem State.nearer_moves (k : Nat) (s : State) : (s.nearer k).moves = Machine.nearer k s.moves := rfl
@[simp] theorem State.nearer_received (k : Nat) (s : State) : (s.nearer k).received = s.received := rfl
@[simp] theorem State.nearer_reads (k : Nat) (s : State) : (s.nearer k).reads = s.reads := rfl

/-- Inside a request no move is due while no reset is. -/
theorem dueMove_of_running {s : State} (h : s.activity ≠ .idle) (hr : NoResetWithin 1 s.moves) : s.dueMove = none := by
  match hd : s.dueMove with
  | none => rfl
  | some m =>
    by_cases hm : m = .reset
    · subst hm
      unfold State.dueMove at hd
      split at hd
      · rename_i hmoves
        split at hd
        · cases hd
          have := hr _ _ hmoves
          omega
        · cases hd
      · cases hd
    · exact absurd (idle_of_due hd hm) h

theorem NoResetWithin.mono {j k : Nat} {moves : List Pending} (h : NoResetWithin k moves) (hjk : j ≤ k) :
    NoResetWithin j moves := fun _ _ hm => Nat.le_trans hjk (h _ _ hm)

theorem NoResetWithin.nearer {j k : Nat} {moves : List Pending} (h : NoResetWithin (j + k) moves) :
    NoResetWithin k (nearer j moves) := by
  intro i rest hm
  match moves, hm with
  | ⟨a, m⟩ :: rest', hm =>
    simp only [Machine.nearer, List.cons.injEq, Pending.mk.injEq] at hm
    obtain ⟨⟨rfl, rfl⟩, rfl⟩ := hm
    have := h a rest' rfl
    omega

/-- One step of the block inside a request that is not reset, then the run from there. -/
theorem runSteps_running {k : Nat} {a : Activity} {s t : State} (ha : a ≠ .idle) (hr : NoResetWithin (k + 1) s.moves)
    (h : blockStep ((s.nearer 1).setActivity a) = .next t) : runSteps (k + 1) (s.setActivity a) = runSteps k t := by
  have hd : (s.setActivity a).dueMove = none := dueMove_of_running ha (hr.mono (by omega))
  have ht : (s.setActivity a).tick = (s.nearer 1).setActivity a := State.tick_eq_nearer _
  simp only [runSteps, step_of_notDue hd, ht, h]

/-- On a quiet machine that starts a request no move is due, and a step changes nothing but the block. -/
theorem Quiet.dueMove {s : State} (h : s.Quiet) (a : Activity) : (s.setActivity a).dueMove = none :=
  State.dueMove_of_moves_nil h.2

theorem Quiet.tick {s : State} (h : s.Quiet) (a : Activity) : (s.setActivity a).tick = s.setActivity a :=
  State.tick_of_moves_nil h.2

/-- Ending a request forgets which activity ran. -/
@[simp] theorem finish_setActivity (r : Result) (a : Activity) (s : State) : finish r (s.setActivity a) = finish r s := rfl

@[simp] theorem raise_setActivity (e : Err) (a : Activity) (s : State) : raise e (s.setActivity a) = raise e s := rfl

@[simp] theorem setActivity_setActivity (a b : Activity) (s : State) :
    (s.setActivity a).setActivity b = s.setActivity b := rfl

end Sys2Proof.Machine
end

