-- ==== Sys2Proof/Tests/Slice0.lean ====
section
/-! SUPPORT. The model's own tests. Expected values are the spec's: the layouts of 30_encoding.md, the examples of 42_decoder.md
and 43_header_codec.md, the vectors of 95_test_vectors.md (V-…, P1 to P4), each named at its test. Then, for every statement with
hypotheses, a witness: a concrete state and operands that meet them, one for each clause where there are several. -/

namespace Sys2Proof.Tests

open Sys2Proof Sys2Proof.Machine

/-! ### Helpers -/

/-- A DECODE that has read its header. -/
def regs (mode : Mode) (cin : Bytes) (ipos : Nat) (flags : Byte) (cnt dn : Nat) (out : Bytes) : DecRegs :=
  { cin := cin, vramSafe := false, ipos := ipos, dmode := mode, dn := dn, produced := out.length, dflags := flags,
    dfcnt := cnt, warnLen := false, warnVram := false, out := out }

/-- The machine after reset, with that activity. -/
def doing (a : Activity) : State := State.reset.setActivity a

/-- A running DECODE. -/
def running (d : DecRegs) : State := doing (.decoding d)

/-- The machine after reset, with host moves coming. -/
def facing (moves : List Pending) : State := { State.reset with moves := moves }

/-- The next state, if there is one. -/
def nextOf : Host.Outcome State Fault Refusal → Option State
  | .next s => some s
  | .fault _ => none
  | .refused _ => none

/-- The Decoder's registers of the next state, if it still decodes. -/
def decOf (o : Host.Outcome State Fault Refusal) : Option DecRegs :=
  match nextOf o with
  | none => none
  | some s =>
    match s.activity with
    | .decoding d => some d
    | .idle => none
    | .finding _ => none
    | .encoding _ => none

/-- The result record of the next state, if the block is idle in it. -/
def resultOf (o : Host.Outcome State Fault Refusal) : Option Result :=
  match nextOf o with
  | none => none
  | some s => if s.activity = .idle then s.result else none

/-! ### WellFormed: each check refuses an ill-formed term (30_encoding.md R78) -/

theorem test_wellFormed_refuses_nibble_0 : (Instr.match11_2 0 0x123).wellFormed = false := by decide

theorem test_wellFormed_refuses_nibble_1 : (Instr.match11_2 1 0x123).wellFormed = false := by decide

theorem test_wellFormed_accepts_nibble_2 : (Instr.match11_2 2 0x123).wellFormed = true := by decide

/-! ### Decode: words written out bit by bit from 30_encoding.md -/

/-- R71: the tag, then N = 0x563412 little-endian. -/
theorem test_decode_hdrLz10 : decodeIn Config.defaults .header
    [0b00010000#8, 0b00010010#8, 0b00110100#8, 0b01010110#8] = .instr (.hdrLz10 0x563412) [] := by decide

theorem test_decode_hdrLz11 : decodeIn Config.defaults .header
    [0b00010001#8, 0b00010010#8, 0b00110100#8, 0b01010110#8] = .instr (.hdrLz11 0x563412) [] := by decide

theorem test_decode_ctrl : decodeIn Config.defaults .control [0b01000001#8, 0xEE] =
    .instr (.ctrl 0b01000001#8) [0xEE] := by decide

theorem test_decode_lit : decodeIn Config.defaults .literal [0b10010110#8] = .instr (.lit 0b10010110#8) [] := by decide

/-- R76: LLLLFFFF FFFFFFFF. -/
theorem test_decode_match10 : decodeIn Config.defaults (.backRef .lz10) [0b10110010#8, 0b01000111#8] =
    .instr (.match10 0b1011#4 0b001001000111#12) [] := by decide

/-- R78: TTTTFFFF FFFFFFFF, T at least 2. -/
theorem test_decode_match11_2 : decodeIn Config.defaults (.backRef .lz11) [0b00100010#8, 0b01000111#8] =
    .instr (.match11_2 0b0010#4 0b001001000111#12) [] := by decide

/-- R79: 0000LLLL LLLLFFFF FFFFFFFF. -/
theorem test_decode_match11_3 : decodeIn Config.defaults (.backRef .lz11) [0b00001011#8, 0b01100010#8, 0b01000111#8] =
    .instr (.match11_3 0b10110110#8 0b001001000111#12) [] := by decide

/-- R80: 0001LLLL LLLLLLLL LLLLFFFF FFFFFFFF. -/
theorem test_decode_match11_4 : decodeIn Config.defaults (.backRef .lz11)
    [0b00011011#8, 0b01101001#8, 0b11000010#8, 0b01000111#8] =
      .instr (.match11_4 0b1011011010011100#16 0b001001000111#12) [] := by decide

/-- R83, V-DEC-9: the one illegal encoding. -/
theorem test_decode_badTag : decodeIn Config.defaults .header [0x20, 0, 0, 0] = .badTag 0x20 := by decide

/-- V-HDR-7: the length is checked before the tag. -/
theorem test_decode_short : decodeIn Config.defaults .header [0x30, 0] = .short := by decide

/-- V-ENC-16: `match 1, 273` is `10 00 00 00`; V-ENC-15: `match 1, 272` is `0F F0 00`. -/
theorem test_encodeMatch_forms : encodeMatch Config.defaults .lz11 { disp := 1, len := 273 } = [0x10, 0, 0, 0] ∧
    encodeMatch Config.defaults .lz11 { disp := 1, len := 272 } = [0x0F, 0xF0, 0] := by decide

/-- V-ENC-13: `match 1, 16` is `F0 00`; V-ENC-14: `match 1, 17` is `00 00 00`. -/
theorem test_encodeMatch_forms2 : encodeMatch Config.defaults .lz11 { disp := 1, len := 16 } = [0xF0, 0] ∧
    encodeMatch Config.defaults .lz11 { disp := 1, len := 17 } = [0, 0, 0] := by decide

/-- The table's numbering: `LLLLFFFFFFFFFFFF`, byte 0 leftmost (opcode_table.json). -/
theorem test_tableWord : decodeTableWord 16 0x1234 = some (.match10 0x1 0x234) := by decide

/-! ### One step per instruction -/

/-- 43_header_codec.md: `10 14 00 00` is (LZ10, 20). -/
theorem test_step_hdrLz10 : (decOf (step (running (DecRegs.start [0x10, 0x14, 0, 0] true)))).map
    (fun d => (d.dmode, d.dn, d.ipos, d.vramSafe)) = some (.lz10, 20, 4, true) := by decide

/-- V-HDR-4: `11 12 01 01` is (LZ11, 65810), little-endian. -/
theorem test_step_hdrLz11 : (decOf (step (running (DecRegs.start [0x11, 0x12, 0x01, 0x01] false)))).map
    (fun d => (d.dmode, d.dn, d.ipos)) = some (.lz11, 65810, 4) := by decide

/-- 42_decoder.md R155: the byte 0x40. -/
theorem test_step_ctrl : decOf (step (running (regs .lz10 [0x10, 9, 0, 0, 0x40] 4 0 0 9 []))) =
    some (regs .lz10 [0x10, 9, 0, 0, 0x40] 5 0x40 8 9 []) := by decide

/-- 42_decoder.md R157: `41` is appended; the flag is shifted out. -/
theorem test_step_lit : decOf (step (running (regs .lz10 [0x10, 9, 0, 0, 0x40, 0x41] 5 0x40 8 9 []))) =
    some (regs .lz10 [0x10, 9, 0, 0, 0x40, 0x41] 6 0x80 7 9 [0x41]) := by decide

/-- 42_decoder.md R158: after `41 42 43`, `60 02` appends `41 42 43` three times. -/
theorem test_step_match10 : (decOf (step (running
      (regs .lz10 [0x10, 12, 0, 0, 0x10, 0x41, 0x42, 0x43, 0x60, 0x02] 8 0x80 5 12 [0x41, 0x42, 0x43])))).map
    (fun d => (d.out, d.ipos, d.dfcnt)) = some
      ([0x41, 0x42, 0x43, 0x41, 0x42, 0x43, 0x41, 0x42, 0x43, 0x41, 0x42, 0x43], 10, 4) := by decide

/-- V-DEC-1: the match of length 4 is cut to 3, with the warning. -/
theorem test_step_match10_truncated : (decOf (step (running (regs .lz10 [0x10, 4, 0, 0, 0x40, 0x41, 0x10, 0] 6 0x80 7 4 [0x41])))).map
    (fun d => (d.out, d.warnLen, d.warnVram)) = some ([0x41, 0x41, 0x41, 0x41], true, false) := by decide

/-- V-DEC-5: the smallest `T = 2` has length 3. -/
theorem test_step_match11_2 : (decOf (step (running (regs .lz11 [0x11, 4, 0, 0, 0x40, 0x41, 0x20, 0] 6 0x80 7 4 [0x41])))).map
    (fun d => (d.out, d.ipos, d.warnLen)) = some ([0x41, 0x41, 0x41, 0x41], 8, false) := by decide

/-- V-DEC-6: `00 10 00` has length 18. -/
theorem test_step_match11_3 : (decOf (step (running
      (regs .lz11 [0x11, 0x13, 0, 0, 0x40, 0x41, 0x00, 0x10, 0x00] 6 0x80 7 19 [0x41])))).map
    (fun d => (d.out, d.ipos, d.warnLen)) = some (List.replicate 19 0x41, 9, false) := by decide

/-- V-ENC-16 decoded: `10 00 00 00` has length 273. -/
theorem test_step_match11_4 : (decOf (step (running
      (regs .lz11 [0x11, 0x12, 0x01, 0, 0x40, 0, 0x10, 0, 0, 0] 6 0x80 7 274 [0])))).map
    (fun d => (d.out.length, d.ipos, d.warnLen)) = some (274, 10, false) := by decide +kernel

/-- V-DEC-4: `d = PRODUCED = 2` is legal. -/
theorem test_match_at_start : (decOf (exec (.match10 0 1) (running
      (regs .lz10 [0x10, 5, 0, 0, 0x20, 0x41, 0x42, 0, 1] 7 0x80 6 5 [0x41, 0x42])))).map (fun d => d.out) =
    some [0x41, 0x42, 0x41, 0x42, 0x41] := by decide

/-- V-SRC-4: `d = 1` with `PRODUCED = 0` raises with `u = 5`. -/
theorem test_outOfRange : resultOf (step (running (regs .lz10 [0x10, 3, 0, 0, 0x80, 0, 0] 5 0x80 8 3 []))) =
    some (.error (.outOfRangeBackReference 5 1 0)) := by decide

/-- V-DEC-13: a match cut after its first byte fails at index 7. -/
theorem test_truncated : resultOf (step (running (regs .lz10 [0x10, 4, 0, 0, 0x40, 0x41, 0x10] 6 0x80 7 4 [0x41]))) =
    some (.error (.truncatedInput 7)) := by decide

/-- V-SRC-5: displacement 1 under `VRAM_SAFE`. -/
theorem test_warnVram : (decOf (step (running
      { regs .lz10 [0x10, 5, 0, 0, 0x40, 0x41, 0x10, 0] 6 0x80 7 5 [0x41] with vramSafe := true }))).map
    (fun d => (d.out, d.warnVram)) = some ([0x41, 0x41, 0x41, 0x41, 0x41], true) := by decide

/-! ### FIND and ENCODE -/

/-- V-FIND-1: a tie goes to the nearer. -/
theorem test_find_tie : findRequest [0x41, 0x42, 0x58, 0x41, 0x42, 0x20, 0x41, 0x42] 6 18 4096 false =
    .find (some { disp := 3, len := 2 }) := by decide

/-- V-FIND-2: the only candidate is excluded. -/
theorem test_find_excluded : findRequest [5, 5, 5, 5] 1 18 4096 true = .find none := by decide

/-- V-FIND-15. -/
theorem test_find_invalid : findRequest [0x41, 0x42] 2 18 4096 false = .error (.invalidRequest 2 18 4096 2) := by decide

/-- V-ENC-9: the lazy decision prefers a literal at 5. -/
theorem test_encode_lazy : encodeRequest Config.defaults [0x41, 0x42, 0x43, 0x44, 0x58, 0x41, 0x42, 0x43, 0x44, 0x59] .lz10 false =
    .encode [0x10, 0x0A, 0, 0, 0x02, 0x41, 0x42, 0x43, 0x44, 0x58, 0x41, 0x00, 0x04, 0x59, 0, 0] := by decide +kernel

/-- V-ENC-6: the 9th literal starts a new group. -/
theorem test_encode_groups : encodeRequest Config.defaults [0, 1, 2, 3, 4, 5, 6, 7, 8] .lz10 false =
    .encode [0x10, 9, 0, 0, 0, 0, 1, 2, 3, 4, 5, 6, 7, 0, 8, 0] := by decide +kernel

/-- 30_encoding.md R86, R87; the units of V-ENC-3. -/
theorem test_assemble : assemble Config.defaults [.header .lz10 4, .lit 0x41, .backRef 1 3, .pad] =
    .ok [0x10, 4, 0, 0, 0x40, 0x41, 0, 0] := by rfl

/-! ### Reset and memory -/

theorem test_reset_memory_wf : Memory.wf (State.reset.space .src) = true ∧ Memory.wf (State.reset.space .cin) = true ∧
    Memory.wf (State.reset.space .out) = true := by decide

/-- A DECODE request submitted to the machine after reset reads its header in the second step (log entry 15). -/
theorem test_program_from_reset : (nextOf (step (facing [⟨0, .request (.decode [0x10, 1, 0, 0] false) false⟩]))).map
    (fun s => (decOf (step s)).map (fun d => d.dn)) = some (some 1) := by decide

/-! ### Witnesses: every statement with hypotheses has states and operands that meet them -/

/-- A literal is due, in LZ10; the stream of V-SRC-5. -/
def atLit : DecRegs := regs .lz10 [0x10, 5, 0, 0, 0x40, 0x41, 0x10, 0] 5 0x40 8 5 []

/-- A match is due, in LZ10; the same stream, one step later. -/
def atMatch10 : DecRegs := regs .lz10 [0x10, 5, 0, 0, 0x40, 0x41, 0x10, 0] 6 0x80 7 5 [0x41]

/-- A match is due, in LZ11. -/
def atMatch11 : DecRegs := regs .lz11 [0x11, 4, 0, 0, 0x40, 0x41, 0x20, 0] 6 0x80 7 4 [0x41]

/-- A control byte is due. -/
def atCtrl : DecRegs := regs .lz10 [0x10, 5, 0, 0, 0x40] 4 0 0 5 []

/-- The output is complete (V-DEC-2: `43` is never read). -/
def atEnd : DecRegs := regs .lz10 [0x10, 2, 0, 0, 0, 0x41, 0x42, 0x43] 7 0 6 2 [0x41, 0x42]

/-- An ENCODE of `src` that has written the header, at `ep`. -/
def encAt (src : Bytes) (ep : Nat) (pk : Packer) : EncRegs :=
  { src := src, mode := .lz10, vramSafe := false, ep := ep,
    pk := { pk with out := writeHeader Config.defaults .lz10 src.length ++ pk.out } }

/-- The source of V-ENC-9. -/
def abcd : Bytes := [0x41, 0x42, 0x43, 0x44, 0x58, 0x41, 0x42, 0x43, 0x44, 0x59]

theorem witness_DecodeOfEncode : Config.defaults.WF ∧ (Instr.match11_2 2 0xFFF).WF ∧ (Instr.match11_4 0xFFFF 0).WF := by decide

theorem witness_EncodeOfDecode :
    decodeIn Config.defaults (.backRef .lz11) [0x20, 0, 7] = .instr (.match11_2 2 0) [7] := by decide

theorem witness_OnlyAnUnknownTagIsIllegal : 3 ≤ [(0 : Byte), 0, 0].length ∧
    decodeIn Config.defaults .header (0x12 :: [0, 0, 0]) = .badTag 0x12 ∧
    decodeIn Config.defaults .header (0x11 :: [0, 0, 0]) = .instr (.hdrLz11 0) [] := by decide

theorem witness_EveryMatchHasOneForm :
    matchOperands (.match10 15 0xFFF) = some { disp := 4096, len := 18 } ∧
    matchOperands (.match11_2 2 0) = some { disp := 1, len := 3 } ∧
    matchOperands (.match11_2 15 0) = some { disp := 1, len := 16 } ∧
    matchOperands (.match11_3 0 0) = some { disp := 1, len := 17 } ∧
    matchOperands (.match11_3 255 0) = some { disp := 1, len := 272 } ∧
    matchOperands (.match11_4 0 0) = some { disp := 1, len := 273 } ∧
    matchOperands (.match11_4 0xFFFF 0) = some { disp := 1, len := 65808 } := by decide

/-- The boundary lengths of the four clauses, at the boundary displacements. -/
theorem witness_MatchBytesAreTheFormulas :
    encodeMatch Config.defaults .lz10 { disp := 4096, len := 3 } = [0x0F, 0xFF] ∧
    encodeMatch Config.defaults .lz10 { disp := 1, len := 18 } = [0xF0, 0x00] ∧
    encodeMatch Config.defaults .lz11 { disp := 4096, len := 3 } = [0x2F, 0xFF] ∧
    encodeMatch Config.defaults .lz11 { disp := 4096, len := 17 } = [0x00, 0x0F, 0xFF] ∧
    encodeMatch Config.defaults .lz11 { disp := 4096, len := 65808 } = [0x1F, 0xFF, 0xFF, 0xFF] := by decide

theorem witness_HeaderRoundTrip : Config.defaults.WF ∧ 0xFFFFFF ≤ maxSize ∧
    writeHeader Config.defaults .lz11 0xFFFFFF = [0x11, 0xFF, 0xFF, 0xFF] := by decide

theorem witness_StepRunsTheDecodedInstruction : (running atLit).dueMove = none ∧
    (running atLit).activity = .decoding atLit ∧ atLit.context = some .literal ∧
    decodeIn (running atLit).cfg .literal (atLit.cin.drop atLit.ipos) = .instr (.lit 0x41) [0x10, 0] := by decide

/-- V-DEC-10, V-DEC-9 and the two tags. -/
theorem witness_HeaderStep :
    resultOf (step (running (DecRegs.start [0x10, 0, 0] false))) = some (.error (.truncatedInput 3)) ∧
    resultOf (step (running (DecRegs.start [0x20, 0, 0, 0] false))) = some (.error (.badHeader 0x20)) ∧
    (decOf (step (running (DecRegs.start [0x10, 5, 0, 0, 9] false)))).map (fun d => d.dmode) = some .lz10 ∧
    (decOf (step (running (DecRegs.start [0x11, 5, 0, 0, 9] false)))).map (fun d => d.dmode) = some .lz11 := by decide

/-- A missing control byte (V-DEC-11), a missing literal (V-DEC-12), a missing first byte of an LZ11 match, and matches cut
later: LZ10, and the three LZ11 forms one byte short. -/
theorem witness_MissingByteRaisesTruncatedInput :
    resultOf (step (running (regs .lz10 [0x10, 1, 0, 0] 4 0 0 1 []))) = some (.error (.truncatedInput 4)) ∧
    resultOf (step (running (regs .lz10 [0x10, 5, 0, 0, 0, 0x41, 0x42] 7 0 6 5 [0x41, 0x42]))) =
      some (.error (.truncatedInput 7)) ∧
    resultOf (step (running (regs .lz11 [0x11, 5, 0, 0, 0x80] 5 0x80 8 5 []))) = some (.error (.truncatedInput 5)) ∧
    resultOf (step (running (regs .lz10 [0x10, 5, 0, 0, 0x80, 0] 5 0x80 8 5 []))) = some (.error (.truncatedInput 6)) ∧
    resultOf (step (running (regs .lz11 [0x11, 5, 0, 0, 0x80, 0x20] 5 0x80 8 5 []))) = some (.error (.truncatedInput 6)) ∧
    resultOf (step (running (regs .lz11 [0x11, 5, 0, 0, 0x80, 0, 0] 5 0x80 8 5 []))) = some (.error (.truncatedInput 7)) ∧
    resultOf (step (running (regs .lz11 [0x11, 5, 0, 0, 0x80, 0x10, 0, 0] 5 0x80 8 5 []))) =
      some (.error (.truncatedInput 8)) := by decide

theorem witness_DecodeCompletesAtDeclaredSize : (running atEnd).dueMove = none ∧ atEnd.ipos ≠ 0 ∧
    atEnd.produced = atEnd.dn ∧ resultOf (step (running atEnd)) = some (.decode [0x41, 0x42] false false) := by decide

/-- Every context a table word can be placed in. -/
theorem witness_PlacedWordIsRun : State.reset.cfg = Config.defaults ∧
    decodeTableWord 8 0x40 = some (.ctrl 0x40) ∧ decodeTableWord 16 0xF123 = some (.match11_2 0xF 0x123) ∧
    decodeTableWord 24 0x0AB123 = some (.match11_3 0xAB 0x123) ∧
    decodeTableWord 32 0x102C0100 = some (.hdrLz10 300) ∧
    decodeTableWord 32 0x1ABCD123 = some (.match11_4 0xABCD 0x123) := by decide

theorem witness_HeadersComplete : (running (DecRegs.start [] true)).activity = .decoding (DecRegs.start [] true) ∧
    (DecRegs.start [] true).ipos = 0 := by decide

theorem witness_ControlByteCompletes : (running atCtrl).activity = .decoding atCtrl ∧ atCtrl.ipos ≠ 0 ∧
    atCtrl.produced < atCtrl.dn ∧ atCtrl.dfcnt = 0 := by decide

theorem witness_LiteralCompletes : (running atLit).activity = .decoding atLit ∧ atLit.AtUnit false := by decide

theorem witness_Match10Completes : (running atMatch10).activity = .decoding atMatch10 ∧ atMatch10.AtUnit true ∧
    atMatch10.dmode = .lz10 ∧ atMatch10.out.length = atMatch10.produced ∧
    (0 : BitVec 12).toNat + 1 ≤ atMatch10.produced := by decide

theorem witness_Match11Completes : (running atMatch11).activity = .decoding atMatch11 ∧ atMatch11.AtUnit true ∧
    atMatch11.dmode = .lz11 ∧ atMatch11.out.length = atMatch11.produced ∧
    (0 : BitVec 12).toNat + 1 ≤ atMatch11.produced ∧ 2 ≤ (2 : BitVec 4).toNat := by decide

theorem witness_OutOfRangeMatchRaises : (running atMatch10).activity = .decoding atMatch10 ∧ atMatch10.AtUnit true ∧
    (Instr.match10 0 1).context = .backRef atMatch10.dmode ∧
    matchOperands (.match10 0 1) = some { disp := 2, len := 3 } ∧ atMatch10.produced < 2 := by decide

theorem witness_OverlappingCopyRepeats : 1 ≤ 1 ∧ 1 ≤ atMatch10.produced ∧ atMatch10.out.length = atMatch10.produced ∧
    (copyBytes 1 4 atMatch10).toOption.map (fun d => d.out) = some [0x41, 0x41, 0x41, 0x41, 0x41] := by decide

theorem witness_HeaderAndControlFrame :
    (nextOf (exec (.hdrLz10 5) (running (DecRegs.start [0x10, 5, 0, 0] false)))).isSome = true ∧
    (nextOf (exec (.ctrl 0x40) (running atCtrl))).isSome = true := by decide

theorem witness_LiteralFrame : (nextOf (exec (.lit 0x41) (running atLit))).isSome = true := by decide

theorem witness_MatchFrame : (decOf (exec (.match10 1 0) (running atMatch10))).map (fun d => d.out.length) = some 5 ∧
    (decOf (exec (.match11_2 2 0) (running atMatch11))).map (fun d => d.out.length) = some 4 := by decide

/-- One error of each request (V-FIND-14, V-SRC-4), and the ENCODE that is too large. -/
theorem witness_ErrorsOfEachRequest :
    resultOf (step (doing (.finding (FindRegs.start [0x41, 0x42] 0 18 4096 false)))) =
      some (.error (.invalidRequest 0 18 4096 2)) ∧
    resultOf (step (running (regs .lz10 [0x10, 3, 0, 0, 0x80, 0, 0] 5 0x80 8 3 []))) =
      some (.error (.outOfRangeBackReference 5 1 0)) := by decide

theorem witness_ErrorsOfEachRequest_encode :
    resultOf (step (doing (.encoding (EncRegs.start (List.replicate 0x1000000 0) .lz10 false)))) =
      some (.error (.inputTooLarge 0x1000000)) := by
  have h : maxSize < (List.replicate 0x1000000 (0 : Byte)).length := by
    rw [List.length_replicate]
    decide
  rw [step_encoding (e := EncRegs.start (List.replicate 0x1000000 0) .lz10 false) rfl rfl]
  unfold stepEncode
  rw [if_pos (show (EncRegs.start (List.replicate 0x1000000 0) .lz10 false).pk.out = [] from rfl)]
  rw [if_pos (show maxSize < (EncRegs.start (List.replicate 0x1000000 0) .lz10 false).src.length from h)]
  show some (Result.error (.inputTooLarge (List.replicate 0x1000000 (0 : Byte)).length)) = _
  rw [List.length_replicate]

theorem witness_OutOfContextFaults : ∀ d, State.reset.activity = .decoding d → d.context ≠ some (Instr.lit 0).context :=
  fun _ h => nomatch h

theorem witness_WarningsAreSticky : (decOf (step (running
      { regs .lz10 [0x10, 9, 0, 0, 0x60, 0x41, 0x10, 0, 0x10, 0] 8 0x80 6 9 [0x41, 0x41, 0x41, 0x41, 0x41] with
        vramSafe := true, warnVram := true }))).map (fun d => (d.warnVram, d.out.length)) = some (true, 9) := by decide

/-- A running DECODE, a running ENCODE and a running FIND in the invariant. -/
theorem inv_decoding : (running atMatch10).Inv :=
  { activity := ⟨by decide, by decide, by decide, by decide, by decide, by decide, by decide, by decide, by decide, by decide⟩
    result := fun _ h => nomatch h }

theorem inv_encoding : (doing (.encoding (encAt abcd 0 (Packer.start [])))).Inv :=
  { activity := ⟨by decide, by decide, by decide, by decide, by decide, by decide, by decide⟩
    result := fun _ h => nomatch h }

theorem inv_finding : (doing (.finding (FindRegs.start abcd 5 18 4096 false))).Inv :=
  { activity := ⟨by decide, by decide, by decide, by decide, by decide, by decide, by decide, by decide⟩
    result := fun _ h => nomatch h }

/-- With `inv_decoding`, `inv_encoding` and `inv_finding`: each of them steps to a state where the request goes on. -/
theorem witness_StepKeepsTheInvariant :
    (nextOf (step (running atMatch10))).map (fun t => decide (t.activity = .idle)) = some false ∧
    (nextOf (step (doing (.encoding (encAt abcd 0 (Packer.start [])))))).map (fun t => decide (t.activity = .idle)) =
      some false ∧
    (nextOf (step (doing (.finding (FindRegs.start abcd 5 18 4096 false))))).map (fun t => decide (t.activity = .idle)) =
      some false := by decide

theorem witness_BlockNeverStops : (running atMatch10).Inv ∧ (running atMatch10).dueMove = none := ⟨inv_decoding, by decide⟩

theorem witness_InputsAreStable : (running atMatch10).activity ≠ .idle ∧
    (decOf (step (running atMatch10))).isSome = true := by decide

/-- A byte of `OUT` is there before the step. -/
theorem witness_OutputIsAppendOnly : (running atMatch10).Inv ∧ (running atMatch10).memRead .out 0 = some 0x41 ∧
    (decOf (step (running atMatch10))).isSome = true := ⟨inv_decoding, by decide, by decide⟩

theorem witness_DecoderAdvances : (running atMatch10).Inv ∧ (running atMatch10).dueMove = none ∧
    (decOf (step (running atMatch10))).map (fun d => d.ipos) = some 8 := ⟨inv_decoding, by decide, by decide⟩

theorem witness_EncoderAdvances : (doing (.encoding (encAt abcd 9 (Packer.start [])))).dueMove = none ∧
    (encAt abcd 9 (Packer.start [])).pk.out ≠ [] ∧
    (encAt abcd 9 (Packer.start [])).ep < (encAt abcd 9 (Packer.start [])).src.length := by decide

/-- One request of each kind. -/
theorem witness_RequestsStartAfresh :
    (facing [⟨0, .request (.find abcd 5 18 4096 true) false⟩]).activity = .idle ∧
    (nextOf (step (facing [⟨0, .request (.find abcd 5 18 4096 true) false⟩]))).map (fun t => t.activity) =
      some (.finding (FindRegs.start abcd 5 18 4096 true)) ∧
    (nextOf (step (facing [⟨0, .request (.encode abcd .lz11 true) false⟩]))).map (fun t => t.activity) =
      some (.encoding (EncRegs.start abcd .lz11 true)) ∧
    (nextOf (step (facing [⟨0, .request (.decode abcd true) false⟩]))).map (fun t => t.activity) =
      some (.decoding (DecRegs.start abcd true)) ∧
    (Request.find abcd 5 18 4096 true).writesOut = false ∧
    (nextOf (step (facing [⟨0, .request (.find abcd 5 18 4096 true) true⟩]))).map (fun t => t.activity) =
      some (.finding (FindRegs.start abcd 5 18 4096 true)) := by decide

theorem witness_ResetAbandonsTheRequest :
    { running atMatch10 with moves := [⟨0, .reset⟩] }.moves = ⟨0, .reset⟩ :: [] ∧
    (nextOf (step { running atMatch10 with moves := [⟨0, .reset⟩] })).map (fun t => t.activity) = some .idle := by decide

/-- The five clauses: a read of a field the record has not; a read and a taking of no record; a taking and a read of a record. -/
theorem witness_ResultRecordReads :
    (facing []).activity = .idle ∧ (Result.find none).field .fdisp = none ∧ (Result.find none).field .warnLen = none ∧
    nextOf (step { facing [⟨0, .readField .out⟩] with result := some (.find none) }) = none ∧
    (facing [⟨0, .readField .status⟩]).result = none ∧ (facing [⟨0, .takeResult⟩]).result = none ∧
    (nextOf (step { facing [⟨0, .takeResult⟩] with result := some (.find none) })).map (fun t => t.received) =
      some [.find none] ∧
    (nextOf (step { facing [⟨0, .readField .found⟩] with result := some (.find none) })).map (fun t => t.reads) =
      some [.bit false] := by decide

/-- ENCODE and DECODE with an aliased `OUT`. -/
theorem witness_AliasedRequestIsRefused :
    nextOf (step (facing [⟨0, .request (.encode abcd .lz10 false) true⟩])) = none ∧
    nextOf (step (facing [⟨0, .request (.decode abcd false) true⟩])) = none := by decide

theorem witness_MatchLengthIsTheLongest : 0 < 5 ∧ 5 < abcd.length ∧ matchLen abcd (findCap abcd 5 18) 0 5 = 4 := by decide

/-- A found match, and none (V-ENC-9 at 5 and at 9). -/
theorem witness_FindAnswersTheBestCandidate : ValidFind abcd 5 18 4096 ∧
    find abcd 5 18 4096 false = some { disp := 5, len := 4 } ∧ ValidFind abcd 9 18 4096 ∧
    find abcd 9 18 4096 false = none := by decide

/-- The five ways to be out of range, each at its boundary. -/
theorem witness_InvalidFindRaises : State.reset.Quiet ∧
    resultOf (step (startRequest (.find abcd 0 18 4096 false) State.reset)) = some (.error (.invalidRequest 0 18 4096 10)) ∧
    resultOf (step (startRequest (.find abcd 10 18 4096 false) State.reset)) = some (.error (.invalidRequest 10 18 4096 10)) ∧
    resultOf (step (startRequest (.find abcd 5 0 4096 false) State.reset)) = some (.error (.invalidRequest 5 0 4096 10)) ∧
    resultOf (step (startRequest (.find abcd 5 18 0 false) State.reset)) = some (.error (.invalidRequest 5 18 0 10)) ∧
    resultOf (step (startRequest (.find abcd 5 18 4097 false) State.reset)) =
      some (.error (.invalidRequest 5 18 4097 10)) := by decide

/-- No reset is queued, whatever else is, or one is, and lands just after the last of the steps. -/
theorem witness_RunsToItsResult : NoResetWithin 5 (facing [⟨0, .takeResult⟩, ⟨0, .reset⟩]).moves ∧
    NoResetWithin 5 (facing [⟨5, .reset⟩]).moves := by
  constructor <;> intro j rest h <;> cases h
  decide

/-- V-SRC-5 as one transaction: the read queued right behind the request waits for its result, here the seventh step. -/
theorem witness_EveryRequestIsOneTransaction :
    (facing [⟨0, .request (.decode [0x10, 5, 0, 0, 0x40, 0x41, 0x10, 0] true) false⟩, ⟨0, .readField .warnVram⟩]).activity =
      .idle ∧
    (nextOf (runSteps 7 (facing [⟨0, .request (.decode [0x10, 5, 0, 0, 0x40, 0x41, 0x10, 0] true) false⟩,
      ⟨0, .readField .warnVram⟩]))).map (fun t => (t.reads, t.moves)) = some ([.bit true], []) := by decide

/-- A read is due inside a request, and waits; the reset that is not yet due does not land. -/
theorem witness_OnlyAResetLandsInsideARequest : (running atMatch10).activity ≠ .idle ∧
    (nextOf (step { running atMatch10 with moves := [⟨0, .readField .status⟩] })).map (fun t => (t.moves, t.reads)) =
      some ([⟨0, .readField .status⟩], []) ∧
    (nextOf (step { running atMatch10 with moves := [⟨1, .reset⟩] })).map (fun t => t.moves) = some [⟨0, .reset⟩] := by
  decide

theorem witness_NoByteBeforeThePaddingIsSpare : Config.defaults.WF ∧ [(1 : Byte), 2, 3].length ≤ maxSize ∧
    7 < (encodeUnits Config.defaults [1, 2, 3] .lz10 false).pk.flushPartial.out.length := by decide +kernel

/-- V-SRC-5 decoded as one atomic step: `WARN_VRAM` alone. -/
theorem test_decode_vramSafe :
    decodeRequest State.reset.cfg [0x10, 5, 0, 0, 0x40, 0x41, 0x10, 0] true =
      some (.decode [0x41, 0x41, 0x41, 0x41, 0x41] false true) := by decide

/-- The largest source that is taken, and the smallest that is not. -/
theorem witness_EncodeFirstStep : State.reset.Quiet ∧ (List.replicate 0xFFFFFF (0 : Byte)).length ≤ 0x00FFFFFF ∧
    0x00FFFFFF < (List.replicate 0x1000000 (0 : Byte)).length := by
  refine ⟨by decide, ?_, ?_⟩
  · rw [List.length_replicate]
  · rw [List.length_replicate]
    decide

/-- The five clauses: the first byte; no usable match (9); a match to the end (16 of 19 equal bytes: V-ENC-8 at 1); a literal
preferred (V-ENC-9 at 5: 4 + 1 ≤ 1 + 3 + 1); a match preferred (V-ENC-9 at 6: 3 + 1 > 1 + 1 + 1). -/
theorem witness_EncoderUnitRule :
    committed Config.defaults abcd .lz10 false 0 = none ∧
    usableMatch abcd .lz10 false 9 = none ∧
    usableMatch (List.replicate 19 0) .lz10 false 1 = some { disp := 1, len := 18 } ∧
    committed Config.defaults (List.replicate 19 0) .lz10 false 1 = some { disp := 1, len := 18 } ∧
    usableMatch abcd .lz10 false 5 = some { disp := 5, len := 4 } ∧
    probeLen Config.defaults abcd .lz10 false 6 = 3 ∧ probeLen Config.defaults abcd .lz10 false 9 = 1 ∧
    committed Config.defaults abcd .lz10 false 5 = none ∧
    committed Config.defaults abcd .lz10 false 6 = some { disp := 5, len := 3 } := by decide +kernel

/-- Eight units, and fewer: the groups of V-ENC-6. -/
theorem witness_GroupPacking : [(false, [0]), (false, [1]), (false, [2]), (false, [3]), (false, [4]), (false, [5]),
      (false, [6]), (true, [(7 : Byte)])].length ≤ 8 ∧
    (Packer.start []).addUnit true [8] = { ectrl := 0x80, eucnt := 1, eunits := [8], out := [] } := by decide

theorem witness_CommittedMatchIsSound : 6 < abcd.length ∧
    committed Config.defaults abcd .lz10 false 6 = some { disp := 5, len := 3 } := by decide +kernel

theorem witness_EncodeOutputShape : abcd.length ≤ maxSize ∧ Config.defaults.WF := by decide

theorem witness_DecodeReturnsTheDeclaredSize :
    decodeRequest Config.defaults [0x10, 2, 0, 0, 0, 0x41, 0x42, 0x43] false = some (.decode [0x41, 0x42] false false) := by
  decide

theorem witness_TrailingBytesAreIgnored :
    decodeRequest Config.defaults ([0x10, 0, 0, 0] ++ [0xFF, 0xFF]) false = some (.decode [] false false) := by decide

theorem witness_EncodeDecodeRoundTrip : Config.defaults.WF ∧ abcd.length < 2 ^ 24 := by decide

theorem witness_AssemblerMatchLine : ({ mode := some .lz10, pk := Packer.start [] } : AsmState).mode = some .lz10 ∧
    (asmLine Config.defaults { mode := some .lz10, pk := Packer.start [] } (.backRef 4096 18)).isOk = true ∧
    (asmLine Config.defaults { mode := some .lz10, pk := Packer.start [] } (.backRef 4097 18)).isOk = false ∧
    (asmLine Config.defaults { mode := some .lz10, pk := Packer.start [] } (.backRef 4096 19)).isOk = false := by decide

end Sys2Proof.Tests
end

section
/-! SUPPORT. Running a request to its result: what `k` steps of the block inside a request do, said once for the three
requests (00_scope.md R3; log entries 1 and 10). -/

namespace Sys2Proof.Machine

/-- Under the parameters `c`, the activity `a` ends with the result `r` after `k` steps of the block, whatever the host has
queued, unless a reset lands within them. -/
def Completes (c : Config) (k : Nat) (a : Activity) (r : Result) : Prop :=
  ∀ s : State, s.cfg = c → NoResetWithin k s.moves → runSteps k (s.setActivity a) = .next (finish r (s.nearer k))

/-- An activity whose own step ends the request completes in that step. -/
theorem Completes.last {c : Config} {a : Activity} {r : Result} (ha : a ≠ .idle)
    (h : ∀ s : State, s.cfg = c → blockStep (s.setActivity a) = .next (finish r s)) : Completes c 1 a r := by
  intro s hc hr
  rw [runSteps_running (k := 0) ha hr (h (s.nearer 1) hc)]
  rfl

/-- An activity whose own step goes on with another completes one step later than that one. -/
theorem Completes.head {c : Config} {k : Nat} {a b : Activity} {r : Result} (ha : a ≠ .idle)
    (h : ∀ s : State, s.cfg = c → blockStep (s.setActivity a) = .next (s.setActivity b)) (hb : Completes c k b r) :
    Completes c (k + 1) a r := by
  intro s hc hr
  have hlater : NoResetWithin k (s.nearer 1).moves := NoResetWithin.nearer (by rwa [Nat.add_comm])
  rw [runSteps_running ha hr (h (s.nearer 1) hc), hb (s.nearer 1) hc hlater, State.nearer_nearer, Nat.add_comm]

/-- The step of a running FIND does not depend on the registers standing in the state. -/
theorem blockStep_finding (f : FindRegs) (s : State) :
    blockStep (s.setActivity (.finding f)) = .next (stepFind f s) := rfl

/-- The step of a running ENCODE does not depend on the registers standing in the state. -/
theorem blockStep_encoding (e : EncRegs) (s : State) :
    blockStep (s.setActivity (.encoding e)) = .next (stepEncode e s) := rfl

/-! ### FIND -/

/-- The Finder's registers after a candidate that does not end the scan. -/
def FindRegs.next (f : FindRegs) : FindRegs :=
  { f with fd := f.fd + 1, fbestD := f.examined.disp, fbestL := f.examined.len }

/-- The best candidate after `n` more candidates, from the registers on. -/
def FindRegs.scanned (n : Nat) (f : FindRegs) : Found :=
  scan f.src f.p (findCap f.src f.p f.lprobe) f.vramSafe n f.fd f.best

theorem FindRegs.scanned_succ (n : Nat) (f : FindRegs) :
    f.scanned (n + 1) = if f.examined.len = findCap f.src f.p f.lprobe then f.examined else f.next.scanned n := rfl

/-- The answer of the finder is the scan of all its candidates from the start registers. -/
theorem find_eq_scanned (src : Memory) (p l dmax : Nat) (v : Bool) :
    find src p l dmax v = foundOf ((FindRegs.start src p l dmax v).scanned (min dmax p)) := rfl

theorem stepFind_last {f : FindRegs} (hv : ValidFind f.src f.p f.lprobe f.dmax) (hl : f.isLast) (s : State) :
    stepFind f s = finish (.find (foundOf f.examined)) s := by
  rw [stepFind, if_pos hv, if_pos hl]

theorem stepFind_goesOn {f : FindRegs} (hv : ValidFind f.src f.p f.lprobe f.dmax) (hl : ¬ f.isLast) (s : State) :
    stepFind f s = s.setActivity (.finding f.next) := by
  rw [stepFind, if_pos hv, if_neg hl]
  rfl

theorem stepFind_invalid {f : FindRegs} (hv : ¬ ValidFind f.src f.p f.lprobe f.dmax) (s : State) :
    stepFind f s = raise (.invalidRequest f.p f.lprobe f.dmax f.src.length) s := by
  rw [stepFind, if_neg hv]

theorem finding_completes_of_last {f : FindRegs} (hv : ValidFind f.src f.p f.lprobe f.dmax) (hl : f.isLast)
    (c : Config) : Completes c 1 (.finding f) (.find (foundOf f.examined)) :=
  .last nofun fun s _ => by rw [blockStep_finding, stepFind_last hv hl]

/-- A FIND with `n` candidates after `FD` completes with the best of all of them. -/
theorem finding_completes (n : Nat) (f : FindRegs) (hv : ValidFind f.src f.p f.lprobe f.dmax)
    (hn : min f.dmax f.p = f.fd + n) :
    ∃ k, ∀ c, Completes c k (.finding f) (.find (foundOf (f.scanned (n + 1)))) := by
  induction n generalizing f with
  | zero =>
    have hbest : f.scanned 1 = f.examined := by
      rw [FindRegs.scanned_succ]
      split <;> rfl
    rw [hbest]
    exact ⟨1, finding_completes_of_last hv (.inr hn.le)⟩
  | succ n ih =>
    rw [FindRegs.scanned_succ]
    by_cases hcap : f.examined.len = findCap f.src f.p f.lprobe
    · rw [if_pos hcap]
      exact ⟨1, finding_completes_of_last hv (.inl hcap)⟩
    · rw [if_neg hcap]
      have hl : ¬ f.isLast := not_or_intro hcap (by omega)
      obtain ⟨k, hk⟩ := ih f.next hv (by simp only [FindRegs.next]; omega)
      exact ⟨k + 1, fun c => .head nofun (fun s _ => by rw [blockStep_finding, stepFind_goesOn hv hl]) (hk c)⟩

/-- A FIND completes with its result as one atomic step, in a number of steps that its operands alone fix. -/
theorem find_completes (src : Memory) (p l dmax : Nat) (v : Bool) :
    ∃ k, ∀ c, Completes c k (.finding (FindRegs.start src p l dmax v)) (findRequest src p l dmax v) := by
  unfold findRequest
  by_cases hv : ValidFind src p l dmax
  · rw [if_pos hv, find_eq_scanned]
    obtain ⟨n, hn⟩ : ∃ n, min dmax p = n + 1 := ⟨min dmax p - 1, by omega⟩
    rw [hn]
    exact finding_completes n _ hv (hn.trans (Nat.add_comm n 1))
  · rw [if_neg hv]
    exact ⟨1, fun c => .last nofun fun s _ => by rw [blockStep_finding, stepFind_invalid hv]; rfl⟩

end Sys2Proof.Machine
end

section
/-! SUPPORT. ENCODE completes: its units, the flush of a partial group, the padding (41_encoder.md R124). -/

namespace Sys2Proof.Machine

/-! ### ENCODE: the output once the units are done -/

theorem padding_eq_nil {m : Memory} (h : m.length % padAlign = 0) : padding m = [] := by
  simp [padding, h]

/-- Padding twice is padding once. -/
theorem padding_pad (k : Packer) : padding k.pad.out = [] :=
  padding_eq_nil (by rw [Packer.pad_out]; exact length_padding k.out)

/-- Padding appends at the end, so that it keeps an output that is not empty. -/
theorem pad_out_ne_nil {k : Packer} (h : k.out ≠ []) : k.pad.out ≠ [] := by
  simp [h]

theorem flush_out_ne_nil (k : Packer) : k.flush.out ≠ [] := by
  simp

theorem addUnit_out_ne_nil {k : Packer} (flag : Bool) (bs : Bytes) (h : k.out ≠ []) : (k.addUnit flag bs).out ≠ [] := by
  rcases addUnit_cases flag bs k with ⟨-, hk⟩ | ⟨-, hk⟩ <;> rw [hk]
  · exact h
  · simp

/-! ### ENCODE: one unit -/

theorem encodeUnit_src (c : Config) (b : Byte) (e : EncRegs) : (encodeUnit c b e).src = e.src := by
  rcases encodeUnit_cases c b e with ⟨-, h⟩ | ⟨m, -, h⟩ <;> rw [h] <;> rfl

/-- Every unit moves the cursor: a literal by one byte, a match by its length, which is `MIN_MATCH` at least. -/
theorem lt_encodeUnit_ep (c : Config) (b : Byte) (e : EncRegs) : e.ep < (encodeUnit c b e).ep := by
  rcases encodeUnit_cases c b e with ⟨-, h⟩ | ⟨m, hm, h⟩ <;> rw [h]
  · simp
  · obtain ⟨-, husable⟩ := committed_some hm
    obtain ⟨hlen, -⟩ := usableMatch_some husable
    simp only [minMatch, EncRegs.emitMatch_ep] at hlen ⊢
    omega

theorem encodeUnit_out_ne_nil {e : EncRegs} (c : Config) (b : Byte) (h : e.pk.out ≠ []) :
    (encodeUnit c b e).pk.out ≠ [] := by
  rcases encodeUnit_cases c b e with ⟨-, hu⟩ | ⟨m, -, hu⟩ <;> rw [hu]
  · exact addUnit_out_ne_nil _ _ h
  · exact addUnit_out_ne_nil _ _ h

/-! ### ENCODE: the steps, one equation for each -/

theorem stepEncode_tooLarge {e : EncRegs} (ho : e.pk.out = []) (hn : maxSize < e.src.length) (s : State) :
    stepEncode e s = raise (.inputTooLarge e.src.length) s := by
  rw [stepEncode, if_pos ho, if_pos hn]

theorem stepEncode_header {e : EncRegs} (ho : e.pk.out = []) (hn : ¬ maxSize < e.src.length) (s : State) :
    stepEncode e s = s.setActivity (.encoding (e.writeHeader s.cfg)) := by
  rw [stepEncode, if_pos ho, if_neg hn]

theorem stepEncode_unit {e : EncRegs} {b : Byte} (ho : e.pk.out ≠ []) (hb : readByte e.src e.ep = some b) (s : State) :
    stepEncode e s = s.setActivity (.encoding (encodeUnit s.cfg b e)) := by
  rw [stepEncode, if_neg ho, hb]

section UnitsDone

variable {e : EncRegs} (ho : e.pk.out ≠ []) (hb : readByte e.src e.ep = none)
include ho hb

theorem stepEncode_flush (hu : 0 < e.pk.eucnt) (s : State) :
    stepEncode e s = s.setActivity (.encoding { e with pk := e.pk.flush }) := by
  rw [stepEncode, if_neg ho, hb]
  exact if_pos hu

theorem stepEncode_pad (hu : ¬ 0 < e.pk.eucnt) (hp : padding e.pk.out ≠ []) (s : State) :
    stepEncode e s = s.setActivity (.encoding { e with pk := e.pk.pad }) := by
  rw [stepEncode, if_neg ho, hb]
  exact (if_neg hu).trans (if_pos hp)

theorem stepEncode_done (hu : ¬ 0 < e.pk.eucnt) (hp : padding e.pk.out = []) (s : State) :
    stepEncode e s = finish (.encode e.pk.out) s := by
  rw [stepEncode, if_neg ho, hb]
  exact (if_neg hu).trans (if_neg (not_not_intro hp))

/-! ### ENCODE completes, from its last step back to its first -/

theorem encoding_completes_of_padded (c : Config) (hu : ¬ 0 < e.pk.eucnt) (hp : padding e.pk.out = []) :
    Completes c 1 (.encoding e) (.encode e.pk.out) :=
  .last nofun fun s _ => by rw [blockStep_encoding, stepEncode_done ho hb hu hp]

theorem encoding_completes_of_flushed (c : Config) (hu : ¬ 0 < e.pk.eucnt) :
    ∃ k, Completes c k (.encoding e) (.encode e.pk.pad.out) := by
  by_cases hp : padding e.pk.out = []
  · rw [Packer.pad_out, hp, List.append_nil]
    exact ⟨1, encoding_completes_of_padded ho hb c hu hp⟩
  · have hdone : Completes c 1 (.encoding { e with pk := e.pk.pad }) (.encode e.pk.pad.out) :=
      encoding_completes_of_padded (e := { e with pk := e.pk.pad }) (pad_out_ne_nil ho) hb c hu (padding_pad e.pk)
    exact ⟨2, .head nofun (fun s _ => by rw [blockStep_encoding, stepEncode_pad ho hb hu hp]) hdone⟩

theorem encoding_completes_of_units_done (c : Config) :
    ∃ k, Completes c k (.encoding e) (.encode e.pk.flushPartial.pad.out) := by
  unfold Packer.flushPartial
  by_cases hu : 0 < e.pk.eucnt
  · rw [if_pos hu]
    obtain ⟨k, hk⟩ := encoding_completes_of_flushed (e := { e with pk := e.pk.flush }) (flush_out_ne_nil e.pk) hb c
      (Nat.lt_irrefl 0)
    exact ⟨k + 1, .head nofun (fun s _ => by rw [blockStep_encoding, stepEncode_flush ho hb hu]) hk⟩
  · rw [if_neg hu]
    exact encoding_completes_of_flushed ho hb c hu

end UnitsDone

/-- Past the header an ENCODE completes with the output of its loop, flushed and padded, when the loop's bound is enough for
the bytes left. -/
theorem encoding_completes (c : Config) (fuel : Nat) (e : EncRegs) (ho : e.pk.out ≠ [])
    (hfuel : e.src.length ≤ e.ep + fuel) :
    ∃ k, Completes c k (.encoding e) (.encode (encodeLoop c fuel e).pk.flushPartial.pad.out) := by
  induction fuel generalizing e with
  | zero => exact encoding_completes_of_units_done ho (readByte_eq_none.2 hfuel) c
  | succ fuel ih =>
    unfold encodeLoop
    cases hb : readByte e.src e.ep with
    | none => exact encoding_completes_of_units_done ho hb c
    | some b =>
      have hep : e.ep < (encodeUnit c b e).ep := lt_encodeUnit_ep c b e
      obtain ⟨k, hk⟩ := ih (encodeUnit c b e) (encodeUnit_out_ne_nil c b ho) (by rw [encodeUnit_src]; omega)
      exact ⟨k + 1, .head nofun (fun s hs => by rw [blockStep_encoding, stepEncode_unit ho hb, hs]) hk⟩

/-- An ENCODE completes with its result as one atomic step. -/
theorem encode_completes (c : Config) (src : Memory) (mode : Mode) (v : Bool) :
    ∃ k, Completes c k (.encoding (EncRegs.start src mode v)) (encodeRequest c src mode v) := by
  unfold encodeRequest
  by_cases hn : maxSize < src.length
  · rw [if_pos hn]
    exact ⟨1, .last nofun fun s _ => by rw [blockStep_encoding, stepEncode_tooLarge rfl hn]; rfl⟩
  · rw [if_neg hn]
    obtain ⟨k, hk⟩ := encoding_completes c src.length ((EncRegs.start src mode v).writeHeader c)
      (by simp [Machine.writeHeader]) (by simp)
    exact ⟨k + 1, .head nofun (fun s hs => by rw [blockStep_encoding, stepEncode_header rfl hn, hs]) hk⟩

end Sys2Proof.Machine
end

section
/-! SUPPORT. DECODE: the bytes a fetch sees, the step of the Decoder as one function of its registers, and that the byte-serial
pseudocode of 42_decoder.md R169 is that function, part by part. -/

namespace Sys2Proof.Machine

/-! ### DECODE: fetching one byte -/

@[simp] theorem DecRegs.ahead_consumeFlag (d : DecRegs) : d.consumeFlag.ahead = d.ahead := rfl

theorem DecRegs.head?_ahead (d : DecRegs) : d.ahead.head? = readByte d.cin d.ipos := List.head?_drop

@[simp] theorem DecRegs.ahead_advance (d : DecRegs) : (d.advance 1).ahead = d.ahead.tail := by
  simp [DecRegs.ahead]

/-- A fetch takes the first byte ahead, and with none ahead it ends what was to follow. -/
theorem fetchByte_bind {α : Type} (d : DecRegs) (g : Byte × DecRegs → Except Stop α) :
    (fetchByte d >>= g) =
      match d.ahead with
      | [] => .error (.raised (.truncatedInput d.ipos))
      | b :: _ => g (b, d.advance 1) := by
  rw [fetchByte, ← d.head?_ahead]
  cases d.ahead <;> rfl

/-! ### DECODE: the step of the Decoder -/

/-- What a step of the Decoder does to its registers: the effect of the next instruction, or the error its fetch raises. -/
def decoderStep (c : Config) (d : DecRegs) : Except Stop DecRegs :=
  match nextInstr c d with
  | .run i => effect i d
  | .trap e => .error (.raised e)
  | .complete => .ok d

theorem settle_setActivity (a : Activity) (s : State) (x : Except Stop DecRegs) :
    settle (s.setActivity a) x = settle s x := by
  rcases x with (e | f) | d <;> rfl

/-- The machine's step of a running DECODE that is not complete is the step of its Decoder. -/
theorem blockStep_decoding {d : DecRegs} (hd : d.context ≠ none) (s : State) :
    blockStep (s.setActivity (.decoding d)) = settle s (decoderStep s.cfg d) := by
  simp only [blockStep, State.setActivity_activity, State.setActivity_cfg, decoderStep]
  cases hn : nextInstr s.cfg d with
  | run i =>
    obtain ⟨rest, -, hctx⟩ := nextInstr_run hn
    exact (exec_of rfl hctx).trans (settle_setActivity ..)
  | trap e => rfl
  | complete => exact absurd (nextInstr_complete.1 hn) hd

/-- The step of a DECODE that is complete ends it. -/
theorem blockStep_decoding_complete {d : DecRegs} (hd : d.context = none) (s : State) :
    blockStep (s.setActivity (.decoding d)) = .next (finish d.okResult s) := by
  simp only [blockStep, State.setActivity_activity, State.setActivity_cfg, nextInstr_complete.2 hd]
  rfl

section Fetched

variable {c : Config} {d : DecRegs} {ctx : Context} (hctx : d.context = some ctx)
include hctx

theorem decoderStep_of_instr {i : Instr} {rest : Bytes} (h : decodeIn c ctx d.ahead = .instr i rest) :
    decoderStep c d = effect i d := by
  simp only [decoderStep, nextInstr, hctx, fetchIn, h]

theorem decoderStep_of_short (h : decodeIn c ctx d.ahead = .short) :
    decoderStep c d = .error (.raised (.truncatedInput (d.ipos + d.ahead.length))) := by
  simp only [decoderStep, nextInstr, hctx, fetchIn, h]

theorem decoderStep_of_badTag {t : Byte} (h : decodeIn c ctx d.ahead = .badTag t) :
    decoderStep c d = .error (.raised (.badHeader t)) := by
  simp only [decoderStep, nextInstr, hctx, fetchIn, h]

end Fetched

/-! ### DECODE: the operands of the pseudocode -/

theorem hiNibble_eq_iff (b : Byte) (t : BitVec 4) : hiNibble b = t ↔ hi b = t.toNat := by
  rw [← BitVec.toNat_inj, hiNibble_toNat, hi]

theorem hiNibble_eq_zero (b : Byte) : hiNibble b = 0 ↔ hi b = 0 := hiNibble_eq_iff b 0

theorem hiNibble_eq_one (b : Byte) : hiNibble b = 1 ↔ hi b = 1 := hiNibble_eq_iff b 1

theorem dispOf_join12 (a b : Byte) : dispOf (join12 (loNibble a) b) = lo a * 256 + b.toNat + 1 := by
  rw [dispOf, join12_toNat, loNibble_toNat, lo]

theorem len10_hiNibble (b : Byte) : len10 (hiNibble b) = hi b + 3 := by
  rw [len10, hiNibble_toNat, hi]

theorem len11x2_hiNibble (b : Byte) : len11x2 (hiNibble b) = hi b + 1 := by
  rw [len11x2, hiNibble_toNat, hi]

theorem len11x3_joinNibbles (a b : Byte) :
    len11x3 (joinNibbles (loNibble a) (hiNibble b)) = lo a * 16 + hi b + 0x11 := by
  rw [len11x3, joinNibbles_toNat, loNibble_toNat, hiNibble_toNat, lo, hi]

theorem len11x4_join16 (a b c : Byte) :
    len11x4 (join16 (loNibble a) b (hiNibble c)) = lo a * 4096 + b.toNat * 16 + hi c + 0x111 := by
  rw [len11x4, join16_toNat, loNibble_toNat, hiNibble_toNat, lo, hi]

/-! ### DECODE: each part of a turn of the pseudocode is one step of the Decoder -/

/-- A control byte (42_decoder.md R155). -/
theorem decoderStep_control {d : DecRegs} (c : Config) (hctx : d.context = some .control) :
    decoderStep c d = reloadFlags d := by
  obtain ⟨-, -, hcnt⟩ := DecRegs.context_eq_control.1 hctx
  rw [reloadFlags, if_pos hcnt, fetchByte_bind]
  match ha : d.ahead with
  | [] => rw [decoderStep_of_short hctx (by rw [ha]; rfl), ha]; rfl
  | b :: rest => rw [decoderStep_of_instr hctx (i := .ctrl b) (rest := rest) (by rw [ha]; rfl)]; rfl

/-- A literal (42_decoder.md R156, R157). -/
theorem decoderStep_literal {d : DecRegs} (c : Config) (hctx : d.context = some .literal) :
    decoderStep c d = litUnit d.consumeFlag := by
  rw [litUnit, fetchByte_bind, DecRegs.ahead_consumeFlag]
  match ha : d.ahead with
  | [] => rw [decoderStep_of_short hctx (by rw [ha]; rfl), ha]; rfl
  | b :: rest => rw [decoderStep_of_instr hctx (i := .lit b) (rest := rest) (by rw [ha]; rfl)]; rfl

/-- A match in LZ10 (42_decoder.md R158). -/
theorem decoderStep_match10 {d : DecRegs} (c : Config) (hctx : d.context = some (.backRef .lz10)) :
    decoderStep c d = match10Unit d.consumeFlag := by
  simp only [match10Unit, fetchByte_bind, DecRegs.ahead_advance, DecRegs.ahead_consumeFlag]
  match ha : d.ahead with
  | [] | [_] => rw [decoderStep_of_short hctx (by rw [ha]; rfl), ha]; rfl
  | b0 :: b1 :: rest =>
    rw [decoderStep_of_instr hctx (i := .match10 (hiNibble b0) (join12 (loNibble b0) b1)) (rest := rest)
      (by rw [ha]; rfl), effect, dispOf_join12, len10_hiNibble]
    rfl

/-- A match in LZ11, by the form that its first byte selects (42_decoder.md R159 to R161). -/
theorem decoderStep_match11 {d : DecRegs} (c : Config) (hctx : d.context = some (.backRef .lz11)) :
    decoderStep c d = match11Unit d.consumeFlag := by
  simp only [match11Unit, fetchByte_bind, DecRegs.ahead_advance, DecRegs.ahead_consumeFlag]
  match ha : d.ahead with
  | [] => rw [decoderStep_of_short hctx (by rw [ha]; rfl), ha]; rfl
  | b0 :: more =>
    have hdec : decodeIn c (.backRef .lz11) d.ahead = decodeMatch11 (b0 :: more) := by rw [ha]; rfl
    simp only [decodeMatch11, hiNibble_eq_zero, hiNibble_eq_one] at hdec
    by_cases h0 : hi b0 = 0
    · simp only [if_pos h0, List.tail_cons] at hdec ⊢
      match more with
      | [] | [_] => rw [decoderStep_of_short hctx hdec, ha]; rfl
      | b1 :: b2 :: rest =>
        rw [decoderStep_of_instr hctx hdec, effect, dispOf_join12, len11x3_joinNibbles]
        rfl
    · by_cases h1 : hi b0 = 1
      · simp only [if_neg h0, if_pos h1, List.tail_cons] at hdec ⊢
        match more with
        | [] | [_] | [_, _] => rw [decoderStep_of_short hctx hdec, ha]; rfl
        | b1 :: b2 :: b3 :: rest =>
          rw [decoderStep_of_instr hctx hdec, effect, dispOf_join12, len11x4_join16]
          rfl
      · simp only [if_neg h0, if_neg h1, List.tail_cons] at hdec ⊢
        match more with
        | [] => rw [decoderStep_of_short hctx hdec, ha]; rfl
        | b1 :: rest =>
          rw [decoderStep_of_instr hctx hdec, effect, dispOf_join12, len11x2_hiNibble]
          rfl

end Sys2Proof.Machine
end

section
/-! SUPPORT. DECODE completes: what every step of the Decoder keeps, that no step faults, and the loop of the byte-serial
pseudocode (42_decoder.md R169). -/

namespace Sys2Proof

theorem Instr.size_pos (i : Instr) : 0 < i.size := by
  cases i <;> simp [Instr.size]

theorem Instr.size_of_header {i : Instr} (h : i.context = .header) : i.size = 4 := by
  cases i <;> simp_all [Instr.context, Instr.size]

end Sys2Proof

namespace Sys2Proof.Machine

/-! ### DECODE: what every step of the Decoder keeps -/

/-- The part of the Decoder's invariant (10_state.md R27, R29) that keeps a copy from faulting and its input cursor within
`CIN`. -/
structure DecRegs.Sound (d : DecRegs) : Prop where
  ipos_le : d.ipos ≤ d.cin.length
  out_length : d.out.length = d.produced

theorem DecRegs.start_sound (cin : Memory) (v : Bool) : (DecRegs.start cin v).Sound := ⟨Nat.zero_le _, rfl⟩

theorem disp_pos_of_matchOperands {i : Instr} {m : Found} (h : matchOperands i = some m) : 1 ≤ m.disp := by
  cases i <;> simp_all only [matchOperands, Option.some.injEq, reduceCtorEq] <;> subst h <;> simp [dispOf]

/-- An instruction keeps `|OUT| = PRODUCED` (10_state.md R27). -/
theorem effect_out_length {i : Instr} {d d' : DecRegs} (hout : d.out.length = d.produced) (h : effect i d = .ok d') :
    d'.out.length = d'.produced := by
  rcases hm : matchOperands i with _ | m
  · cases i <;> simp_all [matchOperands, effect] <;> subst h <;> simp [hout]
  · rw [effect_match hm] at h
    obtain ⟨-, copied, hlen, rfl⟩ := execMatch_ok h
    simp [hout, hlen]

/-- While `|OUT| = PRODUCED` no match faults: its copy starts at a byte that is written. -/
theorem execMatch_ne_fault {u disp len : Nat} {d : DecRegs} (hdisp : 1 ≤ disp) (hout : d.out.length = d.produced)
    (f : Fault) : execMatch u disp len d ≠ .error (.fault f) := by
  unfold execMatch
  split
  · nofun
  · obtain ⟨copied, -, hcopy, -⟩ := copyBytes_spec (n := d.truncated len)
      (d := (d.warnIfExceeds len).warnIfUnsafe disp) hdisp (by simp; omega) (by simpa using hout)
    rw [hcopy]
    nofun

theorem effect_ne_fault {d : DecRegs} (hout : d.out.length = d.produced) (i : Instr) (f : Fault) :
    effect i d ≠ .error (.fault f) := by
  rcases hm : matchOperands i with _ | m
  · cases i <;> simp_all [matchOperands, effect]
  · rw [effect_match hm]
    exact execMatch_ne_fault (d := d.consumeFlag.advance i.size) (disp_pos_of_matchOperands hm) hout f

theorem decoderStep_ne_fault {d : DecRegs} (hd : d.Sound) (c : Config) (f : Fault) :
    decoderStep c d ≠ .error (.fault f) := by
  unfold decoderStep
  split
  · exact effect_ne_fault hd.out_length _ f
  · nofun
  · nofun

/-- A step of the Decoder that goes on has run an instruction, whose bytes it has passed. -/
theorem decoderStep_ok {c : Config} {d d' : DecRegs} (hctx : d.context ≠ none) (h : decoderStep c d = .ok d') :
    ∃ i, effect i d = .ok d' ∧ d'.ipos = d.ipos + i.size ∧ i.size ≤ d.cin.length - d.ipos := by
  unfold decoderStep at h
  split at h
  · rename_i i hi
    obtain ⟨rest, hdec, hi⟩ := nextInstr_run hi
    obtain ⟨hlen, -⟩ := decodeIn_instr hdec
    obtain ⟨-, -, hipos⟩ := effect_ok h
    refine ⟨i, h, ?_, by rw [DecRegs.ahead, List.length_drop] at hlen; omega⟩
    by_cases hhead : i.context = .header
    · have hzero : d.ipos = 0 := DecRegs.context_eq_header.1 (hhead ▸ hi)
      rw [hipos, if_pos hhead, hzero, Instr.size_of_header hhead]
    · rw [hipos, if_neg hhead]
  · cases h
  · exact absurd (nextInstr_complete.1 ‹_›) hctx

/-- A step of the Decoder that goes on keeps the input and moves its cursor forward, within the input (10_state.md R29). -/
theorem decoderStep_sound {c : Config} {d d' : DecRegs} (hd : d.Sound) (hctx : d.context ≠ none)
    (h : decoderStep c d = .ok d') : d'.Sound ∧ d.ipos < d'.ipos ∧ d'.cin = d.cin := by
  obtain ⟨i, heff, hipos, hsize⟩ := decoderStep_ok hctx h
  obtain ⟨hcin, -⟩ := effect_ok heff
  have hpos : 0 < i.size := i.size_pos
  have hle : d.ipos ≤ d.cin.length := hd.ipos_le
  exact ⟨⟨by rw [hcin]; omega, effect_out_length hd.out_length heff⟩, by omega, hcin⟩

/-! ### DECODE: a turn of the pseudocode -/

/-- The unit of a turn, its flag first, once a flag is left (42_decoder.md R156 to R161). -/
def unitTurn (d : DecRegs) : Except Stop DecRegs :=
  if nextFlag d.dflags = false then litUnit d.consumeFlag
  else
    match d.dmode with
    | .lz10 => match10Unit d.consumeFlag
    | .lz11 => match11Unit d.consumeFlag

/-- A turn is a control byte where no flag is left, then a unit. -/
theorem decodeTurn_eq (d : DecRegs) : decodeTurn d = reloadFlags d >>= unitTurn := rfl

theorem reloadFlags_of_flag {d : DecRegs} (h : d.dfcnt ≠ 0) : reloadFlags d = .ok d := if_neg h

theorem reloadFlags_ok {d d' : DecRegs} (hcnt : d.dfcnt = 0) (h : reloadFlags d = .ok d') :
    ∃ flags, d' = (d.advance 1).loadFlags flags := by
  rw [reloadFlags, if_pos hcnt, fetchByte_bind] at h
  split at h <;> cases h
  exact ⟨_, rfl⟩

/-- Before a unit the step of the Decoder is the unit of the pseudocode. -/
theorem decoderStep_unit {d : DecRegs} {flag : Bool} (c : Config) (hd : d.AtUnit flag) :
    decoderStep c d = unitTurn d := by
  have ⟨_, _, _, hflag⟩ := hd
  rw [← nextFlag_eq] at hflag
  unfold unitTurn
  cases flag with
  | false =>
    rw [if_pos hflag]
    exact decoderStep_literal c (DecRegs.context_eq_literal.2 hd)
  | true =>
    rw [if_neg (by simp [hflag])]
    cases hmode : d.dmode with
    | lz10 => exact decoderStep_match10 c (DecRegs.context_eq_backRef.2 ⟨hd, hmode⟩)
    | lz11 => exact decoderStep_match11 c (DecRegs.context_eq_backRef.2 ⟨hd, hmode⟩)

/-! ### DECODE completes -/

/-- The result of a whole DECODE from its last registers, or from the error that ends it. -/
def streamResult : Except Stop DecRegs → Option Result
  | .ok d => some d.okResult
  | .error (.raised e) => some (.error e)
  | .error (.fault _) => none

theorem decodeRequest_eq (c : Config) (cin : Memory) (v : Bool) :
    decodeRequest c cin v = streamResult (decodeStream c cin v) := by
  rw [decodeRequest]
  rcases decodeStream c cin v with (e | f) | d <;> rfl

/-- A DECODE with the registers `d` completes with the result of `x`, which exists. -/
def CompletesAs (c : Config) (d : DecRegs) (x : Except Stop DecRegs) : Prop :=
  ∃ k r, streamResult x = some r ∧ Completes c k (.decoding d) r

/-- A step of the Decoder, then whatever completes from the registers it leaves. -/
theorem completesAs_bind {c : Config} {d : DecRegs} {g : DecRegs → Except Stop DecRegs} (hd : d.Sound)
    (hctx : d.context ≠ none) (hg : ∀ d', decoderStep c d = .ok d' → CompletesAs c d' (g d')) :
    CompletesAs c d (decoderStep c d >>= g) := by
  match hx : decoderStep c d with
  | .ok d' =>
    obtain ⟨k, r, hr, hk⟩ := hg d' hx
    exact ⟨k + 1, r, hr, .head nofun (fun s hs => by rw [blockStep_decoding hctx, hs, hx]; rfl) hk⟩
  | .error (.raised e) =>
    exact ⟨1, .error e, rfl, .last nofun fun s hs => by rw [blockStep_decoding hctx, hs, hx]; rfl⟩
  | .error (.fault f) => exact absurd hx (decoderStep_ne_fault hd c f)

theorem completesAs_of_complete (c : Config) {d : DecRegs} (hctx : d.context = none) : CompletesAs c d (.ok d) :=
  ⟨1, d.okResult, rfl, .last nofun fun s _ => blockStep_decoding_complete hctx s⟩

/-- A unit of the pseudocode, then whatever completes from the registers it leaves: the unit moved the cursor. -/
theorem completesAs_unit {c : Config} {d : DecRegs} {g : DecRegs → Except Stop DecRegs} {flag : Bool} (hd : d.Sound)
    (hunit : d.AtUnit flag)
    (hg : ∀ d' : DecRegs, d'.Sound → d.ipos < d'.ipos → d'.cin = d.cin → CompletesAs c d' (g d')) :
    CompletesAs c d (unitTurn d >>= g) := by
  have hctx : d.context ≠ none := fun hnone => by
    obtain ⟨-, howed, -⟩ := hunit
    obtain ⟨-, hdone⟩ := DecRegs.context_eq_none.1 hnone
    omega
  rw [← decoderStep_unit c hunit]
  refine completesAs_bind hd hctx fun d' hstep => ?_
  obtain ⟨hd', hlt, hcin⟩ := decoderStep_sound hd hctx hstep
  exact hg d' hd' hlt hcin

/-- A turn of the pseudocode, then whatever completes from the registers it leaves: the turn moved the cursor. It is two steps
of the Decoder where a control byte is due, and one where a flag is left. -/
theorem completesAs_turn {c : Config} {d : DecRegs} {g : DecRegs → Except Stop DecRegs} (hd : d.Sound) (hipos : d.ipos ≠ 0)
    (howed : d.produced < d.dn)
    (hg : ∀ d' : DecRegs, d'.Sound → d.ipos < d'.ipos → d'.cin = d.cin → CompletesAs c d' (g d')) :
    CompletesAs c d (decodeTurn d >>= g) := by
  rw [decodeTurn_eq, bind_assoc]
  by_cases hcnt : d.dfcnt = 0
  · have hctx : d.context = some .control := DecRegs.context_eq_control.2 ⟨hipos, howed, hcnt⟩
    have hne : d.context ≠ none := by simp [hctx]
    rw [← decoderStep_control c hctx]
    refine completesAs_bind hd hne fun d' hstep => ?_
    obtain ⟨hd', hlt, hcin⟩ := decoderStep_sound hd hne hstep
    rw [decoderStep_control c hctx] at hstep
    obtain ⟨flags, rfl⟩ := reloadFlags_ok hcnt hstep
    exact completesAs_unit hd' ⟨by omega, howed, nofun, rfl⟩ fun d'' hd'' hlt' => hg d'' hd'' (hlt.trans hlt')
  · rw [reloadFlags_of_flag hcnt]
    exact completesAs_unit hd ⟨hipos, howed, hcnt, rfl⟩ hg

/-- Past the header a DECODE completes as its loop, when the loop's bound is more than the bytes left. -/
theorem decoding_completes (c : Config) (fuel : Nat) (d : DecRegs) (hd : d.Sound) (hipos : d.ipos ≠ 0)
    (hfuel : d.cin.length < fuel + d.ipos) : CompletesAs c d (decodeLoop fuel d) := by
  induction fuel generalizing d with
  | zero => exact absurd hd.ipos_le (by omega)
  | succ fuel ih =>
    unfold decodeLoop
    by_cases howed : d.produced < d.dn
    · rw [if_pos howed]
      exact completesAs_turn hd hipos howed fun d' hd' hlt hcin => ih d' hd' (by omega) (by rw [hcin]; omega)
    · rw [if_neg howed]
      exact completesAs_of_complete c (DecRegs.context_eq_none.2 ⟨hipos, by omega⟩)

/-- The first step of the Decoder reads the header as the Header Codec does (43_header_codec.md R181). -/
theorem decodeStream_eq (c : Config) (cin : Memory) (v : Bool) :
    decodeStream c cin v = decoderStep c (DecRegs.start cin v) >>= decodeLoop (cin.length + 1) := by
  have hctx : (DecRegs.start cin v).context = some .header := DecRegs.context_eq_header.2 rfl
  match cin with
  | [] | [_] | [_, _] | [_, _, _] => rw [decoderStep_of_short hctx rfl]; rfl
  | t :: b1 :: b2 :: b3 :: rest =>
    have hdec : decodeIn c .header (DecRegs.start (t :: b1 :: b2 :: b3 :: rest) v).ahead =
      decodeHeader c (t :: b1 :: b2 :: b3 :: rest) := rfl
    simp only [decodeHeader] at hdec
    simp only [decodeStream, readHeader, ← join24_eq_or]
    by_cases h10 : t = c.tagLz10
    · simp only [if_pos h10] at hdec ⊢
      rw [decoderStep_of_instr hctx hdec]
      rfl
    · by_cases h11 : t = c.tagLz11
      · simp only [if_neg h10, if_pos h11] at hdec ⊢
        rw [decoderStep_of_instr hctx hdec]
        rfl
      · simp only [if_neg h10, if_neg h11] at hdec ⊢
        rw [decoderStep_of_badTag hctx hdec]
        rfl

/-- A DECODE completes with its result as one atomic step, which exists. -/
theorem decode_completes (c : Config) (cin : Memory) (v : Bool) :
    ∃ k r, decodeRequest c cin v = some r ∧ Completes c k (.decoding (DecRegs.start cin v)) r := by
  have hsound : (DecRegs.start cin v).Sound := DecRegs.start_sound cin v
  have hctx : (DecRegs.start cin v).context ≠ none := by simp [DecRegs.context_eq_none]
  rw [decodeRequest_eq, decodeStream_eq]
  refine completesAs_bind hsound hctx fun d' hstep => ?_
  obtain ⟨hd', hlt, hcin⟩ := decoderStep_sound hsound hctx hstep
  simp only [DecRegs.start_ipos, DecRegs.start_cin] at hlt hcin
  exact decoding_completes c (cin.length + 1) d' hd' (by omega) (by rw [hcin]; omega)

end Sys2Proof.Machine
end

section
/-! SUPPORT. What a step of the block leaves of the host's side, and that every request completes with its result as one atomic
step. -/

namespace Sys2Proof.Machine

/-! ### The host's side of a step of the block -/

theorem stepFind_cases (f : FindRegs) (s : State) :
    (∃ a, stepFind f s = s.setActivity a) ∨ ∃ r, stepFind f s = finish r s := by
  unfold stepFind
  split
  · split
    · exact .inr ⟨_, rfl⟩
    · exact .inl ⟨_, rfl⟩
  · exact .inr ⟨_, rfl⟩

theorem stepEncode_cases (e : EncRegs) (s : State) :
    (∃ a, stepEncode e s = s.setActivity a) ∨ ∃ r, stepEncode e s = finish r s := by
  unfold stepEncode
  split
  · split
    · exact .inr ⟨_, rfl⟩
    · exact .inl ⟨_, rfl⟩
  · split
    · exact .inl ⟨_, rfl⟩
    · split
      · exact .inl ⟨_, rfl⟩
      · split
        · exact .inl ⟨_, rfl⟩
        · exact .inr ⟨_, rfl⟩

/-- A step of the block that answers a next state goes on with some activity or ends the request with some result. -/
theorem blockStep_next {s t : State} (h : blockStep s = .next t) :
    (∃ a, t = s.setActivity a) ∨ ∃ r, t = finish r s := by
  unfold blockStep at h
  split at h
  · cases h; exact .inl ⟨s.activity, rfl⟩
  · cases h; exact stepFind_cases _ s
  · cases h; exact stepEncode_cases _ s
  · split at h
    · obtain ⟨d, -, -, ⟨d', -, rfl⟩ | ⟨e, -, rfl⟩⟩ := exec_next h
      · exact .inl ⟨_, rfl⟩
      · exact .inr ⟨_, rfl⟩
    · cases h; exact .inr ⟨_, rfl⟩
    · cases h; exact .inr ⟨_, rfl⟩

/-- A step of the block leaves the host's queue, what the host took and what it read; and, while it does not end in an idle
block, the record. -/
theorem blockStep_host_frame {s t : State} (h : blockStep s = .next t) :
    t.moves = s.moves ∧ t.received = s.received ∧ t.reads = s.reads ∧ (t.activity ≠ .idle → t.result = s.result) := by
  obtain ⟨a, rfl⟩ | ⟨r, rfl⟩ := blockStep_next h
  · exact ⟨rfl, rfl, rfl, fun _ => rfl⟩
  · exact ⟨rfl, rfl, rfl, fun hidle => absurd rfl hidle⟩

/-- A move whose time has come stays where it is. -/
theorem State.tick_of_due_time {s : State} {m : HostMove} {later : List Pending} (h : s.moves = ⟨0, m⟩ :: later) :
    s.tick = s := by
  unfold State.tick
  rw [h]

/-! ### Every request -/

/-- A request completes with its answer, which exists. -/
theorem request_completes (c : Config) (r : Request) :
    ∃ k res, r.answer c = some res ∧ Completes c k r.activity res := by
  cases r with
  | find src p l dmax v =>
    obtain ⟨k, hk⟩ := find_completes src p l dmax v
    exact ⟨k, _, rfl, hk c⟩
  | encode src mode v =>
    obtain ⟨k, hk⟩ := encode_completes c src mode v
    exact ⟨k, _, rfl, hk⟩
  | decode cin v => exact decode_completes c cin v

/-- A request that is due on an idle block, with no overlapping `OUT`, starts in this step. -/
theorem step_request {s : State} {r : Request} {al : Bool} {later : List Pending} (hidle : s.activity = .idle)
    (hm : s.moves = ⟨0, .request r al⟩ :: later) (hal : (r.writesOut && al) = false) :
    step s = .next (startRequest r s.popMove) := by
  rw [step_of_due (dueMove_of_moves hm (by simp [HostMove.canLand, hidle]))]
  simp [hostMove, submit, hal]

end Sys2Proof.Machine
end

section
/-! SUPPORT. The statements of the scope family settled. -/

open Sys2Proof Sys2Proof.Machine

/-- Settles O45: a FIND completes as its scan does, by induction on the candidates left to examine. -/
theorem findRunsToItsResult : Obligations.FindRunsToItsResult := by
  intro src p l dmax v
  obtain ⟨k, hk⟩ := find_completes src p l dmax v
  exact ⟨k, fun s => hk s.cfg s rfl⟩

/-- Settles O52: an ENCODE completes as its loop does, by induction on the loop's bound, each unit moving `EP`. -/
theorem encodeRunsToItsResult : Obligations.EncodeRunsToItsResult :=
  fun c src mode v => encode_completes c src mode v

/-- Settles O53: each part of a turn of the byte-serial pseudocode is one step of the Decoder, and no step faults or comes
to the loop's bound. -/
theorem decodeRunsToItsResult : Obligations.DecodeRunsToItsResult :=
  fun c cin v => decode_completes c cin v

/-- Settles O37: the request lands in the first step, and then completes with its answer. -/
theorem everyRequestIsOneTransaction : Obligations.EveryRequestIsOneTransaction := by
  intro c r
  obtain ⟨k, res, hres, hk⟩ := request_completes c r
  refine ⟨k, res, hres, fun s al later hc hidle hm hal hreset => ?_⟩
  have hlater : s.popMove.moves = later := by rw [State.popMove_moves, hm, List.tail_cons]
  have hrun := hk s.popMove hc (hlater ▸ hreset)
  simp only [runSteps, step_request hidle hm hal]
  exact hlater ▸ hrun

/-- Settles O38: no move but a reset can land on a running block, and the block's own step frames the host's side. -/
theorem onlyAResetLandsInsideARequest : Obligations.OnlyAResetLandsInsideARequest := by
  intro s hrun hreset
  have hwithin : NoResetWithin 1 s.moves := fun j rest hm =>
    Nat.one_le_iff_ne_zero.2 fun hj => hreset rest (hj ▸ hm)
  have hstep : step s = blockStep s.tick := step_of_notDue (dueMove_of_running hrun hwithin)
  refine ⟨hstep, fun m later hm => State.tick_of_due_time hm, fun t ht => ?_⟩
  obtain ⟨hmoves, hreceived, hreads, hresult⟩ := blockStep_host_frame (hstep ▸ ht)
  rw [State.tick_received] at hreceived
  rw [State.tick_reads] at hreads
  rw [State.tick_result] at hresult
  exact ⟨hmoves, hreceived, hreads, hresult⟩

end

section
/-! SUPPORT. What an instruction does, by the context it stands in; the errors of a fetch; and that every instruction keeps the
ranges of the Decoder's registers (10_state.md R27). -/

namespace Sys2Proof.Machine

/-! ### The instructions of each context -/

theorem effect_of_header {i : Instr} (h : i.context = .header) (d : DecRegs) :
    ∃ mode size, size ≤ maxSize ∧ effect i d = .ok (d.loadHeader mode size) := by
  cases i with
  | hdrLz10 size => exact ⟨.lz10, size.toNat, Nat.le_of_lt_succ size.isLt, rfl⟩
  | hdrLz11 size => exact ⟨.lz11, size.toNat, Nat.le_of_lt_succ size.isLt, rfl⟩
  | _ => cases h

theorem effect_of_control {i : Instr} (h : i.context = .control) (d : DecRegs) :
    ∃ flags, effect i d = .ok ((d.advance 1).loadFlags flags) := by
  cases i with
  | ctrl flags => exact ⟨flags, rfl⟩
  | _ => cases h

theorem matchOperands_of_backRef {i : Instr} {mode : Mode} (h : i.context = .backRef mode) :
    ∃ m, matchOperands i = some m := by
  cases i with
  | match10 l f => exact ⟨_, rfl⟩
  | match11_2 t f => exact ⟨_, rfl⟩
  | match11_3 l f => exact ⟨_, rfl⟩
  | match11_4 l f => exact ⟨_, rfl⟩
  | _ => cases h

theorem disp_le_window_of_matchOperands {i : Instr} {m : Found} (h : matchOperands i = some m) : m.disp ≤ window := by
  have hle (f : BitVec 12) : dispOf f ≤ window := f.isLt
  cases i <;> cases h <;> exact hle _

/-- An instruction raises only as a match whose displacement is out of range (60_exceptions.md R203). -/
theorem effect_raised {i : Instr} {d : DecRegs} {e : Err} (h : effect i d = .error (.raised e)) :
    ∃ m, matchOperands i = some m ∧ d.produced < m.disp ∧ e = .outOfRangeBackReference d.ipos m.disp d.produced := by
  rcases hm : matchOperands i with _ | m
  · cases i <;> simp_all [matchOperands, effect]
  · rw [effect_match hm] at h
    rcases execMatch_error h with ⟨hlt, he⟩ | ⟨-, he⟩ <;> cases he
    exact ⟨m, rfl, hlt, rfl⟩

/-- The registers after a unit of `n` bytes that appends `bytes` to `OUT` and sets the warnings `len` and `vram`
(42_decoder.md R156, R157, R162, R164). -/
def DecRegs.afterUnit (n : Nat) (bytes : Bytes) (len vram : Bool) (d : DecRegs) : DecRegs :=
  { d with
    ipos := d.ipos + n, dflags := d.dflags <<< 1, dfcnt := d.dfcnt - 1, produced := d.produced + bytes.length,
    out := d.out ++ bytes, warnLen := d.warnLen || len, warnVram := d.warnVram || vram }

/-- A unit of `n` bytes takes the registers `d` to `d'`: it appends no more than is owed, and sets `WARN_LEN` only when nothing
is owed after it and `WARN_VRAM` only under `VRAM_SAFE` (42_decoder.md R162, R164). -/
def DecRegs.UnitLeaves (d : DecRegs) (n : Nat) (d' : DecRegs) : Prop :=
  ∃ bytes len vram, d' = d.afterUnit n bytes len vram ∧ d.produced + bytes.length ≤ d.dn ∧
    (len = true → d.produced + bytes.length = d.dn) ∧ (vram = true → d.vramSafe = true)

/-- A literal sets no warning. -/
theorem effect_of_literal {i : Instr} (h : i.context = .literal) (d : DecRegs) :
    ∃ b, effect i d = .ok (d.afterUnit i.size [b] false false) := by
  cases i with
  | lit b => exact ⟨b, by rw [DecRegs.afterUnit, Bool.or_false, Bool.or_false]; rfl⟩
  | _ => cases h

theorem effect_match_ok {i : Instr} {m : Found} {d d' : DecRegs} (hm : matchOperands i = some m)
    (hle : d.produced ≤ d.dn) (h : effect i d = .ok d') : d.UnitLeaves i.size d' := by
  rw [effect_match hm] at h
  obtain ⟨-, copied, hlen, rfl⟩ := execMatch_ok h
  rw [DecRegs.truncated_advance] at hlen ⊢
  refine ⟨copied, d.exceeds m.len, d.vramSafe && m.disp == 1, by rw [← hlen]; rfl, ?_, fun hex => ?_, fun hv => ?_⟩
  · rw [hlen, DecRegs.truncated_eq_min _ hle]
    omega
  · rw [hlen, DecRegs.truncated, if_pos hex]
    omega
  · exact (Bool.and_eq_true_iff.1 hv).1

theorem effect_unit_ok {i : Instr} {flag : Bool} {d d' : DecRegs} (hunit : d.AtUnit flag)
    (hctx : d.context = some i.context) (h : effect i d = .ok d') : d.UnitLeaves i.size d' := by
  have ⟨_, howed, _, _⟩ := hunit
  cases flag with
  | false =>
    rw [DecRegs.context_eq_literal.2 hunit, Option.some_inj] at hctx
    obtain ⟨b, hb⟩ := effect_of_literal hctx.symm d
    cases hb.symm.trans h
    exact ⟨[b], false, false, rfl, howed, nofun, nofun⟩
  | true =>
    rw [DecRegs.context_eq_backRef.2 ⟨hunit, rfl⟩, Option.some_inj] at hctx
    obtain ⟨m, hm⟩ := matchOperands_of_backRef hctx.symm
    exact effect_match_ok hm howed.le h

/-- Before an instruction the Decoder stands at the header, at a control byte, or at a unit, literal or match. -/
theorem DecRegs.context_cases {d : DecRegs} {ctx : Context} (h : d.context = some ctx) :
    (ctx = .header ∧ d.ipos = 0) ∨ (ctx = .control ∧ d.ipos ≠ 0 ∧ d.produced < d.dn) ∨ ∃ flag, d.AtUnit flag := by
  cases ctx with
  | header => exact .inl ⟨rfl, context_eq_header.1 h⟩
  | control =>
    obtain ⟨hipos, howed, -⟩ := context_eq_control.1 h
    exact .inr (.inl ⟨rfl, hipos, howed⟩)
  | literal => exact .inr (.inr ⟨false, context_eq_literal.1 h⟩)
  | backRef mode =>
    obtain ⟨hunit, -⟩ := context_eq_backRef.1 h
    exact .inr (.inr ⟨true, hunit⟩)

/-! ### The errors of a fetch -/

theorem decodeMatch10_ne_badTag (bs : Bytes) (t : Byte) : decodeMatch10 bs ≠ .badTag t := by
  unfold decodeMatch10
  split <;> nofun

theorem decodeMatch11_ne_badTag (bs : Bytes) (t : Byte) : decodeMatch11 bs ≠ .badTag t := by
  unfold decodeMatch11
  split
  · nofun
  · split
    · split <;> nofun
    · split
      · split <;> nofun
      · split <;> nofun

theorem ne_tags_of_decodeHeader {c : Config} {bs : Bytes} {t : Byte} (h : decodeHeader c bs = .badTag t) :
    t ≠ c.tagLz10 ∧ t ≠ c.tagLz11 := by
  unfold decodeHeader at h
  split at h
  · split at h
    · cases h
    · split at h <;> cases h
      exact ⟨‹_›, ‹_›⟩
  · cases h

/-- Only a header has a tag, and it is bad only when it is neither tag of the parameters (60_exceptions.md R202). -/
theorem ne_tags_of_badTag {c : Config} {ctx : Context} {bs : Bytes} {t : Byte} (h : decodeIn c ctx bs = .badTag t) :
    t ≠ c.tagLz10 ∧ t ≠ c.tagLz11 := by
  match ctx, bs with
  | .header, bs => exact ne_tags_of_decodeHeader h
  | .control, [] | .control, _ :: _ | .literal, [] | .literal, _ :: _ => cases h
  | .backRef .lz10, bs => exact absurd h (decodeMatch10_ne_badTag bs t)
  | .backRef .lz11, bs => exact absurd h (decodeMatch11_ne_badTag bs t)

/-- The info of an error that a fetch raises shows its cause. -/
theorem nextInstr_trap_inv {c : Config} {d : DecRegs} {e : Err} (h : nextInstr c d = .trap e) :
    Result.Inv c (.error e) := by
  unfold nextInstr at h
  split at h
  · cases h
  · unfold fetchIn at h
    split at h <;> cases h
    · trivial
    · exact ne_tags_of_badTag ‹_›

/-! ### The low bits of a byte -/

/-- A byte is a multiple of `2 ^ n` when its `n` low bits are 0. -/
theorem toNat_mod_two_pow_eq_zero_iff (b : Byte) (n : Nat) :
    b.toNat % 2 ^ n = 0 ↔ ∀ j, j < n → b.getLsbD j = false := by
  constructor
  · intro h j hj
    have hbit := congrArg (Nat.testBit · j) h
    simpa [Nat.testBit_mod_two_pow, hj, BitVec.testBit_toNat] using hbit
  · intro h
    refine Nat.eq_of_testBit_eq fun j => ?_
    rw [Nat.testBit_mod_two_pow, BitVec.testBit_toNat, Nat.zero_testBit]
    by_cases hj : j < n
    · simp [h j hj]
    · simp [hj]

/-- Shifting a flag out frees one more low bit. -/
theorem shiftLeft_low {b : Byte} {n : Nat} (h : b.toNat % 2 ^ n = 0) : (b <<< 1).toNat % 2 ^ (n + 1) = 0 := by
  rw [toNat_mod_two_pow_eq_zero_iff] at h ⊢
  intro j hj
  cases j with
  | zero => simp
  | succ j => simp [h j (by omega)]

/-- Setting the flag of unit `k` leaves the bits of the units after it. -/
theorem setFlag_low {ctrl : Byte} {k : Nat} (f : Bool) (hk : k < 8) (h : ctrl.toNat % 2 ^ (8 - k) = 0) :
    (setFlag ctrl k f).toNat % 2 ^ (8 - (k + 1)) = 0 := by
  rw [toNat_mod_two_pow_eq_zero_iff] at h ⊢
  intro j hj
  have hbit := setFlag_bit ctrl k f (7 - j) hk (by omega)
  rw [Nat.sub_sub_self (by omega)] at hbit
  rw [hbit, h j (by omega)]
  simp
  omega

/-! ### The Decoder's registers keep their ranges -/

theorem DecRegs.loadHeader_inv {d : DecRegs} (mode : Mode) {size : Nat} (hcin : 4 ≤ d.cin.length)
    (hsize : size ≤ maxSize) : (d.loadHeader mode size).Inv where
  ipos_le := hcin
  ipos_header := .inr le_rfl
  start_of_ipos := nofun
  out_length := rfl
  produced_le := Nat.zero_le _
  dn_le := hsize
  dfcnt_le := Nat.zero_le _
  dflags_low := rfl
  warnLen_complete := nofun
  warnVram_safe := nofun

namespace DecRegs.Inv

variable {d : DecRegs} (h : d.Inv)
include h

theorem sound : d.Sound := ⟨h.ipos_le, h.out_length⟩

theorem loadFlags (flags : Byte) (hcin : d.ipos + 1 ≤ d.cin.length) (hipos : d.ipos ≠ 0) :
    ((d.advance 1).loadFlags flags).Inv where
  ipos_le := hcin
  ipos_header := .inr (Nat.le_succ_of_le (h.ipos_header.resolve_left hipos))
  start_of_ipos := nofun
  out_length := h.out_length
  produced_le := h.produced_le
  dn_le := h.dn_le
  dfcnt_le := le_rfl
  dflags_low := Nat.mod_one _
  warnLen_complete := h.warnLen_complete
  warnVram_safe := h.warnVram_safe

theorem unit {flag : Bool} {n : Nat} {d' : DecRegs} (hunit : d.AtUnit flag) (hcin : d.ipos + n ≤ d.cin.length)
    (hleaves : d.UnitLeaves n d') : d'.Inv := by
  obtain ⟨hipos, howed, hcnt, -⟩ := hunit
  obtain ⟨bytes, len, vram, rfl, hbytes, hlen, hvram⟩ := hleaves
  have hheader : 4 ≤ d.ipos := h.ipos_header.resolve_left hipos
  have hcnt_le : d.dfcnt ≤ 8 := h.dfcnt_le
  have hfree : 8 - (d.dfcnt - 1) = 8 - d.dfcnt + 1 := by omega
  exact {
    ipos_le := hcin
    ipos_header := .inr (Nat.le_add_right_of_le hheader)
    start_of_ipos := fun hzero => absurd (Nat.eq_zero_of_add_eq_zero_right hzero) hipos
    out_length := by simp [DecRegs.afterUnit, h.out_length]
    produced_le := hbytes
    dn_le := h.dn_le
    dfcnt_le := (Nat.sub_le _ _).trans hcnt_le
    dflags_low := hfree ▸ shiftLeft_low h.dflags_low
    warnLen_complete := fun hw => (Bool.or_eq_true_iff.1 hw).elim
      (fun hold => absurd (h.warnLen_complete hold) howed.ne) hlen
    warnVram_safe := fun hw => (Bool.or_eq_true_iff.1 hw).elim h.warnVram_safe hvram }

end DecRegs.Inv

theorem DecRegs.start_inv (cin : Memory) (v : Bool) : (DecRegs.start cin v).Inv where
  ipos_le := Nat.zero_le _
  ipos_header := .inl rfl
  start_of_ipos _ := rfl
  out_length := rfl
  produced_le := le_rfl
  dn_le := Nat.zero_le _
  dfcnt_le := Nat.zero_le _
  dflags_low := rfl
  warnLen_complete := nofun
  warnVram_safe := nofun

/-- The bytes of a fetched instruction lie in `CIN`. -/
theorem ipos_add_size_le {c : Config} {ctx : Context} {i : Instr} {rest : Bytes} {d : DecRegs}
    (hle : d.ipos ≤ d.cin.length) (hdec : decodeIn c ctx d.ahead = .instr i rest) :
    d.ipos + i.size ≤ d.cin.length := by
  obtain ⟨hlen, -⟩ := decodeIn_instr hdec
  rw [DecRegs.ahead, List.length_drop] at hlen
  omega

/-- An instruction fetched in its context that goes on keeps the ranges of 10_state.md R27. -/
theorem decodedEffect_inv {c : Config} {i : Instr} {rest : Bytes} {d d' : DecRegs} (hd : d.Inv)
    (hdec : decodeIn c i.context d.ahead = .instr i rest) (hctx : d.context = some i.context)
    (heff : effect i d = .ok d') : d'.Inv := by
  have hcin : d.ipos + i.size ≤ d.cin.length := ipos_add_size_le hd.ipos_le hdec
  have hpos : 0 < i.size := i.size_pos
  obtain ⟨hi, hzero⟩ | ⟨hi, hipos, -⟩ | ⟨flag, hunit⟩ := DecRegs.context_cases hctx
  · obtain ⟨mode, size, hsize, hok⟩ := effect_of_header hi d
    cases hok.symm.trans heff
    rw [Instr.size_of_header hi, hzero] at hcin
    exact DecRegs.loadHeader_inv mode hcin hsize
  · obtain ⟨flags, hok⟩ := effect_of_control hi d
    cases hok.symm.trans heff
    exact hd.loadFlags flags (by omega) hipos
  · exact hd.unit hunit hcin (effect_unit_ok hunit hctx heff)

end Sys2Proof.Machine
end

section
/-! SUPPORT. The ranges of the Finder's and of the Encoder's registers are kept, candidate by candidate and unit by unit
(10_state.md R26, R28). -/

namespace Sys2Proof.Machine

/-! ### The Finder's registers -/

/-- `m` is the best of some candidates before displacement `n`, at its own match length; or none, at length 0. -/
structure FindRegs.BestBefore (f : FindRegs) (n : Nat) (m : Found) : Prop where
  before : m.disp < n
  none_iff : m.disp = 0 ↔ m.len = 0
  own_len : 0 < m.disp → m.len = matchLen f.src (findCap f.src f.p f.lprobe) (f.p - m.disp) f.p
  allowed : excluded f.vramSafe m.disp = false

theorem FindRegs.Inv.best {f : FindRegs} (h : f.Inv) : f.BestBefore f.fd f.best :=
  ⟨h.best_before, h.best_none, h.best_len, h.best_allowed⟩

/-- Examining the candidate `FD` keeps the best so far, or takes the candidate at its own match length. -/
theorem FindRegs.Inv.examined {f : FindRegs} (h : f.Inv) : f.BestBefore (f.fd + 1) f.examined := by
  unfold FindRegs.examined
  obtain ⟨heq, -⟩ | ⟨heq, hallowed, hlt⟩ :=
    examine_cases f.src f.p (findCap f.src f.p f.lprobe) f.vramSafe f.fd f.best <;> rw [heq]
  · exact { h.best with before := Nat.lt_succ_of_lt h.best_before }
  · have hfd : f.fd ≠ 0 := Nat.one_le_iff_ne_zero.1 h.fd_pos
    exact ⟨Nat.lt_succ_self _, iff_of_false hfd (Nat.ne_zero_of_lt hlt), fun _ => rfl, hallowed⟩

/-- A candidate that does not end the scan leaves the registers in their ranges. -/
theorem FindRegs.Inv.next {f : FindRegs} (h : f.Inv) (hv : ValidFind f.src f.p f.lprobe f.dmax) (hl : ¬ f.isLast) :
    f.next.Inv := by
  obtain ⟨hcap, hfd⟩ := not_or.1 hl
  have hbelow : f.fbestL < findCap f.src f.p f.lprobe := h.best_below_cap hv
  have hle : f.examined.len ≤ findCap f.src f.p f.lprobe := examine_le hbelow.le
  exact {
    fd_pos := Nat.le_add_left 1 f.fd
    fd_le := fun _ => Nat.lt_of_not_le hfd
    best_before := h.examined.before
    best_below_cap := fun _ => lt_of_le_of_ne hle hcap
    best_none := h.examined.none_iff
    best_len := h.examined.own_len
    best_allowed := h.examined.allowed
    start_of_invalid := fun hn => absurd hv hn }

/-- What FIND answers is in the window (10_state.md R24). -/
theorem FindRegs.Inv.result {f : FindRegs} (c : Config) (h : f.Inv) (hv : ValidFind f.src f.p f.lprobe f.dmax) :
    Result.Inv c (.find (foundOf f.examined)) := by
  unfold foundOf
  split
  · trivial
  · rename_i hlen
    have hdisp : f.examined.disp ≠ 0 := mt h.examined.none_iff.1 hlen
    have hlast : f.fd ≤ min f.dmax f.p := h.fd_le hv
    obtain ⟨-, -, -, -, hwindow⟩ := hv
    have hbefore : f.examined.disp < f.fd + 1 := h.examined.before
    exact ⟨Nat.one_le_iff_ne_zero.2 hdisp, by omega, Nat.one_le_iff_ne_zero.2 hlen⟩

theorem FindRegs.start_inv (src : Memory) (p l dmax : Nat) (v : Bool) : (FindRegs.start src p l dmax v).Inv where
  fd_pos := le_rfl
  fd_le hv := by
    obtain ⟨hp, -, -, hd, -⟩ := hv
    exact le_min hd hp
  best_before := Nat.zero_lt_one
  best_below_cap hv := by
    obtain ⟨-, hp, hl, -, -⟩ := hv
    exact lt_min hl (Nat.sub_pos_of_lt hp)
  best_none := Iff.rfl
  best_len := nofun
  best_allowed := Bool.and_false v
  start_of_invalid _ := rfl

/-! ### The group being packed -/

/-- Fewer than 8 units wait, of at most 4 bytes each, and the flag bits of the missing ones are 0 (10_state.md R26,
41_encoder.md R140). -/
structure Packer.Waiting (k : Packer) : Prop where
  eucnt_lt : k.eucnt < group
  eunits_le : k.eunits.length ≤ 4 * k.eucnt
  ectrl_low : k.ectrl.toNat % 2 ^ (8 - k.eucnt) = 0

theorem Packer.start_waiting (out : Memory) : (Packer.start out).Waiting := ⟨Nat.zero_lt_succ 7, le_rfl, rfl⟩

theorem Packer.Waiting.pad {k : Packer} (h : k.Waiting) : k.pad.Waiting := ⟨h.eucnt_lt, h.eunits_le, h.ectrl_low⟩

theorem Packer.Waiting.addUnit {k : Packer} (h : k.Waiting) (f : Bool) {bs : Bytes} (hbs : bs.length ≤ 4) :
    (k.addUnit f bs).Waiting := by
  obtain ⟨hlt, hunits, hlow⟩ := h
  rcases addUnit_cases f bs k with ⟨hne, heq⟩ | ⟨-, heq⟩ <;> rw [heq]
  · exact ⟨lt_of_le_of_ne hlt hne, by simp; omega, setFlag_low f hlt hlow⟩
  · exact Packer.start_waiting _

/-- Adding a unit appends to `OUT` or leaves it (20_memory.md R53). -/
theorem out_prefix_addUnit (k : Packer) (f : Bool) (bs : Bytes) : k.out <+: (k.addUnit f bs).out := by
  rcases addUnit_cases f bs k with ⟨-, heq⟩ | ⟨-, heq⟩ <;> rw [heq]
  exact List.prefix_append _ _

/-! ### The Encoder's registers -/

theorem lt_length_of_readByte {m : Memory} {i : Nat} {b : Byte} (h : readByte m i = some b) : i < m.length :=
  (List.getElem?_eq_some_iff.1 h).1

theorem length_mod_of_padding_eq_nil {m : Memory} (h : padding m = []) : m.length % padAlign = 0 := by
  have hlen := length_padding m
  rwa [h, List.append_nil] at hlen

/-- The cursor stays within the source: a literal is a byte of it, and a match ends in it. -/
theorem encodeUnit_ep_le {c : Config} {b : Byte} {e : EncRegs} (hep : e.ep < e.src.length) :
    (encodeUnit c b e).ep ≤ e.src.length := by
  rcases encodeUnit_cases c b e with ⟨-, h⟩ | ⟨m, hm, h⟩ <;> rw [h]
  · exact hep
  · obtain ⟨-, husable⟩ := committed_some hm
    obtain ⟨-, -, hend⟩ := usableMatch_some husable
    rw [EncRegs.emitMatch_ep]
    omega

theorem EncRegs.Inv.header_isPrefix {c : Config} {e : EncRegs} (h : e.Inv c) (ho : e.pk.out ≠ []) :
    Machine.writeHeader c e.mode e.src.length <+: e.pk.out :=
  List.prefix_iff_eq_take.2 (h.header_written ho).symm

/-- Past the header the registers stay in their ranges when the cursor stays in the source, the group waits and `OUT` only
grows. -/
theorem EncRegs.Inv.grow {c : Config} {e : EncRegs} {ep : Nat} {pk : Packer} (h : e.Inv c) (ho : e.pk.out ≠ [])
    (hep : ep ≤ e.src.length) (hpk : pk.Waiting) (hout : e.pk.out <+: pk.out) :
    EncRegs.Inv c { e with ep := ep, pk := pk } where
  ep_le := hep
  eucnt_lt := hpk.eucnt_lt
  eunits_le := hpk.eunits_le
  ectrl_low := hpk.ectrl_low
  start_of_out hnil := absurd (List.prefix_nil.1 (hnil ▸ hout)) ho
  size_le _ := h.size_le ho
  header_written _ := (List.prefix_iff_eq_take.1 ((h.header_isPrefix ho).trans hout)).symm

theorem EncRegs.Inv.waiting {c : Config} {e : EncRegs} (h : e.Inv c) : e.pk.Waiting :=
  ⟨h.eucnt_lt, h.eunits_le, h.ectrl_low⟩

theorem EncRegs.Inv.encodeUnit {c : Config} {b : Byte} {e : EncRegs} (h : e.Inv c) (ho : e.pk.out ≠ [])
    (hep : e.ep < e.src.length) : (encodeUnit c b e).Inv c := by
  have hep' : (Machine.encodeUnit c b e).ep ≤ e.src.length := encodeUnit_ep_le hep
  rcases encodeUnit_cases c b e with ⟨-, heq⟩ | ⟨m, -, heq⟩ <;> rw [heq] at hep' ⊢
  · exact h.grow ho hep' (h.waiting.addUnit false (by simp)) (out_prefix_addUnit ..)
  · exact h.grow ho hep' (h.waiting.addUnit true (encodeMatch_length_le ..)) (out_prefix_addUnit ..)

theorem EncRegs.Inv.flush {c : Config} {e : EncRegs} (h : e.Inv c) (ho : e.pk.out ≠ []) :
    EncRegs.Inv c { e with pk := e.pk.flush } :=
  h.grow ho h.ep_le (Packer.start_waiting _) (by simp)

theorem EncRegs.Inv.pad {c : Config} {e : EncRegs} (h : e.Inv c) (ho : e.pk.out ≠ []) :
    EncRegs.Inv c { e with pk := e.pk.pad } :=
  h.grow ho h.ep_le h.waiting.pad (by simp)

theorem EncRegs.start_inv (c : Config) (src : Memory) (mode : Mode) (v : Bool) : (EncRegs.start src mode v).Inv c where
  ep_le := Nat.zero_le _
  eucnt_lt := Nat.zero_lt_succ 7
  eunits_le := le_rfl
  ectrl_low := rfl
  start_of_out _ := rfl
  size_le hne := absurd rfl hne
  header_written hne := absurd rfl hne

/-- The header is the first write of `OUT`, for a source of legal size (41_encoder.md R121, R122). -/
theorem EncRegs.Inv.writeHeader {c : Config} {e : EncRegs} (h : e.Inv c) (ho : e.pk.out = [])
    (hsize : e.src.length ≤ maxSize) : (e.writeHeader c).Inv c where
  ep_le := h.ep_le
  eucnt_lt := h.eucnt_lt
  eunits_le := h.eunits_le
  ectrl_low := h.ectrl_low
  start_of_out hnil := by simp [Machine.writeHeader] at hnil
  size_le _ := hsize
  header_written _ := by simp [ho, Machine.writeHeader]

end Sys2Proof.Machine
end

section
/-! SUPPORT. Every step keeps the invariant of the machine, activity by activity. -/

namespace Sys2Proof.Machine

theorem State.Inv.setActivity {s : State} {a : Activity} (h : s.Inv) (ha : a.Inv s.cfg) : (s.setActivity a).Inv :=
  ⟨ha, h.result⟩

/-- The end of a request with a record in its bounds. -/
theorem finish_inv {s : State} {r : Result} (hr : r.Inv s.cfg) : (finish r s).Inv where
  activity := trivial
  result r' h := by cases h; exact hr

theorem raise_inv {s : State} {e : Err} (he : Result.Inv s.cfg (.error e)) : (raise e s).Inv := finish_inv he

theorem State.Inv.tick {s : State} (h : s.Inv) : s.tick.Inv where
  activity := by simpa using h.activity
  result := by simpa using h.result

theorem State.Inv.popMove {s : State} (h : s.Inv) : s.popMove.Inv := ⟨h.activity, h.result⟩

theorem Request.activity_inv (c : Config) (r : Request) : r.activity.Inv c := by
  cases r with
  | find src p l dmax v => exact FindRegs.start_inv src p l dmax v
  | encode src mode v => exact EncRegs.start_inv c src mode v
  | decode cin v => exact DecRegs.start_inv cin v

theorem hostMove_inv {m : HostMove} {s t : State} (h : s.Inv) (hst : hostMove m s = .next t) : t.Inv := by
  obtain ⟨hcfg, ⟨r, rfl⟩ | ⟨hact, hres⟩ | ⟨hact, hres⟩⟩ := hostMove_next hst
  · exact h.setActivity (r.activity_inv s.cfg)
  · exact ⟨by rw [hact]; trivial, by simp [hres]⟩
  · refine ⟨by rw [hact, hcfg]; exact h.activity, ?_⟩
    rcases hres with hres | hres
    · rw [hres, hcfg]; exact h.result
    · simp [hres]

/-- One candidate of a FIND. -/
theorem stepFind_inv {f : FindRegs} {s : State} (h : s.Inv) (hf : f.Inv) : (stepFind f s).Inv := by
  by_cases hv : ValidFind f.src f.p f.lprobe f.dmax
  · by_cases hl : f.isLast
    · rw [stepFind_last hv hl]
      exact finish_inv (hf.result s.cfg hv)
    · rw [stepFind_goesOn hv hl]
      exact h.setActivity (hf.next hv hl)
  · rw [stepFind_invalid hv]
    exact raise_inv hv

/-- One turn of an ENCODE. -/
theorem stepEncode_inv {e : EncRegs} {s : State} (h : s.Inv) (he : e.Inv s.cfg) : (stepEncode e s).Inv := by
  by_cases ho : e.pk.out = []
  · by_cases hn : maxSize < e.src.length
    · rw [stepEncode_tooLarge ho hn]
      exact raise_inv hn
    · rw [stepEncode_header ho hn]
      exact h.setActivity (he.writeHeader ho (Nat.le_of_not_lt hn))
  · cases hb : readByte e.src e.ep with
    | some b =>
      rw [stepEncode_unit ho hb]
      exact h.setActivity (he.encodeUnit ho (lt_length_of_readByte hb))
    | none =>
      by_cases hu : 0 < e.pk.eucnt
      · rw [stepEncode_flush ho hb hu]
        exact h.setActivity (he.flush ho)
      · by_cases hp : padding e.pk.out = []
        · rw [stepEncode_done ho hb hu hp]
          exact finish_inv (length_mod_of_padding_eq_nil hp)
        · rw [stepEncode_pad ho hb hu hp]
          exact h.setActivity (he.pad ho)

/-- One step of a DECODE: the four things it can have done. -/
theorem step_decoding_inv {s t : State} {d : DecRegs} (h : s.Inv) (hd : d.Inv) (hdue : s.dueMove = none)
    (hs : s.activity = .decoding d) (hst : step s = .next t) : t.Inv := by
  obtain ⟨i, rest, d', hdec, hctx, heff, rfl⟩ | ⟨i, rest, e, -, -, heff, rfl⟩ | ⟨e, htrap, rfl⟩ | ⟨hctx, rfl⟩ :=
    step_decoding_next hdue hs hst
  · exact h.tick.setActivity (decodedEffect_inv hd hdec hctx heff)
  · obtain ⟨m, hm, hlt, rfl⟩ := effect_raised heff
    exact raise_inv ⟨hlt, disp_le_window_of_matchOperands hm⟩
  · exact raise_inv (by rw [State.tick_cfg]; exact nextInstr_trap_inv htrap)
  · exact finish_inv (hd.out_length.trans_le (hd.produced_le.trans hd.dn_le))

theorem step_inv {s t : State} (h : s.Inv) (hst : step s = .next t) : t.Inv := by
  cases hdue : s.dueMove with
  | some m =>
    rw [step_of_due hdue] at hst
    exact hostMove_inv h.popMove hst
  | none =>
    have hact := h.activity
    cases hs : s.activity with
    | idle =>
      cases (step_idle hdue hs).symm.trans hst
      exact h.tick
    | finding f =>
      cases (step_finding hdue hs).symm.trans hst
      rw [hs] at hact
      exact stepFind_inv h.tick hact
    | encoding e =>
      cases (step_encoding hdue hs).symm.trans hst
      rw [hs] at hact
      exact stepEncode_inv h.tick (by rw [State.tick_cfg]; exact hact)
    | decoding d =>
      rw [hs] at hact
      exact step_decoding_inv h hact hdue hs hst

end Sys2Proof.Machine
end

section
/-! SUPPORT. The host's reads of the record on an idle block, and the fields of the records (10_state.md R24, R37). -/

namespace Sys2Proof.Machine

/-- Every move whose time has come lands on an idle block. -/
theorem step_due_of_idle {s : State} {m : HostMove} {later : List Pending} (hidle : s.activity = .idle)
    (hm : s.moves = ⟨0, m⟩ :: later) : step s = hostMove m { s with moves := later } := by
  have hland : m.canLand s = true := by cases m <;> simp [HostMove.canLand, hidle]
  rw [step_of_due (dueMove_of_moves hm hland), State.popMove, hm, List.tail_cons]

section Record

variable {s : State} {r : Result} {f : ResultField}

theorem readField_of_none (f : ResultField) (h : s.result = none) : readField f s = .fault .noResult := by
  simp only [readField, h]

theorem readField_of_absent (h : s.result = some r) (hf : r.field f = none) : readField f s = .fault .noSuchField := by
  simp only [readField, h, hf]

theorem readField_of_present {v : FieldValue} (h : s.result = some r) (hf : r.field f = some v) :
    readField f s = .next { s with reads := s.reads ++ [v] } := by
  simp only [readField, h, hf]

theorem takeResult_of_none (h : s.result = none) : takeResult s = .fault .noResult := by
  simp only [takeResult, h]

theorem takeResult_of_some (h : s.result = some r) :
    takeResult s = .next { s with result := none, received := s.received ++ [r] } := by
  simp only [takeResult, h]

end Record

/-! ### The fields that a record has not -/

theorem field_find_some_eq_none (m : Found) {f : ResultField}
    (h : f = .err ∨ f = .errInfo ∨ f = .out ∨ f = .warnLen ∨ f = .warnVram) : (Result.find (some m)).field f = none := by
  rcases h with rfl | rfl | rfl | rfl | rfl <;> rfl

theorem field_find_none_eq_none {f : ResultField} (hs : f ≠ .status) (hf : f ≠ .found) :
    (Result.find none).field f = none := by
  cases f with
  | status => exact absurd rfl hs
  | found => exact absurd rfl hf
  | _ => rfl

theorem field_encode_eq_none (out : Memory) {f : ResultField} (hs : f ≠ .status) (ho : f ≠ .out) :
    (Result.encode out).field f = none := by
  cases f with
  | status => exact absurd rfl hs
  | out => exact absurd rfl ho
  | _ => rfl

theorem field_decode_eq_none (out : Memory) (w v : Bool) {f : ResultField}
    (h : f = .err ∨ f = .errInfo ∨ f = .found ∨ f = .fdisp ∨ f = .flen) : (Result.decode out w v).field f = none := by
  rcases h with rfl | rfl | rfl | rfl | rfl <;> rfl

end Sys2Proof.Machine
end

section
/-! SUPPORT. Packing units into an empty group (41_encoder.md R133, R134). -/

namespace Sys2Proof.Machine

/-- Bit `7 − k` of a control byte is the flag of unit `k`, and 0 where there is no unit (10_state.md R31). -/
def FlagsOf (units : List (Bool × Bytes)) (ctrl : Byte) : Prop :=
  ∀ k, k < 8 → ctrl.getLsbD (7 - k) = ((units[k]?).map Prod.fst).getD false

theorem FlagsOf.nil : FlagsOf [] 0 := fun k _ => by simp

/-- One unit more sets its own bit alone. -/
theorem FlagsOf.snoc {units : List (Bool × Bytes)} {ctrl : Byte} (h : FlagsOf units ctrl) (hlen : units.length < 8)
    (u : Bool × Bytes) : FlagsOf (units ++ [u]) (setFlag ctrl units.length u.1) := by
  intro k hk
  rw [setFlag_bit ctrl units.length u.1 k hlen hk, h k hk]
  rcases lt_trichotomy k units.length with hlt | rfl | hgt
  · simp [List.getElem?_append_left hlt, hlt.ne]
  · simp
  · have hnone : units[k]? = none := List.getElem?_eq_none hgt.le
    have hnone' : (units ++ [u])[k]? = none := List.getElem?_eq_none (by simpa using hgt)
    simp [hnone, hnone', hgt.ne']

theorem addUnit_waits {k : Packer} (f : Bool) (bs : Bytes) (h : k.eucnt + 1 ≠ group) :
    k.addUnit f bs = { k with ectrl := setFlag k.ectrl k.eucnt f, eucnt := k.eucnt + 1, eunits := k.eunits ++ bs } := by
  rcases addUnit_cases f bs k with ⟨-, heq⟩ | ⟨hfull, -⟩
  · exact heq
  · exact absurd hfull h

theorem addUnit_flushes {k : Packer} (f : Bool) (bs : Bytes) (h : k.eucnt + 1 = group) :
    k.addUnit f bs = Packer.start (k.out ++ setFlag k.ectrl k.eucnt f :: (k.eunits ++ bs)) := by
  rcases addUnit_cases f bs k with ⟨hne, -⟩ | ⟨-, heq⟩
  · exact absurd h hne
  · exact heq

/-- Fewer than 8 units wait in the group, with `OUT` unchanged. -/
theorem pack_waits (out : Memory) (units : List (Bool × Bytes)) (hlen : units.length < 8) :
    ∃ ctrl, FlagsOf units ctrl ∧
      units.foldl (fun k u => k.addUnit u.1 u.2) (Packer.start out) =
        { ectrl := ctrl, eucnt := units.length, eunits := (units.map Prod.snd).flatten, out := out } := by
  induction units using List.reverseRecOn with
  | nil => exact ⟨0, .nil, rfl⟩
  | append_singleton units u ih =>
    rw [List.length_append, List.length_singleton] at hlen
    obtain ⟨ctrl, hflags, hpack⟩ := ih (by omega)
    refine ⟨setFlag ctrl units.length u.1, hflags.snoc (by omega) u, ?_⟩
    rw [List.foldl_append, hpack, List.foldl_cons, List.foldl_nil, addUnit_waits _ _ hlen.ne]
    simp

/-- The 8th unit writes the control byte and the units, and a new group begins. -/
theorem pack_flushes (out : Memory) (units : List (Bool × Bytes)) (hlen : units.length = 8) :
    ∃ ctrl, FlagsOf units ctrl ∧
      units.foldl (fun k u => k.addUnit u.1 u.2) (Packer.start out) =
        Packer.start (out ++ ctrl :: (units.map Prod.snd).flatten) := by
  rcases List.eq_nil_or_concat' units with rfl | ⟨init, u, rfl⟩
  · cases hlen
  · rw [List.length_append, List.length_singleton] at hlen
    obtain ⟨ctrl, hflags, hpack⟩ := pack_waits out init (by omega)
    refine ⟨setFlag ctrl init.length u.1, hflags.snoc (by omega) u, ?_⟩
    rw [List.foldl_append, hpack, List.foldl_cons, List.foldl_nil, addUnit_flushes _ _ hlen]
    simp

end Sys2Proof.Machine
end

section
/-! SUPPORT. What a step of a running DECODE that goes on leaves: the frame, the warnings, the cursor. -/

namespace Sys2Proof.Machine

section MemRead

variable {s : State} {d d' : DecRegs} (hs : s.activity = .decoding d)
include hs

theorem memRead_cin_setActivity (h : d'.cin = d.cin) (a : Nat) :
    (s.setActivity (.decoding d')).memRead .cin a = s.memRead .cin a := by
  simp only [State.memRead, State.space, State.setActivity_activity, hs, h]

theorem memRead_out_setActivity (h : d'.out = d.out) (a : Nat) :
    (s.setActivity (.decoding d')).memRead .out a = s.memRead .out a := by
  simp only [State.memRead, State.space, State.setActivity_activity, hs, h]

end MemRead

/-- An instruction that cannot raise goes on with its effect. -/
theorem exec_next_of_ok {i : Instr} {s t : State} {d d' : DecRegs} (hs : s.activity = .decoding d)
    (heff : effect i d = .ok d') (h : exec i s = .next t) :
    d.context = some i.context ∧ t = s.setActivity (.decoding d') := by
  obtain ⟨d₁, hs₁, hctx, hnext⟩ := exec_next h
  cases hs.symm.trans hs₁
  obtain ⟨d₂, hok, rfl⟩ | ⟨e, herr, -⟩ := hnext
  · cases heff.symm.trans hok
    exact ⟨hctx, rfl⟩
  · cases heff.symm.trans herr

/-- A step to a DECODE still running has run an instruction in its context. -/
theorem step_decoding_goesOn {s t : State} {d d' : DecRegs} (hdue : s.dueMove = none) (hs : s.activity = .decoding d)
    (hst : step s = .next t) (ht : t.activity = .decoding d') :
    ∃ i, d.context = some i.context ∧ effect i d = .ok d' ∧ decoderStep s.cfg d = .ok d' := by
  obtain ⟨i, rest, d₁, hdec, hctx, heff, rfl⟩ | ⟨i, rest, e, -, -, -, rfl⟩ | ⟨e, -, rfl⟩ | ⟨-, rfl⟩ :=
    step_decoding_next hdue hs hst <;> cases ht
  exact ⟨i, hctx, heff, (decoderStep_of_instr hctx hdec).trans heff⟩

/-- No instruction but a header clears a warning (10_state.md R33). -/
theorem effect_keeps_warnings {i : Instr} {d d' : DecRegs} (hipos : d.ipos ≠ 0) (hctx : d.context = some i.context)
    (heff : effect i d = .ok d') :
    (d.warnLen = true → d'.warnLen = true) ∧ (d.warnVram = true → d'.warnVram = true) := by
  obtain ⟨-, hzero⟩ | ⟨hi, -⟩ | ⟨flag, hunit⟩ := DecRegs.context_cases hctx
  · exact absurd hzero hipos
  · obtain ⟨flags, hok⟩ := effect_of_control hi d
    cases hok.symm.trans heff
    exact ⟨id, id⟩
  · obtain ⟨bytes, len, vram, rfl, -⟩ := effect_unit_ok hunit hctx heff
    exact ⟨fun hw => Bool.or_eq_true_iff.2 (.inl hw), fun hw => Bool.or_eq_true_iff.2 (.inl hw)⟩

end Sys2Proof.Machine
end

section
/-! SUPPORT. The statements of the state family settled. -/

open Sys2Proof Sys2Proof.Machine

/-- Settles O30: activity by activity, from what a step can do. -/
theorem stepKeepsTheInvariant : Obligations.StepKeepsTheInvariant :=
  fun _ _ => step_inv

/-- Settles O20: the effect of a header and of `CTRL` is one update of the Decoder's registers. -/
theorem headerAndControlFrame : Obligations.HeaderAndControlFrame := by
  intro s t d i hi hs hst
  rcases hi with hi | hi
  · obtain ⟨mode, size, -, heff⟩ := effect_of_header hi d
    obtain ⟨hctx, rfl⟩ := exec_next_of_ok hs heff hst
    refine ⟨rfl, rfl, rfl, rfl, rfl, memRead_cin_setActivity hs rfl, _, rfl, rfl, rfl, fun hc => ?_, fun _ hd => ?_⟩
    · cases hi.symm.trans hc
    · have hstart := hd.start_of_ipos (DecRegs.context_eq_header.1 (hi ▸ hctx))
      exact memRead_out_setActivity hs (by rw [hstart]; rfl)
  · obtain ⟨flags, heff⟩ := effect_of_control hi d
    obtain ⟨-, rfl⟩ := exec_next_of_ok hs heff hst
    refine ⟨rfl, rfl, rfl, rfl, rfl, memRead_cin_setActivity hs rfl, _, rfl, rfl, rfl, fun _ => ?_, fun hc => ?_⟩
    · exact ⟨rfl, rfl, rfl, rfl, rfl, memRead_out_setActivity hs rfl⟩
    · cases hi.symm.trans hc

/-- Settles O28: a control byte leaves the warnings, and a unit joins its own to them. -/
theorem warningsAreSticky : Obligations.WarningsAreSticky := by
  intro s t d d' hdue hs hipos hst ht
  obtain ⟨i, hctx, heff, -⟩ := step_decoding_goesOn hdue hs hst ht
  exact effect_keeps_warnings hipos hctx heff

/-- Settles O33: a step that goes on has run an instruction, whose bytes lie in `CIN` and are passed. -/
theorem decoderAdvances : Obligations.DecoderAdvances := by
  intro s t d d' h hdue hs hst ht
  have hd : d.Inv := by
    have hact := h.activity
    rwa [hs] at hact
  obtain ⟨i, hctx, -, hstep⟩ := step_decoding_goesOn hdue hs hst ht
  obtain ⟨hsound, hlt, hcin⟩ := decoderStep_sound hd.sound (by simp [hctx]) hstep
  exact ⟨hlt, hcin ▸ hsound.ipos_le⟩

/-- Settles O34: below `|SRC|` a turn of the Encoder is a unit, which moves the cursor within the source. -/
theorem encoderAdvances : Obligations.EncoderAdvances := by
  intro s e hdue hs ho hep
  have hb : readByte e.src e.ep = some e.src[e.ep] := List.getElem?_eq_getElem hep
  refine ⟨encodeUnit s.tick.cfg e.src[e.ep] e, ?_, lt_encodeUnit_ep _ _ e, encodeUnit_ep_le hep⟩
  rw [step_encoding hdue hs, stepEncode_unit ho hb]

/-- Settles O48: by induction on the units, each setting its own bit; the 8th flushes. -/
theorem groupPacking : Obligations.GroupPacking := by
  intro out units hlen
  by_cases h8 : units.length = 8
  · obtain ⟨ctrl, hflags, hpack⟩ := pack_flushes out units h8
    exact ⟨ctrl, hflags, by rw [hpack, if_pos h8]; rfl⟩
  · obtain ⟨ctrl, hflags, hpack⟩ := pack_waits out units (lt_of_le_of_ne hlen h8)
    exact ⟨ctrl, hflags, by rw [hpack, if_neg h8]⟩

/-- Settles O39: record by record, the fields it has and those it has not. -/
theorem fieldsOfOkRecords : Obligations.FieldsOfOkRecords :=
  fun m out w v =>
    ⟨⟨rfl, rfl, rfl, rfl, fun _ => field_find_some_eq_none m⟩, ⟨rfl, rfl, fun _ => field_find_none_eq_none⟩,
      ⟨rfl, rfl, fun _ => field_encode_eq_none out⟩, ⟨rfl, rfl, rfl, rfl, fun _ => field_decode_eq_none out w v⟩⟩

/-- Settles O40: on an idle block the move lands, and what it does is fixed by the record. -/
theorem resultRecordReads : Obligations.ResultRecordReads := by
  intro s later f hidle
  refine ⟨fun r hm hr hf => ?_, fun hm hr => ?_, fun hm hr => ?_, fun r hm hr => ?_, fun r v hm hr hf => ?_⟩ <;>
    rw [step_due_of_idle hidle hm]
  · exact readField_of_absent hr hf
  · exact readField_of_none f hr
  · exact takeResult_of_none hr
  · exact takeResult_of_some hr
  · exact readField_of_present hr hf

end

section
/-! SUPPORT. How a running request goes on, kind by kind: what a step from a running block to a running block does with the
input, the other operands and `OUT` (20_memory.md R51 to R53, R64). -/

namespace Sys2Proof.Machine

/-- How the activity of a running request goes on in one step: a FIND with its next candidate, an ENCODE with a new cursor and
packer whose `OUT` extends the old one, a DECODE with the effect of an instruction in its context. -/
inductive GoesOn : Activity → Activity → Prop where
  | candidate (f : FindRegs) : GoesOn (.finding f) (.finding f.next)
  | turn (e : EncRegs) (ep : Nat) (pk : Packer) (hout : e.pk.out <+: pk.out) :
      GoesOn (.encoding e) (.encoding { e with ep := ep, pk := pk })
  | instr (i : Instr) (d d' : DecRegs) (hctx : d.context = some i.context) (heff : effect i d = .ok d') :
      GoesOn (.decoding d) (.decoding d')

/-! ### The step of each kind -/

theorem stepFind_running {f : FindRegs} {s : State} (h : (stepFind f s).activity ≠ .idle) :
    (stepFind f s).activity = .finding f.next := by
  by_cases hv : ValidFind f.src f.p f.lprobe f.dmax
  · by_cases hl : f.isLast
    · exact absurd (by rw [stepFind_last hv hl, finish_activity]) h
    · rw [stepFind_goesOn hv hl, State.setActivity_activity]
  · exact absurd (by rw [stepFind_invalid hv, raise_activity]) h

theorem goesOn_encodeUnit (c : Config) (b : Byte) (e : EncRegs) :
    GoesOn (.encoding e) (.encoding (encodeUnit c b e)) := by
  rcases encodeUnit_cases c b e with ⟨-, heq⟩ | ⟨m, -, heq⟩ <;> rw [heq]
  · exact .turn e _ _ (out_prefix_addUnit ..)
  · exact .turn e _ _ (out_prefix_addUnit ..)

/-- The header, a unit, the flush and the padding each append to `OUT` or leave it. -/
theorem goesOn_stepEncode {e : EncRegs} {s : State} (h : (stepEncode e s).activity ≠ .idle) :
    GoesOn (.encoding e) (stepEncode e s).activity := by
  by_cases ho : e.pk.out = []
  · by_cases hn : maxSize < e.src.length
    · exact absurd (by rw [stepEncode_tooLarge ho hn, raise_activity]) h
    · rw [stepEncode_header ho hn]
      exact .turn e e.ep _ (List.prefix_append ..)
  · cases hb : readByte e.src e.ep with
    | some b =>
      rw [stepEncode_unit ho hb]
      exact goesOn_encodeUnit s.cfg b e
    | none =>
      by_cases hu : 0 < e.pk.eucnt
      · rw [stepEncode_flush ho hb hu]
        exact .turn e e.ep _ (by simp)
      · by_cases hp : padding e.pk.out = []
        · exact absurd (by rw [stepEncode_done ho hb hu hp, finish_activity]) h
        · rw [stepEncode_pad ho hb hu hp]
          exact .turn e e.ep _ (List.prefix_append ..)

/-! ### Any step -/

/-- No step changes a parameter. -/
theorem step_cfg {s t : State} (hst : step s = .next t) : t.cfg = s.cfg := by
  cases hdue : s.dueMove with
  | some m =>
    obtain ⟨hcfg, -⟩ := hostMove_next (step_of_due hdue ▸ hst)
    exact hcfg
  | none =>
    obtain ⟨a, rfl⟩ | ⟨r, rfl⟩ := blockStep_next (step_of_notDue hdue ▸ hst)
    · exact s.tick_cfg
    · exact s.tick_cfg

/-- Where a request goes on no move has landed: only a reset lands inside one, and it ends it. -/
theorem dueMove_eq_none_of_goesOn {s t : State} (hst : step s = .next t) (hs : s.activity ≠ .idle)
    (ht : t.activity ≠ .idle) : s.dueMove = none := by
  cases hdue : s.dueMove with
  | none => rfl
  | some m =>
    by_cases hreset : m = .reset
    · subst hreset
      cases (step_of_due hdue).symm.trans hst
      exact absurd rfl ht
    · exact absurd (idle_of_due hdue hreset) hs

theorem step_goesOn {s t : State} (hst : step s = .next t) (hs : s.activity ≠ .idle) (ht : t.activity ≠ .idle) :
    GoesOn s.activity t.activity := by
  have hdue : s.dueMove = none := dueMove_eq_none_of_goesOn hst hs ht
  cases hact : s.activity with
  | idle => exact absurd hact hs
  | finding f =>
    cases (step_finding hdue hact).symm.trans hst
    rw [stepFind_running ht]
    exact .candidate f
  | encoding e =>
    cases (step_encoding hdue hact).symm.trans hst
    exact goesOn_stepEncode ht
  | decoding d =>
    obtain ⟨i, rest, d', -, hctx, heff, rfl⟩ | ⟨i, rest, e, -, -, -, rfl⟩ | ⟨e, -, rfl⟩ | ⟨-, rfl⟩ :=
      step_decoding_next hdue hact hst
    · exact .instr i d d' hctx heff
    · exact absurd rfl ht
    · exact absurd rfl ht
    · exact absurd rfl ht

/-! ### The output -/

/-- An instruction appends to `OUT` or leaves it; under the invariant a header finds it empty (10_state.md R29). -/
theorem out_prefix_effect {i : Instr} {d d' : DecRegs} (hd : d.Inv) (hctx : d.context = some i.context)
    (heff : effect i d = .ok d') : d.out <+: d'.out := by
  obtain ⟨-, hzero⟩ | ⟨hi, -⟩ | ⟨flag, hunit⟩ := DecRegs.context_cases hctx
  · have hempty : d.out = [] := by rw [hd.start_of_ipos hzero, DecRegs.start_out]
    exact hempty ▸ List.nil_prefix
  · obtain ⟨flags, hok⟩ := effect_of_control hi d
    cases hok.symm.trans heff
    exact List.prefix_rfl
  · obtain ⟨bytes, len, vram, rfl, -⟩ := effect_unit_ok hunit hctx heff
    exact List.prefix_append ..

theorem space_out_prefix {s t : State} (h : s.Inv) (hgo : GoesOn s.activity t.activity) :
    s.space .out <+: t.space .out := by
  have hinv := h.activity
  unfold State.space
  generalize s.activity = a, t.activity = b at hgo hinv
  cases hgo with
  | candidate f => exact List.prefix_rfl
  | turn e ep pk hout => exact hout
  | instr i d d' hctx heff => exact out_prefix_effect hinv hctx heff

/-- A byte that is there keeps its index and value in any extension. -/
theorem readByte_of_prefix {m m' : Memory} {i : Nat} {b : Byte} (h : m <+: m') (hb : readByte m i = some b) :
    readByte m' i = some b := by
  obtain ⟨more, rfl⟩ := h
  exact (List.getElem?_append_left (lt_length_of_readByte hb)).trans hb

end Sys2Proof.Machine
end

section
/-! SUPPORT. The statements of the memory family settled. -/

open Sys2Proof Sys2Proof.Machine

/-- Settles O31: each way a request goes on carries its operands over. -/
theorem inputsAreStable : Obligations.InputsAreStable := by
  intro s t hst
  refine ⟨step_cfg hst, fun hrun => ?_⟩
  have hgo (ht : t.activity ≠ .idle) : GoesOn s.activity t.activity := step_goesOn hst hrun ht
  refine ⟨fun d d' hs ht => ?_, fun e e' hs ht => ?_, fun f f' hs ht => ?_⟩ <;>
    rw [hs, ht] at hgo <;> cases hgo nofun
  case instr i hctx heff =>
    obtain ⟨hcin, hvram, -⟩ := effect_ok heff
    exact ⟨hcin, hvram⟩
  case turn => exact ⟨rfl, rfl, rfl⟩
  case candidate => exact ⟨rfl, rfl, rfl, rfl, rfl⟩

/-- Settles O32: each way a request goes on leaves the old `OUT` a prefix of the new one. -/
theorem outputIsAppendOnly : Obligations.OutputIsAppendOnly :=
  fun _ _ h hs ht hst _ _ => readByte_of_prefix (space_out_prefix h (step_goesOn hst hs ht))

/-- Settles O41: the request lands on the idle block, and its mark refuses it. -/
theorem aliasedRequestIsRefused : Obligations.AliasedRequestIsRefused := by
  intro s r later hidle hm
  rw [step_due_of_idle hidle hm]
  refine ⟨fun src m v hr => ?_, fun cin v hr => ?_⟩ <;> subst hr
  · rfl
  · rfl

end

section
/-! SUPPORT. The encoder and the decoder are inverse to each other, instruction by instruction; and a decoding does not
depend on the bytes behind the instruction (30_encoding.md R71 to R83). -/

namespace Sys2Proof

theorem encode_length (c : Config) (i : Instr) : (encode c i).length = i.size := by
  cases i <;> rfl

/-! ### Nibbles -/

theorem joinNibbles_high (a b : BitVec 4) : (joinNibbles a b).extractLsb' 4 4 = a := hiNibble_joinNibbles a b

theorem joinNibbles_low (a b : BitVec 4) : (joinNibbles a b).extractLsb' 0 4 = b := loNibble_joinNibbles a b

theorem ne_form_tags_of_two_le {t : BitVec 4} (h : 2 ≤ t.toNat) : t ≠ 0 ∧ t ≠ 1 :=
  ⟨fun h0 => by simp [h0] at h, fun h1 => by simp [h1] at h⟩

theorem two_le_of_ne_form_tags {t : BitVec 4} (h0 : t ≠ 0) (h1 : t ≠ 1) : 2 ≤ t.toNat := by
  rw [ne_eq, ← BitVec.toNat_inj] at h0 h1
  simp at h0 h1
  omega

/-! ### Decoding what was encoded -/

theorem decodeMatch11_encode {i : Instr} (c : Config) (rest : Bytes) (hwf : i.WF) (hctx : i.context = .backRef .lz11) :
    decodeMatch11 (encode c i ++ rest) = .instr i rest := by
  cases i with
  | match11_2 t f =>
    obtain ⟨h0, h1⟩ := ne_form_tags_of_two_le (of_decide_eq_true hwf)
    simp only [encode, List.cons_append, List.nil_append, decodeMatch11, hiNibble_joinNibbles, loNibble_joinNibbles,
      if_neg h0, if_neg h1, join12_split]
  | match11_3 l f =>
    simp only [encode, List.cons_append, List.nil_append, decodeMatch11, hiNibble_joinNibbles, loNibble_joinNibbles,
      if_true, join8_split, join12_split]
  | match11_4 l f =>
    have h1 : (1 : BitVec 4) ≠ 0 := by decide
    simp only [encode, List.cons_append, List.nil_append, decodeMatch11, hiNibble_joinNibbles, loNibble_joinNibbles,
      if_neg h1, if_true, join16_split, join12_split]
  | _ => cases hctx

/-- Decoding looks for the tag of LZ10 first, so the tags must differ where an LZ11 header is to be read; for every other
instruction they need not. -/
theorem decodeIn_encode {c : Config} {i : Instr} (hwf : i.WF) (htags : ∀ size, i = .hdrLz11 size → c.WF)
    (rest : Bytes) : decodeIn c i.context (encode c i ++ rest) = .instr i rest := by
  cases hi : i with
  | hdrLz10 size =>
    simp only [encode, encodeHeader, Instr.context, List.cons_append, List.nil_append, decodeIn, decodeHeader, if_true,
      join24_split]
  | hdrLz11 size =>
    have htag : c.tagLz11 ≠ c.tagLz10 := (htags size hi).symm
    simp only [encode, encodeHeader, Instr.context, List.cons_append, List.nil_append, decodeIn, decodeHeader, if_true,
      if_neg htag, join24_split]
  | ctrl flags => rfl
  | lit b => rfl
  | match10 l f =>
    simp only [encode, Instr.context, List.cons_append, List.nil_append, decodeIn, decodeMatch10, hiNibble_joinNibbles,
      loNibble_joinNibbles, join12_split]
  | match11_2 t f => exact decodeMatch11_encode c rest (hi ▸ hwf) rfl
  | match11_3 l f => exact decodeMatch11_encode (i := .match11_3 l f) c rest rfl rfl
  | match11_4 l f => exact decodeMatch11_encode (i := .match11_4 l f) c rest rfl rfl

/-! ### Encoding what was decoded -/

/-- What an instruction read from `bs` with `rest` behind it says of `bs`. -/
structure ReadFrom (c : Config) (bs : Bytes) (i : Instr) (rest : Bytes) : Prop where
  wf : i.WF
  tags : ∀ size, i = .hdrLz11 size → c.WF
  bytes : encode c i ++ rest = bs

theorem readFrom_header {c : Config} {bs : Bytes} {i : Instr} {rest : Bytes} (h : decodeHeader c bs = .instr i rest) :
    ReadFrom c bs i rest := by
  match bs with
  | [] | [_] | [_, _] | [_, _, _] => cases h
  | b0 :: b1 :: b2 :: b3 :: more =>
    obtain ⟨h1, h2, h3⟩ := join24_fields b3 b2 b1
    simp only [decodeHeader] at h
    by_cases h10 : b0 = c.tagLz10
    · rw [if_pos h10] at h
      cases h
      exact ⟨rfl, nofun, by simp [encode, encodeHeader, h1, h2, h3, h10]⟩
    · rw [if_neg h10] at h
      by_cases h11 : b0 = c.tagLz11
      · rw [if_pos h11] at h
        cases h
        exact ⟨rfl, fun _ _ htags => h10 (h11.trans htags.symm), by simp [encode, encodeHeader, h1, h2, h3, h11]⟩
      · rw [if_neg h11] at h
        cases h

theorem readFrom_match10 {bs : Bytes} {i : Instr} {rest : Bytes} (c : Config) (h : decodeMatch10 bs = .instr i rest) :
    ReadFrom c bs i rest := by
  match bs with
  | [] | [_] => cases h
  | b0 :: b1 :: more =>
    cases h
    exact ⟨rfl, nofun, by simp [encode, join12_high, join12_low, joinNibbles_nibbles]⟩

/-- The high nibble of the first byte selects the form, and the encoder writes it back. -/
theorem readFrom_match11 {bs : Bytes} {i : Instr} {rest : Bytes} (c : Config) (h : decodeMatch11 bs = .instr i rest) :
    ReadFrom c bs i rest := by
  match bs with
  | [] => cases h
  | b0 :: more =>
    have hb0 : joinNibbles (hiNibble b0) (loNibble b0) = b0 := joinNibbles_nibbles b0
    simp only [decodeMatch11] at h
    by_cases h0 : hiNibble b0 = 0
    · rw [if_pos h0] at h
      rw [h0] at hb0
      match more with
      | [] | [_] => cases h
      | b1 :: b2 :: _ =>
        cases h
        exact ⟨rfl, nofun, by
          simp only [encode, hb0, joinNibbles_high, joinNibbles_low, join12_high, join12_low, joinNibbles_nibbles,
            List.cons_append, List.nil_append]⟩
    · rw [if_neg h0] at h
      by_cases h1 : hiNibble b0 = 1
      · rw [if_pos h1] at h
        rw [h1] at hb0
        match more with
        | [] | [_] | [_, _] => cases h
        | b1 :: b2 :: b3 :: _ =>
          obtain ⟨hhigh, hmid, hlow⟩ := join16_fields (loNibble b0) b1 (hiNibble b2)
          cases h
          exact ⟨rfl, nofun, by
            simp only [encode, hb0, hhigh, hmid, hlow, join12_high, join12_low, joinNibbles_nibbles,
              List.cons_append, List.nil_append]⟩
      · rw [if_neg h1] at h
        match more with
        | [] => cases h
        | b1 :: _ =>
          cases h
          exact ⟨decide_eq_true (two_le_of_ne_form_tags h0 h1), nofun, by simp [encode, hb0, join12_high, join12_low]⟩

theorem readFrom_of_decodeIn {c : Config} {ctx : Context} {bs : Bytes} {i : Instr} {rest : Bytes}
    (h : decodeIn c ctx bs = .instr i rest) : ReadFrom c bs i rest := by
  match ctx, bs with
  | .header, bs => exact readFrom_header h
  | .control, [] | .literal, [] => cases h
  | .control, b :: more | .literal, b :: more => cases h; exact ⟨rfl, nofun, rfl⟩
  | .backRef .lz10, bs => exact readFrom_match10 c h
  | .backRef .lz11, bs => exact readFrom_match11 c h

/-! ### Four bytes are enough -/

theorem exists_eq_cons_of_three_le {more : Bytes} (h : 3 ≤ more.length) :
    ∃ b1 b2 b3 rest, more = b1 :: b2 :: b3 :: rest := by
  match more with
  | [] | [_] | [_, _] => simp at h
  | b1 :: b2 :: b3 :: rest => exact ⟨b1, b2, b3, rest, rfl⟩

section FourBytes

variable {c : Config} {b : Byte} {more : Bytes}

theorem decodeHeader_of_tag (htag : b = c.tagLz10 ∨ b = c.tagLz11) (hlen : 3 ≤ more.length) :
    ∃ i rest, decodeHeader c (b :: more) = .instr i rest := by
  obtain ⟨b1, b2, b3, rest, rfl⟩ := exists_eq_cons_of_three_le hlen
  by_cases h10 : b = c.tagLz10
  · exact ⟨_, _, if_pos h10⟩
  · exact ⟨_, _, (if_neg h10).trans (if_pos (htag.resolve_left h10))⟩

theorem decodeHeader_of_ne_tags (h10 : b ≠ c.tagLz10) (h11 : b ≠ c.tagLz11) (hlen : 3 ≤ more.length) :
    decodeHeader c (b :: more) = .badTag b := by
  obtain ⟨b1, b2, b3, rest, rfl⟩ := exists_eq_cons_of_three_le hlen
  exact (if_neg h10).trans (if_neg h11)

/-- Every bit pattern of a match is legal (30_encoding.md R83). -/
theorem decodeIn_backRef_of_four (c : Config) (mode : Mode) (b : Byte) (hlen : 3 ≤ more.length) :
    ∃ i rest, decodeIn c (.backRef mode) (b :: more) = .instr i rest := by
  obtain ⟨b1, b2, b3, rest, rfl⟩ := exists_eq_cons_of_three_le hlen
  cases mode with
  | lz10 => exact ⟨_, _, rfl⟩
  | lz11 =>
    by_cases h0 : hiNibble b = 0
    · exact ⟨_, _, if_pos h0⟩
    · by_cases h1 : hiNibble b = 1
      · exact ⟨_, _, (if_neg h0).trans (if_pos h1)⟩
      · exact ⟨_, _, (if_neg h0).trans (if_neg h1)⟩

end FourBytes

/-! ### Bytes behind an instruction -/

/-- Bytes behind an instruction do not change how it decodes. -/
theorem decodeIn_append {c : Config} {ctx : Context} {bs : Bytes} {i : Instr} {rest : Bytes}
    (h : decodeIn c ctx bs = .instr i rest) (more : Bytes) : decodeIn c ctx (bs ++ more) = .instr i (rest ++ more) := by
  obtain ⟨-, rfl⟩ := Machine.decodeIn_instr h
  obtain ⟨hwf, htags, rfl⟩ := readFrom_of_decodeIn h
  rw [List.append_assoc]
  exact decodeIn_encode hwf htags (rest ++ more)

end Sys2Proof
end

section
/-! SUPPORT. The one match unit of a mode that stands for a displacement and a length (30_encoding.md R81). -/

namespace Sys2Proof.Machine

/-! ### The fields and what they stand for -/

theorem dispOf_dispField {d : Nat} (hpos : 1 ≤ d) (hle : d ≤ window) : dispOf (dispField d) = d := by
  simp only [dispOf, dispField, BitVec.toNat_ofNat, window] at *
  omega

theorem dispField_dispOf (f : BitVec 12) : dispField (dispOf f) = f := by
  simp [dispField, dispOf]

/-- The length field of a match from its length `l`, which it stores less a bias `k`. -/
theorem ofNat_sub_bias {w : Nat} (x : BitVec w) (k : Nat) : BitVec.ofNat w (x.toNat + k - k) = x := by
  simp

theorem toNat_ofNat_sub_bias {w l k : Nat} (hk : k ≤ l) (hl : l < 2 ^ w + k) :
    (BitVec.ofNat w (l - k)).toNat + k = l := by
  rw [BitVec.toNat_ofNat, Nat.mod_eq_of_lt (by omega)]
  omega

/-! ### The match unit of a displacement and a length -/

theorem context_matchUnit (mode : Mode) (d l : Nat) : (matchUnit mode d l).context = .backRef mode := by
  cases mode with
  | lz10 => rfl
  | lz11 =>
    simp only [matchUnit]
    split
    · rfl
    · split <;> rfl

theorem wellFormed_matchUnit (mode : Mode) (d : Nat) {l : Nat} (hl : minMatch ≤ l) : (matchUnit mode d l).WF := by
  cases mode with
  | lz10 => rfl
  | lz11 =>
    simp only [matchUnit]
    split
    · rename_i h16
      have ht : (BitVec.ofNat 4 (l - 1)).toNat + 1 = l := toNat_ofNat_sub_bias (Nat.le_of_add_left_le hl) (by omega)
      exact decide_eq_true (by simp only [minMatch] at hl; omega)
    · split <;> rfl

theorem matchOperands_matchUnit {mode : Mode} {d l : Nat} (hd : 1 ≤ d) (hd' : d ≤ window) (hl : minMatch ≤ l)
    (hl' : l ≤ maxLen mode) : matchOperands (matchUnit mode d l) = some { disp := d, len := l } := by
  simp only [minMatch] at hl
  cases mode with
  | lz10 =>
    simp only [maxLen] at hl'
    simp only [matchUnit, matchOperands, dispOf_dispField hd hd', len10]
    rw [toNat_ofNat_sub_bias hl (by omega)]
  | lz11 =>
    simp only [maxLen] at hl'
    simp only [matchUnit]
    split
    · simp only [matchOperands, dispOf_dispField hd hd', len11x2]
      rw [toNat_ofNat_sub_bias (by omega) (by omega)]
    · split
      · simp only [matchOperands, dispOf_dispField hd hd', len11x3]
        rw [toNat_ofNat_sub_bias (by omega) (by omega)]
      · simp only [matchOperands, dispOf_dispField hd hd', len11x4]
        rw [toNat_ofNat_sub_bias (by omega) (by omega)]

/-- A match is the match unit of its mode for its operands, and its length is one the mode can express. -/
theorem eq_matchUnit_of_operands {i : Instr} {mode : Mode} {m : Found} (hctx : i.context = .backRef mode)
    (hm : matchOperands i = some m) : i = matchUnit mode m.disp m.len ∧ m.len ≤ maxLen mode := by
  cases i with
  | match10 l f =>
    cases hctx
    cases hm
    have hl : l.toNat < 16 := l.isLt
    simp only [matchUnit, dispField_dispOf, len10, ofNat_sub_bias, maxLen, true_and]
    omega
  | match11_2 t f =>
    cases hctx
    cases hm
    have ht : t.toNat < 16 := t.isLt
    have h16 : len11x2 t ≤ 16 := ht
    simp only [matchUnit, if_pos h16, dispField_dispOf, maxLen]
    simp only [len11x2, ofNat_sub_bias, true_and]
    omega
  | match11_3 l f =>
    cases hctx
    cases hm
    have hl : l.toNat < 256 := l.isLt
    have h16 : ¬ len11x3 l ≤ 16 := by unfold len11x3; omega
    have h272 : len11x3 l ≤ 272 := by unfold len11x3; omega
    simp only [matchUnit, if_neg h16, if_pos h272, dispField_dispOf, maxLen]
    simp only [len11x3, ofNat_sub_bias, true_and]
    omega
  | match11_4 l f =>
    cases hctx
    cases hm
    have hl : l.toNat < 65536 := l.isLt
    have h16 : ¬ len11x4 l ≤ 16 := by unfold len11x4; omega
    have h272 : ¬ len11x4 l ≤ 272 := by unfold len11x4; omega
    simp only [matchUnit, if_neg h16, if_neg h272, dispField_dispOf, maxLen]
    simp only [len11x4, ofNat_sub_bias, true_and]
    omega
  | _ => cases hm

/-- Where a mode can express the length, exactly one of its matches has the operands. -/
theorem existsUnique_match {mode : Mode} {d l : Nat} (hd : 1 ≤ d) (hd' : d ≤ window) (hl : minMatch ≤ l)
    (hl' : l ≤ maxLen mode) :
    ∃! i : Instr, i.WF ∧ i.context = .backRef mode ∧ matchOperands i = some { disp := d, len := l } := by
  refine ⟨matchUnit mode d l, ⟨wellFormed_matchUnit mode d hl, context_matchUnit mode d l,
    matchOperands_matchUnit hd hd' hl hl'⟩, ?_⟩
  rintro i ⟨-, hctx, hm⟩
  obtain ⟨hi, -⟩ := eq_matchUnit_of_operands hctx hm
  exact hi

/-- The length selects the form of an LZ11 match unit (30_encoding.md R78 to R81). -/
theorem form_of_matchUnit (d l : Nat) :
    ((∃ t f, matchUnit .lz11 d l = .match11_2 t f) ↔ l ≤ 16) ∧
      ((∃ x f, matchUnit .lz11 d l = .match11_3 x f) ↔ 17 ≤ l ∧ l ≤ 272) ∧
        ((∃ x f, matchUnit .lz11 d l = .match11_4 x f) ↔ 273 ≤ l) := by
  simp only [matchUnit]
  split
  · exact ⟨iff_of_true ⟨_, _, rfl⟩ ‹_›, iff_of_false nofun (by omega), iff_of_false nofun (by omega)⟩
  · split
    · exact ⟨iff_of_false nofun ‹_›, iff_of_true ⟨_, _, rfl⟩ (by omega), iff_of_false nofun (by omega)⟩
    · exact ⟨iff_of_false nofun ‹_›, iff_of_false nofun (by omega), iff_of_true ⟨_, _, rfl⟩ (by omega)⟩

/-- The bytes of a match unit decode to it, with nothing left (30_encoding.md R74, R88). -/
theorem decodeIn_encodeMatch (c : Config) (mode : Mode) (d : Nat) {l : Nat} (hl : minMatch ≤ l) :
    decodeIn c (.backRef mode) (encodeMatch c mode { disp := d, len := l }) = .instr (matchUnit mode d l) [] := by
  have hctx : (matchUnit mode d l).context = .backRef mode := context_matchUnit mode d l
  have hdec := decodeIn_encode (c := c) (wellFormed_matchUnit mode d hl)
    (fun size hi => by rw [hi] at hctx; cases hctx) []
  rwa [hctx, List.append_nil] at hdec

/-! ### The assembler's match line -/

/-- Under a header the assembler takes a match line in the ranges of the mode, and adds the Encoder's unit for it. -/
theorem asmLine_backRef_ok {c : Config} {a a' : AsmState} {mode : Mode} {d l : Nat} (hmode : a.mode = some mode) :
    asmLine c a (.backRef d l) = .ok a' ↔
      ((1 ≤ d ∧ d ≤ window) ∧ minMatch ≤ l ∧ l ≤ maxLen mode) ∧
        a' = { a with pk := a.pk.addUnit true (encodeMatch c mode { disp := d, len := l }) } := by
  simp only [asmLine, hmode]
  by_cases hd : d < 1 ∨ window < d
  · rw [if_pos hd]
    exact iff_of_false nofun (by omega)
  · rw [if_neg hd]
    by_cases hl : l < minMatch ∨ maxLen mode < l
    · rw [if_pos hl]
      exact iff_of_false nofun (by omega)
    · rw [if_neg hl, Except.ok.injEq, eq_comm, iff_and_self]
      omega

end Sys2Proof.Machine
end

section
/-! SUPPORT. DECODE of an input with more bytes behind it (30_encoding.md R84, 42_decoder.md R167): a part of the Decoder
that goes on does the same on the longer input. -/

namespace Sys2Proof.Machine

/-- The registers with `more` behind the input. -/
def DecRegs.followedBy (more : Bytes) (d : DecRegs) : DecRegs := { d with cin := d.cin ++ more }

section

variable (more : Bytes)

theorem DecRegs.ahead_followedBy (d : DecRegs) :
    (d.followedBy more).ahead = d.ahead ++ more.drop (d.ipos - d.cin.length) :=
  List.drop_append

/-! ### What goes on does the same -/

theorem copyBytes_followedBy (disp n : Nat) (d : DecRegs) :
    copyBytes disp n (d.followedBy more) = (copyBytes disp n d).map (DecRegs.followedBy more) := by
  induction n generalizing d with
  | zero => rfl
  | succ n ih =>
    have hread : readByte (d.followedBy more).out ((d.followedBy more).produced - disp) =
      readByte d.out (d.produced - disp) := rfl
    simp only [copyBytes, hread]
    cases readByte d.out (d.produced - disp) with
    | none => rfl
    | some b => exact ih (d.emit b)

theorem execMatch_followedBy (u disp len : Nat) (d : DecRegs) :
    execMatch u disp len (d.followedBy more) = (execMatch u disp len d).map (DecRegs.followedBy more) := by
  have hproduced : (d.followedBy more).produced = d.produced := rfl
  simp only [execMatch, hproduced]
  split
  · rfl
  · exact copyBytes_followedBy more disp (d.truncated len) ((d.warnIfExceeds len).warnIfUnsafe disp)

theorem effect_followedBy (i : Instr) (d : DecRegs) :
    effect i (d.followedBy more) = (effect i d).map (DecRegs.followedBy more) := by
  have hmatch (u disp len n : Nat) := execMatch_followedBy more u disp len (d.consumeFlag.advance n)
  cases i with
  | hdrLz10 | hdrLz11 | ctrl | lit => rfl
  | match10 | match11_2 | match11_3 | match11_4 => exact hmatch ..

variable {more} {c : Config} {d d' : DecRegs}

/-- An instruction that decodes does so with more bytes behind it, and has the same effect. -/
theorem decoderStep_followedBy (h : decoderStep c d = .ok d') :
    decoderStep c (d.followedBy more) = .ok (d'.followedBy more) := by
  unfold decoderStep at h
  split at h
  · rename_i i hi
    obtain ⟨rest, hdec, hctx⟩ := nextInstr_run hi
    have hdec' := decodeIn_append hdec (more.drop (d.ipos - d.cin.length))
    rw [← DecRegs.ahead_followedBy] at hdec'
    rw [decoderStep_of_instr (d := d.followedBy more) hctx hdec', effect_followedBy, h]
    rfl
  · cases h
  · rename_i hdone
    have hctx : d.context = none := nextInstr_complete.1 hdone
    have hdone' : nextInstr c (d.followedBy more) = .complete := nextInstr_complete.2 hctx
    cases h
    rw [decoderStep, hdone']

/-! ### A turn -/

theorem DecRegs.context_ne_none_of_owed (howed : d.produced < d.dn) : d.context ≠ none := fun hnone => by
  obtain ⟨-, hdone⟩ := context_eq_none.1 hnone
  omega

/-- A control byte leaves the Decoder at a unit. -/
theorem atUnit_of_reloadFlags (howed : d.produced < d.dn) (hcnt : d.dfcnt = 0) (h : reloadFlags d = .ok d') :
    ∃ flag, d'.AtUnit flag := by
  obtain ⟨flags, rfl⟩ := reloadFlags_ok hcnt h
  exact ⟨_, Nat.succ_ne_zero _, howed, nofun, rfl⟩

theorem decodeTurn_of_flag (c : Config) (hipos : d.ipos ≠ 0) (howed : d.produced < d.dn) (hcnt : d.dfcnt ≠ 0) :
    decodeTurn d = decoderStep c d := by
  rw [decodeTurn_eq, reloadFlags_of_flag hcnt]
  exact (decoderStep_unit c ⟨hipos, howed, hcnt, rfl⟩).symm

theorem decodeTurn_of_noFlag (c : Config) (hipos : d.ipos ≠ 0) (howed : d.produced < d.dn) (hcnt : d.dfcnt = 0) :
    decodeTurn d = decoderStep c d >>= decoderStep c := by
  rw [decodeTurn_eq, decoderStep_control c (DecRegs.context_eq_control.2 ⟨hipos, howed, hcnt⟩)]
  cases hload : reloadFlags d with
  | error e => rfl
  | ok d₁ =>
    obtain ⟨flag, hunit⟩ := atUnit_of_reloadFlags howed hcnt hload
    exact (decoderStep_unit c hunit).symm

/-- A turn that goes on keeps the input and moves its cursor, and does the same with more bytes behind the input. -/
theorem decodeTurn_ok (c : Config) (more : Bytes) (hd : d.Sound) (hipos : d.ipos ≠ 0) (howed : d.produced < d.dn)
    (h : decodeTurn d = .ok d') :
    d'.Sound ∧ d.ipos < d'.ipos ∧ d'.cin = d.cin ∧ decodeTurn (d.followedBy more) = .ok (d'.followedBy more) := by
  have hctx : d.context ≠ none := DecRegs.context_ne_none_of_owed howed
  by_cases hcnt : d.dfcnt = 0
  · rw [decodeTurn_of_noFlag c hipos howed hcnt] at h
    rw [decodeTurn_of_noFlag (d := d.followedBy more) c hipos howed hcnt]
    cases hctrl : decoderStep c d with
    | error e => rw [hctrl] at h; cases h
    | ok d₁ =>
      replace h : decoderStep c d₁ = .ok d' := by rwa [hctrl] at h
      obtain ⟨hd₁, hlt₁, hcin₁⟩ := decoderStep_sound hd hctx hctrl
      rw [decoderStep_followedBy hctrl]
      rw [decoderStep_control c (DecRegs.context_eq_control.2 ⟨hipos, howed, hcnt⟩)] at hctrl
      obtain ⟨flag, -, howed₁, -⟩ := atUnit_of_reloadFlags howed hcnt hctrl
      obtain ⟨hd', hlt, hcin⟩ := decoderStep_sound hd₁ (DecRegs.context_ne_none_of_owed howed₁) h
      exact ⟨hd', hlt₁.trans hlt, hcin.trans hcin₁, decoderStep_followedBy h⟩
  · rw [decodeTurn_of_flag c hipos howed hcnt] at h
    rw [decodeTurn_of_flag (d := d.followedBy more) c hipos howed hcnt]
    obtain ⟨hd', hlt, hcin⟩ := decoderStep_sound hd hctx h
    exact ⟨hd', hlt, hcin, decoderStep_followedBy h⟩

/-! ### The loop and the whole DECODE -/

/-- A loop whose bound is more than the bytes left ends the same, with more bytes behind the input and a larger bound. -/
theorem decodeLoop_followedBy (c : Config) (more : Bytes) (extra fuel : Nat) (d : DecRegs) (hd : d.Sound)
    (hipos : d.ipos ≠ 0) (hfuel : d.cin.length < fuel + d.ipos) (h : decodeLoop fuel d = .ok d') :
    decodeLoop (fuel + extra) (d.followedBy more) = .ok (d'.followedBy more) := by
  induction fuel generalizing d with
  | zero => exact absurd hd.ipos_le (by omega)
  | succ fuel ih =>
    rw [Nat.succ_add]
    unfold decodeLoop at h ⊢
    by_cases howed : d.produced < d.dn
    · rw [if_pos howed] at h
      rw [if_pos (show (d.followedBy more).produced < (d.followedBy more).dn from howed)]
      cases hturn : decodeTurn d with
      | error e => rw [hturn] at h; cases h
      | ok d₁ =>
        replace h : decodeLoop fuel d₁ = .ok d' := by rwa [hturn] at h
        obtain ⟨hd₁, hlt, hcin, hturn'⟩ := decodeTurn_ok c more hd hipos howed hturn
        rw [hturn']
        exact ih d₁ hd₁ (by omega) (by rw [hcin]; omega) h
    · rw [if_neg howed] at h
      rw [if_neg (show ¬ (d.followedBy more).produced < (d.followedBy more).dn from howed)]
      cases h
      rfl

/-- A DECODE that ends well ends with the same registers but for the bytes behind the input. -/
theorem decodeStream_append {cin : Memory} {v : Bool} (more : Bytes) (h : decodeStream c cin v = .ok d') :
    decodeStream c (cin ++ more) v = .ok (d'.followedBy more) := by
  have hsound : (DecRegs.start cin v).Sound := DecRegs.start_sound cin v
  have hctx : (DecRegs.start cin v).context ≠ none := by simp [DecRegs.context_eq_none]
  have hstart : DecRegs.start (cin ++ more) v = (DecRegs.start cin v).followedBy more := rfl
  rw [decodeStream_eq] at h ⊢
  cases hheader : decoderStep c (DecRegs.start cin v) with
  | error e => rw [hheader] at h; cases h
  | ok d₁ =>
    replace h : decodeLoop (cin.length + 1) d₁ = .ok d' := by rwa [hheader] at h
    obtain ⟨hd₁, hlt, hcin⟩ := decoderStep_sound hsound hctx hheader
    simp only [DecRegs.start_ipos, DecRegs.start_cin] at hlt hcin
    have hfuel : (cin ++ more).length + 1 = cin.length + 1 + more.length := by
      rw [List.length_append]
      omega
    rw [hstart, decoderStep_followedBy hheader, hfuel]
    exact decodeLoop_followedBy c more more.length _ d₁ hd₁ (by omega) (by rw [hcin]; omega) h

/-- A DECODE ends well with the record of its last registers. -/
theorem decodeRequest_eq_decode {cin out : Memory} {v wl wv : Bool} :
    decodeRequest c cin v = some (.decode out wl wv) ↔
      ∃ d, decodeStream c cin v = .ok d ∧ d.okResult = .decode out wl wv := by
  rw [decodeRequest_eq]
  rcases decodeStream c cin v with (e | f) | d
  · exact iff_of_false nofun nofun
  · exact iff_of_false nofun nofun
  · simp [streamResult]

end

end Sys2Proof.Machine
end

section
/-! SUPPORT. A step that fetches an instruction; a table word placed where the next step fetches (log entries 14, 15); an
instruction out of its context (log entry 7). -/

namespace Sys2Proof.Machine

/-- With no move due, a step runs the instruction that the bytes ahead decode to where the Decoder stands. -/
theorem step_of_decoded {s : State} {d : DecRegs} {ctx : Context} {i : Instr} {rest : Bytes} (hdue : s.dueMove = none)
    (hs : s.activity = .decoding d) (hctx : d.context = some ctx) (hdec : decodeIn s.cfg ctx d.ahead = .instr i rest) :
    step s = exec i s.tick := by
  rw [step_decoding hdue hs]
  simp only [nextInstr, hctx, fetchIn, hdec]

theorem length_prefixBytes (n : Nat) (m : Memory) : (prefixBytes n m).length = n := by
  simp only [prefixBytes, List.length_append, List.length_take, List.length_replicate]
  omega

theorem drop_prefixBytes_append (n : Nat) (m bs : Bytes) : (prefixBytes n m ++ bs).drop n = bs :=
  List.drop_left' (length_prefixBytes n m)

/-- The Decoder placed in a context stands in it. -/
theorem DecRegs.context_placed (ctx : Context) (bs : Bytes) (d : DecRegs) : (d.placed ctx bs).context = some ctx := by
  have hipos : max 4 d.ipos ≠ 0 := by omega
  have howed : d.produced < max d.dn (d.produced + 1) := by omega
  have hcnt : max 1 d.dfcnt ≠ 0 := by omega
  cases ctx with
  | header => rfl
  | control => exact context_eq_control.2 ⟨hipos, howed, rfl⟩
  | literal => exact context_eq_literal.2 ⟨hipos, howed, hcnt, by simp [placed]⟩
  | backRef mode => exact context_eq_backRef.2 ⟨⟨hipos, howed, hcnt, by simp [placed]⟩, rfl⟩

/-- The bytes placed are the ones ahead. -/
theorem DecRegs.ahead_placed (ctx : Context) (bs : Bytes) (d : DecRegs) : (d.placed ctx bs).ahead = bs := by
  cases ctx with
  | header => rfl
  | control | literal | backRef => exact drop_prefixBytes_append ..

/-- A table word is read in its context. -/
theorem decodeTableWord_eq_some {nbits w : Nat} {i : Instr} (h : decodeTableWord nbits w = some i) :
    ∃ ctx rest, tableContext nbits w = some ctx ∧
      decodeIn Config.defaults ctx (tableBytes nbits w) = .instr i rest := by
  unfold decodeTableWord at h
  split at h
  · cases h
  · split at h <;> cases h
    exact ⟨_, _, ‹_›, ‹_›⟩

theorem State.withFetchWord_of_context {nbits w : Nat} {ctx : Context} (h : tableContext nbits w = some ctx) (s : State) :
    s.withFetchWord nbits w =
      (s.setActivity (.decoding (s.decoderOrStart.placed ctx (tableBytes nbits w)))).holdMove := by
  simp only [State.withFetchWord, h]

theorem inContext_of_not {c : Context} (f : DecRegs → Except Stop DecRegs) {s : State}
    (h : ∀ d, s.activity = .decoding d → d.context ≠ some c) : inContext c f s = .fault .outOfContext := by
  unfold inContext
  split
  · exact if_neg (h _ ‹_›)
  · rfl
  · rfl
  · rfl

end Sys2Proof.Machine
end

section
/-! SUPPORT. The statements of the encoding family settled. -/

open Sys2Proof Sys2Proof.Machine

/-- Settles O1: instruction by instruction, each field is joined again from its parts. -/
theorem decodeOfEncode : Obligations.DecodeOfEncode :=
  fun _ _ rest htags hwf => decodeIn_encode hwf (fun _ _ => htags) rest

/-- Settles O2: context by context, each field is split again into its parts. -/
theorem encodeOfDecode : Obligations.EncodeOfDecode := by
  intro c ctx bs i rest h
  obtain ⟨hwf, -, hbytes⟩ := readFrom_of_decodeIn h
  obtain ⟨-, hctx⟩ := decodeIn_instr h
  exact ⟨hwf, hctx, hbytes, encode_length c i⟩

/-- Settles O3: four bytes are enough in every context, and only the header looks for a tag. -/
theorem onlyAnUnknownTagIsIllegal : Obligations.OnlyAnUnknownTagIsIllegal := by
  intro c ctx b more hlen
  cases ctx with
  | header =>
    by_cases htag : b = c.tagLz10 ∨ b = c.tagLz11
    · obtain ⟨i, rest, hdec⟩ := decodeHeader_of_tag htag hlen
      exact .inl ⟨i, rest, hdec, fun ⟨_, h10, h11⟩ => htag.elim h10 h11⟩
    · obtain ⟨h10, h11⟩ := not_or.1 htag
      exact .inr ⟨decodeHeader_of_ne_tags h10 h11 hlen, rfl, h10, h11⟩
  | control => exact .inl ⟨.ctrl b, more, rfl, nofun⟩
  | literal => exact .inl ⟨.lit b, more, rfl, nofun⟩
  | backRef mode =>
    obtain ⟨i, rest, hdec⟩ := decodeIn_backRef_of_four c mode b hlen
    exact .inl ⟨i, rest, hdec, nofun⟩

/-- Settles O4: a match is the match unit of its operands, whose form the length selects. -/
theorem everyMatchHasOneForm : Obligations.EveryMatchHasOneForm := by
  intro d l hd hd' hl
  refine ⟨existsUnique_match (mode := .lz10) hd hd' hl, existsUnique_match (mode := .lz11) hd hd' hl,
    fun i _ hctx hm => ?_⟩
  obtain ⟨hi, hmax⟩ := eq_matchUnit_of_operands hctx hm
  subst hi
  exact ⟨hmax, form_of_matchUnit d l⟩

/-- Settles O55: every part of a DECODE that ends well reads the same bytes of the longer input. -/
theorem trailingBytesAreIgnored : Obligations.TrailingBytesAreIgnored := by
  intro c cin junk out v wl wv h
  obtain ⟨d, hstream, hresult⟩ := decodeRequest_eq_decode.1 h
  exact decodeRequest_eq_decode.2 ⟨d.followedBy junk, decodeStream_append junk hstream, hresult⟩

/-- Settles O57: a line that is taken adds the match unit of its operands. -/
theorem assemblerMatchLine : Obligations.AssemblerMatchLine := by
  intro c a mode d l hmode
  refine ⟨⟨fun ⟨a', h⟩ => ?_, fun ⟨hd, hd', hl, hl'⟩ => ?_⟩, fun a' h => ?_⟩
  · obtain ⟨⟨⟨hd, hd'⟩, hl, hl'⟩, -⟩ := (asmLine_backRef_ok hmode).1 h
    exact ⟨hd, hd', hl, hl'⟩
  · exact ⟨_, (asmLine_backRef_ok hmode).2 ⟨⟨⟨hd, hd'⟩, hl, hl'⟩, rfl⟩⟩
  · obtain ⟨⟨⟨hd, hd'⟩, hl, hl'⟩, ha'⟩ := (asmLine_backRef_ok hmode).1 h
    exact ⟨_, _, ha', decodeIn_encodeMatch c mode d hl, matchOperands_matchUnit hd hd' hl hl'⟩

/-- Settles O7: eight words, evaluated. -/
theorem specWordsDecode : Obligations.SpecWordsDecode := by
  unfold Obligations.SpecWordsDecode
  decide

/-- Settles O12: the placed Decoder stands in the word's context with the word's bytes ahead, and no move is due. -/
theorem placedWordIsRun : Obligations.PlacedWordIsRun := by
  intro s nbits w i hcfg h
  obtain ⟨ctx, rest, hctx, hdec⟩ := decodeTableWord_eq_some h
  rw [State.withFetchWord_of_context hctx]
  refine step_of_decoded (rest := rest) (State.dueMove_holdMove _) (State.holdMove_activity _)
    (DecRegs.context_placed ..) ?_
  rw [DecRegs.ahead_placed, State.holdMove_cfg, State.setActivity_cfg, hcfg, hdec]

/-- Settles O26: `exec` looks for a running DECODE in the instruction's context. -/
theorem outOfContextFaults : Obligations.OutOfContextFaults := by
  intro i s h
  rw [exec_eq, inContext_of_not _ h]

end

section
/-! SUPPORT. The match length is the greatest within the cap, and the scan answers the best candidate (40_match_finder.md
R102, R105 to R107). -/

namespace Sys2Proof.Machine

/-! ### The match length -/

/-- A byte that the candidate and the cursor share lengthens the match. -/
theorem matchLen_succ_of_agree {src : Memory} {cap q p : Nat} {b : Byte} (hq : readByte src q = some b)
    (hp : readByte src p = some b) : matchLen src (cap + 1) q p = matchLen src cap (q + 1) (p + 1) + 1 := by
  simp only [matchLen, hq, hp, if_true]

/-- The match is as long as any run of bytes of the source that agree, within the cap. -/
theorem le_matchLen {src : Memory} {cap q p k : Nat} (hcap : k ≤ cap) (hend : p + k ≤ src.length)
    (hagree : ∀ i, i < k → src[q + i]? = src[p + i]?) : k ≤ matchLen src cap q p := by
  induction k generalizing cap q p with
  | zero => exact Nat.zero_le _
  | succ k ih =>
    obtain ⟨cap, rfl⟩ := Nat.exists_eq_add_one_of_ne_zero (Nat.ne_zero_of_lt hcap)
    have hp : readByte src p = some src[p] := List.getElem?_eq_getElem (by omega)
    have hq : readByte src q = some src[p] := (hagree 0 k.succ_pos).trans hp
    rw [matchLen_succ_of_agree hq hp]
    refine Nat.succ_le_succ (ih (Nat.le_of_succ_le_succ hcap) (by omega) fun i hi => ?_)
    simpa only [Nat.add_assoc, Nat.add_comm 1] using hagree (i + 1) (Nat.succ_lt_succ hi)

/-! ### The best candidate -/

theorem isCandidate_iff {p dmax d : Nat} {v : Bool} :
    IsCandidate p dmax v d ↔ 1 ≤ d ∧ d < min dmax p + 1 ∧ excluded v d = false := by
  simp [IsCandidate, excluded]

theorem foundOf_eq_some {best m : Found} : foundOf best = some m ↔ best.len ≠ 0 ∧ best = m := by
  simp [foundOf]

theorem foundOf_eq_none {best : Found} : foundOf best = none ↔ best.len = 0 := by
  simp [foundOf]

/-- The match length of the candidate at displacement `d`. -/
def FindRegs.lenAt (f : FindRegs) (d : Nat) : Nat := matchLen f.src (findCap f.src f.p f.lprobe) (f.p - d) f.p

/-- `m` is the best of the allowed displacements before `n`: none of them is longer, and none as long is nearer. -/
structure FindRegs.BestOf (f : FindRegs) (n : Nat) (m : Found) : Prop extends f.BestBefore n m where
  none_better : ∀ d, 1 ≤ d → d < n → excluded f.vramSafe d = false →
    f.lenAt d ≤ m.len ∧ (f.lenAt d = m.len → m.disp ≤ d)

/-- The candidate `FD` replaces the best so far only when strictly longer, so that a tie keeps the nearer one
(40_match_finder.md R106). -/
theorem FindRegs.BestOf.examined {f : FindRegs} (hf : f.Inv) (h : f.BestOf f.fd f.best) :
    f.BestOf (f.fd + 1) f.examined where
  toBestBefore := hf.examined
  none_better d hpos hlt hallowed := by
    have hdisp : f.best.disp < f.fd := h.before
    unfold FindRegs.examined
    obtain ⟨heq, hkept⟩ | ⟨heq, -, hlonger⟩ :=
      examine_cases f.src f.p (findCap f.src f.p f.lprobe) f.vramSafe f.fd f.best <;> rw [heq]
    · obtain hbefore | rfl := Nat.lt_succ_iff_lt_or_eq.1 hlt
      · exact h.none_better d hpos hbefore hallowed
      · exact ⟨hkept.resolve_left (by simp [hallowed]), fun _ => hdisp.le⟩
    · obtain hbefore | rfl := Nat.lt_succ_iff_lt_or_eq.1 hlt
      · have hshorter := (h.none_better d hpos hbefore hallowed).1.trans_lt hlonger
        exact ⟨hshorter.le, fun hsame => absurd hsame hshorter.ne⟩
      · exact ⟨le_rfl, fun _ => le_rfl⟩

/-- A best candidate that reaches the cap stays the best: a farther one is no longer (40_match_finder.md R106). -/
theorem FindRegs.BestOf.of_reaches_cap {f : FindRegs} {n k : Nat} {m : Found} (h : f.BestOf n m)
    (hcap : m.len = findCap f.src f.p f.lprobe) (hnk : n ≤ k) : f.BestOf k m where
  toBestBefore := { h.toBestBefore with before := h.before.trans_le hnk }
  none_better d hpos _ hallowed := by
    obtain hbefore | hfarther := Nat.lt_or_ge d n
    · exact h.none_better d hpos hbefore hallowed
    · exact ⟨hcap ▸ matchLen_le .., fun _ => h.before.le.trans hfarther⟩

/-- Being the best depends on the operands alone, which the next registers share. -/
theorem FindRegs.bestOf_next {f : FindRegs} {n : Nat} {m : Found} : f.next.BestOf n m ↔ f.BestOf n m :=
  ⟨fun h => ⟨⟨h.before, h.none_iff, h.own_len, h.allowed⟩, h.none_better⟩,
    fun h => ⟨⟨h.before, h.none_iff, h.own_len, h.allowed⟩, h.none_better⟩⟩

/-- Scanning the candidate `FD` and the `n` after it finds the best of all. -/
theorem FindRegs.BestOf.scanned {n : Nat} {f : FindRegs} (hv : ValidFind f.src f.p f.lprobe f.dmax) (hf : f.Inv)
    (hn : min f.dmax f.p = f.fd + n) (h : f.BestOf f.fd f.best) :
    f.BestOf (min f.dmax f.p + 1) (f.scanned (n + 1)) := by
  induction n generalizing f with
  | zero =>
    have hlast : f.scanned 1 = f.examined := by
      rw [FindRegs.scanned_succ]
      split <;> rfl
    rw [hlast, hn]
    exact h.examined hf
  | succ n ih =>
    have hbest : f.BestOf (f.fd + 1) f.examined := h.examined hf
    rw [FindRegs.scanned_succ]
    by_cases hcap : f.examined.len = findCap f.src f.p f.lprobe
    · rw [if_pos hcap]
      exact hbest.of_reaches_cap hcap (by omega)
    · rw [if_neg hcap]
      have hl : ¬ f.isLast := not_or_intro hcap (by omega)
      have hnext : min f.next.dmax f.next.p = f.next.fd + n := by simp only [FindRegs.next]; omega
      exact bestOf_next.1 (ih hv (hf.next hv hl) hnext (bestOf_next.2 hbest))

/-- The start registers hold the best of no candidates. -/
theorem FindRegs.start_bestOf (src : Memory) (p l dmax : Nat) (v : Bool) :
    (FindRegs.start src p l dmax v).BestOf 1 (FindRegs.start src p l dmax v).best where
  toBestBefore := (FindRegs.start_inv src p l dmax v).best
  none_better _ hpos hlt _ := absurd hlt hpos.not_gt

/-- The finder answers the best of all candidates, if it has a byte. -/
theorem find_eq_foundOf_best {src : Memory} {p l dmax : Nat} {v : Bool} (hv : ValidFind src p l dmax) :
    ∃ best, (FindRegs.start src p l dmax v).BestOf (min dmax p + 1) best ∧ find src p l dmax v = foundOf best := by
  have ⟨hp, _, _, hd, _⟩ := hv
  obtain ⟨n, hn⟩ := Nat.exists_eq_add_of_le (le_min hd hp)
  refine ⟨_, .scanned hv (FindRegs.start_inv ..) hn (FindRegs.start_bestOf ..), ?_⟩
  rw [find_eq_scanned, hn, Nat.add_comm]

/-- A best candidate that has a byte is one of the candidates, at its own match length. -/
theorem FindRegs.BestOf.isCandidate {f : FindRegs} {m : Found} (h : f.BestOf (min f.dmax f.p + 1) m)
    (hlen : m.len ≠ 0) : IsCandidate f.p f.dmax f.vramSafe m.disp ∧ f.lenAt m.disp = m.len := by
  have hpos : 0 < m.disp := Nat.pos_of_ne_zero (mt h.none_iff.1 hlen)
  exact ⟨isCandidate_iff.2 ⟨hpos, h.before, h.allowed⟩, (h.own_len hpos).symm⟩

end Sys2Proof.Machine
end

section
/-! SUPPORT. The statements of the match finder family settled. -/

open Sys2Proof Sys2Proof.Machine

/-- Settles O42: the bytes within the match length agree, and a run of agreeing bytes is no longer. -/
theorem matchLengthIsTheLongest : Obligations.MatchLengthIsTheLongest := by
  intro src p q l _ hp
  refine ⟨⟨matchLen_le .., matchLen_agree src _ q p⟩, fun k ⟨hcap, hagree⟩ => ?_⟩
  exact le_matchLen hcap (by omega) hagree

/-- Settles O43: the answer is the best of all candidates, or none when the best has no byte. -/
theorem findAnswersTheBestCandidate : Obligations.FindAnswersTheBestCandidate := by
  intro src p l dmax v hv
  obtain ⟨best, hbest, hfind⟩ := find_eq_foundOf_best (v := v) hv
  have hbetter : ∀ d, IsCandidate p dmax v d → matchLen src (findCap src p l) (p - d) p ≤ best.len ∧
      (matchLen src (findCap src p l) (p - d) p = best.len → best.disp ≤ d) := fun d hd => by
    obtain ⟨hpos, hlt, hallowed⟩ := isCandidate_iff.1 hd
    exact hbest.none_better d hpos hlt hallowed
  rw [hfind]
  refine ⟨fun m hm => ?_, foundOf_eq_none.trans ⟨fun hzero d hd => ?_, fun hall => ?_⟩⟩
  · obtain ⟨hlen, rfl⟩ := foundOf_eq_some.1 hm
    obtain ⟨hcand, hown⟩ := hbest.isCandidate hlen
    exact ⟨hcand, Nat.one_le_iff_ne_zero.2 hlen, hown, hbetter⟩
  · exact Nat.le_zero.1 (hzero ▸ (hbetter d hd).1)
  · by_contra hlen
    obtain ⟨hcand, hown⟩ := hbest.isCandidate hlen
    exact hlen (hown.symm.trans (hall _ hcand))

end

section
/-! SUPPORT. What the Encoder commits: its decision case by case (41_encoder.md R124 to R132), and that a committed match
copies bytes of the source's own past (R147). -/

namespace Sys2Proof.Machine

section

variable {c : Config} {src : Memory} {mode : Mode} {v : Bool} {p : Nat} {m : Found}

/-! ### The decision -/

theorem committed_at_zero : committed c src mode v 0 = none := if_pos rfl

theorem committed_of_unusable (hp : p ≠ 0) (h : usableMatch src mode v p = none) : committed c src mode v p = none := by
  rw [committed, if_neg hp, h]

theorem committed_of_usable (hp : p ≠ 0) (h : usableMatch src mode v p = some m) :
    committed c src mode v p = if PrefersLiteral c src mode v p m then none else some m := by
  rw [committed, if_neg hp, h]

/-! ### The match -/

/-- A usable match is what the finder found. -/
theorem find_of_usableMatch (h : usableMatch src mode v p = some m) : find src p (maxLen mode) window v = some m := by
  unfold usableMatch query at h
  split at h
  · cases h
  · split at h <;> cases h
    assumption

/-- Past the first byte of the source a query's operands are valid. -/
theorem validFind_query (mode : Mode) (hp : p ≠ 0) (hlt : p < src.length) : ValidFind src p (maxLen mode) window :=
  ⟨Nat.pos_of_ne_zero hp, hlt, by cases mode <;> decide, by decide, le_rfl⟩

/-- What the finder answers is a candidate, and the source's bytes agree at its displacement all along its length. -/
theorem find_sound {l dmax : Nat} (hv : ValidFind src p l dmax) (h : find src p l dmax v = some m) :
    IsCandidate p dmax v m.disp ∧ ∀ j, j < m.len → src[p + j]? = src[p - m.disp + j]? := by
  obtain ⟨best, hbest, hfind⟩ := find_eq_foundOf_best (v := v) hv
  obtain ⟨hlen, rfl⟩ := foundOf_eq_some.1 (hfind.symm.trans h)
  obtain ⟨hcand, hown⟩ := hbest.isCandidate hlen
  exact ⟨hcand, fun j hj => (matchLen_agree src _ (p - best.disp) p j (hown.symm ▸ hj)).symm⟩

/-- A match that can be read back at the cursor `p`: its operands are ones the mode can express, it lies in the source's past and
ends in the source, `VRAM_SAFE` allows it, and its bytes agree with those at its displacement. -/
structure Found.Sound (src : Memory) (mode : Mode) (v : Bool) (p : Nat) (m : Found) : Prop where
  min_le : minMatch ≤ m.len
  le_max : m.len ≤ maxLen mode
  end_le : p + m.len ≤ src.length
  disp_pos : 1 ≤ m.disp
  disp_le : m.disp ≤ min window p
  allowed : excluded v m.disp = false
  agree : ∀ j, j < m.len → src[p + j]? = src[p - m.disp + j]?

theorem committed_sound (hlt : p < src.length) (h : committed c src mode v p = some m) : m.Sound src mode v p := by
  obtain ⟨hp, husable⟩ := committed_some h
  obtain ⟨hmin, hmax, hend⟩ := usableMatch_some husable
  obtain ⟨hcand, hagree⟩ := find_sound (validFind_query mode hp hlt) (find_of_usableMatch husable)
  obtain ⟨hpos, hle, hallowed⟩ := isCandidate_iff.1 hcand
  exact ⟨hmin, hmax, by omega, hpos, by omega, hallowed, hagree⟩

end

end Sys2Proof.Machine
end

section
/-! SUPPORT. The units the Encoder adds, and their effect on a Decoder that has restored the source up to the cursor: it
restores it up to the next cursor (41_encoder.md R131, R132; 42_decoder.md R157, R165). -/

namespace Sys2Proof.Machine

/-- The registers of a DECODE of `cin`, past the header of `mode` and `|src|`, that has restored the first `p` bytes of `src`
without a warning. -/
def DecRegs.restored (src cin : Memory) (mode : Mode) (v : Bool) (ipos p : Nat) (flags : Byte) (cnt : Nat) : DecRegs :=
  { cin, vramSafe := v, ipos, dmode := mode, dn := src.length, produced := p, dflags := flags, dfcnt := cnt,
    warnLen := false, warnVram := false, out := src.take p }

section

variable (src cin : Memory) (mode : Mode) (v : Bool) (ipos p : Nat) (flags : Byte) (cnt : Nat)

@[simp] theorem DecRegs.restored_cin : (restored src cin mode v ipos p flags cnt).cin = cin := rfl
@[simp] theorem DecRegs.restored_ipos : (restored src cin mode v ipos p flags cnt).ipos = ipos := rfl
@[simp] theorem DecRegs.restored_dmode : (restored src cin mode v ipos p flags cnt).dmode = mode := rfl
@[simp] theorem DecRegs.restored_dn : (restored src cin mode v ipos p flags cnt).dn = src.length := rfl
@[simp] theorem DecRegs.restored_produced : (restored src cin mode v ipos p flags cnt).produced = p := rfl
@[simp] theorem DecRegs.restored_dflags : (restored src cin mode v ipos p flags cnt).dflags = flags := rfl
@[simp] theorem DecRegs.restored_dfcnt : (restored src cin mode v ipos p flags cnt).dfcnt = cnt := rfl
@[simp] theorem DecRegs.restored_out : (restored src cin mode v ipos p flags cnt).out = src.take p := rfl

end

theorem loadHeader_eq_restored (src cin : Memory) (mode : Mode) (v : Bool) :
    (DecRegs.start cin v).loadHeader mode src.length = .restored src cin mode v 4 0 0 0 := rfl

/-- `i` is a unit of the given flag that takes the Decoder from the first `p` bytes of `src` to the first `q`. Its own bytes are
no more than those it restores (41_encoder.md R143). -/
structure Restores (src : Memory) (mode : Mode) (v : Bool) (p q : Nat) (flag : Bool) (i : Instr) : Prop where
  lt : p < q
  le : q ≤ src.length
  size_le : i.size ≤ q - p
  wf : i.WF
  context : i.context = if flag then .backRef mode else .literal
  effect_eq : ∀ (cin : Memory) (ipos : Nat) (flags : Byte) (cnt : Nat),
    effect i (.restored src cin mode v ipos p flags cnt) =
      .ok (.restored src cin mode v (ipos + i.size) q (flags <<< 1) (cnt - 1))

section

variable {src : Memory} {mode : Mode} {v : Bool} {p : Nat}

/-- Emitting the source's next byte restores one byte more. -/
theorem emit_restored {cin : Memory} {ipos cnt : Nat} {flags b : Byte} (hb : src[p]? = some b) :
    (DecRegs.restored src cin mode v ipos p flags cnt).emit b = .restored src cin mode v ipos (p + 1) flags cnt := by
  simp only [DecRegs.emit, DecRegs.restored, append, List.take_add_one, hb, Option.toList_some]

theorem restores_lit {b : Byte} (hb : readByte src p = some b) : Restores src mode v p (p + 1) false (.lit b) where
  lt := p.lt_succ_self
  le := lt_length_of_readByte hb
  size_le := by simp [Instr.size]
  wf := rfl
  context := rfl
  effect_eq cin ipos flags cnt := congrArg Except.ok (emit_restored hb)

/-- The copy restores the bytes of the source that agree with those at the displacement. -/
theorem copyBytes_restored {cin : Memory} {ipos cnt disp n : Nat} {flags : Byte} (hpos : 1 ≤ disp) (hdisp : disp ≤ p)
    (hend : p + n ≤ src.length) (hagree : ∀ j, j < n → src[p + j]? = src[p - disp + j]?) :
    copyBytes disp n (.restored src cin mode v ipos p flags cnt) =
      .ok (.restored src cin mode v ipos (p + n) flags cnt) := by
  induction n generalizing p with
  | zero => rfl
  | succ n ih =>
    have hb : src[p]? = some src[p] := List.getElem?_eq_getElem (by omega)
    have hread : readByte (src.take p) (p - disp) = some src[p] := by
      rw [readByte, List.getElem?_take_of_lt (by omega), ← hb]
      exact (hagree 0 n.succ_pos).symm
    have hnext : ∀ j, j < n → src[p + 1 + j]? = src[p + 1 - disp + j]? := fun j hj => by
      have h := hagree (j + 1) (Nat.succ_lt_succ hj)
      rwa [show p + (j + 1) = p + 1 + j by omega, show p - disp + (j + 1) = p + 1 - disp + j by omega] at h
    have hrest := ih (p := p + 1) (by omega) (by omega) hnext
    rw [show p + 1 + n = p + (n + 1) by omega] at hrest
    rw [copyBytes, DecRegs.restored_out, DecRegs.restored_produced, hread, ← hrest, ← emit_restored hb]

theorem warnIfExceeds_of_fits {d : DecRegs} {len : Nat} (h : d.exceeds len = false) : d.warnIfExceeds len = d := by
  rw [DecRegs.warnIfExceeds, h, Bool.or_false]

theorem warnIfUnsafe_of_allowed {d : DecRegs} {disp : Nat} (h : excluded d.vramSafe disp = false) :
    d.warnIfUnsafe disp = d := by
  unfold excluded at h
  rw [DecRegs.warnIfUnsafe, h, Bool.or_false]

/-- A sound match neither is cut nor warns. -/
theorem execMatch_restored {cin : Memory} {u ipos cnt : Nat} {flags : Byte} {m : Found} (hm : m.Sound src mode v p) :
    execMatch u m.disp m.len (.restored src cin mode v ipos p flags cnt) =
      .ok (.restored src cin mode v ipos (p + m.len) flags cnt) := by
  have hdisp : m.disp ≤ p := hm.disp_le.trans (min_le_right ..)
  have hfits : (DecRegs.restored src cin mode v ipos p flags cnt).exceeds m.len = false :=
    decide_eq_false hm.end_le.not_gt
  rw [execMatch, DecRegs.restored_produced, if_neg hdisp.not_gt, warnIfExceeds_of_fits hfits,
    warnIfUnsafe_of_allowed hm.allowed, DecRegs.truncated, hfits]
  exact copyBytes_restored hm.disp_pos hdisp hm.end_le hm.agree

theorem size_matchUnit_le {d l : Nat} (hl : minMatch ≤ l) : (matchUnit mode d l).size ≤ l := by
  simp only [minMatch] at hl
  cases mode with
  | lz10 => exact Nat.le_of_succ_le hl
  | lz11 =>
    simp only [matchUnit]
    split
    · exact Nat.le_of_succ_le hl
    · split <;> simp only [Instr.size] <;> omega

theorem restores_match {m : Found} (hm : m.Sound src mode v p) :
    Restores src mode v p (p + m.len) true (matchUnit mode m.disp m.len) where
  lt := Nat.lt_add_of_pos_right (Nat.lt_of_lt_of_le (by decide) hm.min_le)
  le := hm.end_le
  size_le := (size_matchUnit_le hm.min_le).trans_eq (Nat.add_sub_cancel_left ..).symm
  wf := wellFormed_matchUnit mode m.disp hm.min_le
  context := context_matchUnit mode m.disp m.len
  effect_eq cin ipos flags cnt := by
    have hdisp : m.disp ≤ window := hm.disp_le.trans (min_le_left ..)
    rw [effect_match (matchOperands_matchUnit hm.disp_pos hdisp hm.min_le hm.le_max)]
    exact execMatch_restored hm

end

/-- A turn of the Encoder adds one unit, which takes a Decoder from its cursor to the next. -/
theorem encodeUnit_adds {c : Config} {b : Byte} {e : EncRegs} (hb : readByte e.src e.ep = some b) :
    ∃ q flag i, Restores e.src e.mode e.vramSafe e.ep q flag i ∧
      encodeUnit c b e = { e with pk := e.pk.addUnit flag (encode c i), ep := q } := by
  rcases encodeUnit_cases c b e with ⟨-, h⟩ | ⟨m, hm, h⟩
  · exact ⟨_, _, _, restores_lit hb, h⟩
  · exact ⟨_, _, _, restores_match (committed_sound (lt_length_of_readByte hb) hm), h⟩

end Sys2Proof.Machine
end

section
/-! SUPPORT. The turns of the Decoder over the bytes of a group: from standing behind the units of a packer it comes to stand
behind one unit more (41_encoder.md R133, R134; 42_decoder.md R155, R156). -/

namespace Sys2Proof.Machine

/-! ### Turns -/

/-- One turn of the Decoder's loop. -/
def Turn (d d' : DecRegs) : Prop := d.produced < d.dn ∧ decodeTurn d = .ok d'

/-- Some number of turns. -/
abbrev TurnsTo : DecRegs → DecRegs → Prop := Relation.ReflTransGen Turn

theorem Turn.sound {d d' : DecRegs} (h : Turn d d') (hd : d.Sound) (hipos : d.ipos ≠ 0) :
    d'.Sound ∧ d.ipos < d'.ipos ∧ d'.cin = d.cin := by
  obtain ⟨howed, hturn⟩ := h
  obtain ⟨hd', hlt, hcin, -⟩ := decodeTurn_ok Config.defaults [] hd hipos howed hturn
  exact ⟨hd', hlt, hcin⟩

/-- Turns that complete the output are all that the loop does, when its bound is more than the bytes left. -/
theorem decodeLoop_of_turnsTo {d d' : DecRegs} (h : TurnsTo d d') (hdone : d'.dn ≤ d'.produced) (hd : d.Sound)
    (hipos : d.ipos ≠ 0) {fuel : Nat} (hfuel : d.cin.length < fuel + d.ipos) : decodeLoop fuel d = .ok d' := by
  induction h using Relation.ReflTransGen.head_induction_on generalizing fuel with
  | refl =>
    cases fuel with
    | zero => rfl
    | succ fuel => rw [decodeLoop, if_neg hdone.not_gt]
  | head hturn _ ih =>
    obtain ⟨hd₁, hlt, hcin⟩ := hturn.sound hd hipos
    obtain ⟨howed, hok⟩ := hturn
    cases fuel with
    | zero => exact absurd hd.ipos_le (by omega)
    | succ fuel =>
      rw [decodeLoop, if_pos howed, hok]
      exact ih hd₁ (by omega) (by rw [hcin]; omega)

/-! ### The turn of one unit -/

section

variable {src cin : Memory} {mode : Mode} {v : Bool} {p q ipos cnt : Nat} {flag : Bool} {flags ctrl : Byte} {i : Instr}

/-- The bytes from a position on, when what stands before them is known. -/
theorem drop_of_isPrefix {pre bs cin : Bytes} (h : pre ++ bs <+: cin) : ∃ tail, cin.drop pre.length = bs ++ tail := by
  obtain ⟨tail, rfl⟩ := h
  exact ⟨tail, by rw [List.append_assoc, List.drop_left]⟩

/-- With a flag left, the unit's bytes are decoded and take effect. -/
theorem unitTurn_restored (c : Config) (h : Restores src mode v p q flag i) {pre : Bytes}
    (hcin : pre ++ encode c i <+: cin) (hpre : pre ≠ []) (hcnt : cnt ≠ 0) (hflag : nextFlag flags = flag) :
    unitTurn (.restored src cin mode v pre.length p flags cnt) =
      .ok (.restored src cin mode v (pre.length + i.size) q (flags <<< 1) (cnt - 1)) := by
  have howed : p < src.length := h.lt.trans_le h.le
  have hunit : (DecRegs.restored src cin mode v pre.length p flags cnt).AtUnit flag :=
    ⟨mt List.length_eq_zero_iff.1 hpre, howed, hcnt, nextFlag_eq flags ▸ hflag⟩
  have hctx : (DecRegs.restored src cin mode v pre.length p flags cnt).context = some i.context := by
    rw [h.context]
    cases flag with
    | false => exact DecRegs.context_eq_literal.2 hunit
    | true => exact DecRegs.context_eq_backRef.2 ⟨hunit, rfl⟩
  obtain ⟨tail, htail⟩ := drop_of_isPrefix hcin
  have hdec : decodeIn c i.context (encode c i ++ tail) = .instr i tail :=
    decodeIn_encode h.wf (fun size hi => by
      have hheader := h.context
      rw [hi] at hheader
      cases flag <;> cases hheader) tail
  rw [← htail] at hdec
  rw [← decoderStep_unit c hunit, decoderStep_of_instr hctx hdec, h.effect_eq]

/-- The turn of a unit that is not the first of its group. -/
theorem turn_next (c : Config) (h : Restores src mode v p q flag i) {pre : Bytes} (hcin : pre ++ encode c i <+: cin)
    (hpre : pre ≠ []) (hcnt : cnt ≠ 0) (hflag : nextFlag flags = flag) :
    Turn (.restored src cin mode v pre.length p flags cnt)
      (.restored src cin mode v (pre ++ encode c i).length q (flags <<< 1) (cnt - 1)) := by
  refine ⟨h.lt.trans_le h.le, ?_⟩
  rw [decodeTurn_eq, reloadFlags_of_flag hcnt, List.length_append, encode_length]
  exact unitTurn_restored c h hcin hpre hcnt hflag

/-- The turn of the first unit of a group, its control byte before it. -/
theorem turn_first (c : Config) (h : Restores src mode v p q flag i) {pre : Bytes}
    (hcin : pre ++ ctrl :: encode c i <+: cin) (hflag : nextFlag ctrl = flag) :
    Turn (.restored src cin mode v pre.length p flags 0)
      (.restored src cin mode v (pre ++ ctrl :: encode c i).length q (ctrl <<< 1) 7) := by
  refine ⟨h.lt.trans_le h.le, ?_⟩
  obtain ⟨tail, htail⟩ := drop_of_isPrefix hcin
  have hload : reloadFlags (.restored src cin mode v pre.length p flags 0) =
      .ok (.restored src cin mode v (pre ++ [ctrl]).length p ctrl 8) := by
    have hahead : (DecRegs.restored src cin mode v pre.length p flags 0).ahead = ctrl :: (encode c i ++ tail) := htail
    rw [reloadFlags, DecRegs.restored_dfcnt, if_pos rfl, fetchByte_bind, hahead, List.length_append]
    rfl
  rw [List.append_cons] at hcin ⊢
  rw [decodeTurn_eq, hload, List.length_append (bs := encode c i), encode_length]
  exact unitTurn_restored c h hcin (by simp) (by decide) hflag

end

end Sys2Proof.Machine
end

section
/-! SUPPORT. Reading back a packer: `OUT`, then the waiting group under any control byte that agrees with `ECTRL` on the flags
of its units (41_encoder.md R133, R134, R139, R140). -/

namespace Sys2Proof.Machine

/-- Two control bytes have the same flags for the first `n` units. -/
def SameFlags (n : Nat) (a b : Byte) : Prop := ∀ j, j < n → a.getLsbD (7 - j) = b.getLsbD (7 - j)

/-- Agreeing with the control byte after a unit is agreeing with the one before it, and having the unit's flag. -/
theorem SameFlags.of_setFlag {k : Packer} {flag : Bool} {ctrl : Byte} (hk : k.Waiting)
    (h : SameFlags (k.eucnt + 1) ctrl (setFlag k.ectrl k.eucnt flag)) :
    SameFlags k.eucnt ctrl k.ectrl ∧ ctrl.getLsbD (7 - k.eucnt) = flag := by
  have hlt : k.eucnt < 8 := hk.eucnt_lt
  have hlow : k.ectrl.getLsbD (7 - k.eucnt) = false :=
    (toNat_mod_two_pow_eq_zero_iff k.ectrl (8 - k.eucnt)).1 hk.ectrl_low _ (by omega)
  refine ⟨fun j hj => ?_, ?_⟩
  · rw [h j (Nat.lt_succ_of_lt hj), setFlag_bit _ _ _ _ hlt (by omega), decide_eq_false hj.ne, Bool.and_false,
      Bool.or_false]
  · rw [h _ k.eucnt.lt_succ_self, setFlag_bit _ _ _ _ hlt hlt, hlow, decide_eq_true rfl, Bool.and_true, Bool.false_or]

/-- After `n` flags the next one is that of unit `n`. -/
theorem nextFlag_shiftLeft (ctrl : Byte) {n : Nat} (h : n < 8) : nextFlag (ctrl <<< n) = ctrl.getLsbD (7 - n) := by
  rw [nextFlag_eq, BitVec.getLsbD_shiftLeft]
  simp
  omega

/-- `k.ReadTo cin ipos flags cnt`: `cin` begins with what the packer `k` has taken, and a Decoder that has read it stands at
`ipos` with these flags. Of the group that waits, the control byte is not written yet: any that agrees on the units' flags will
do. -/
inductive Packer.ReadTo (k : Packer) (cin : Bytes) : Nat → Byte → Nat → Prop where
  | noGroup (hcnt : k.eucnt = 0) (hcin : k.out <+: cin) : k.ReadTo cin k.out.length 0 0
  | inGroup (ctrl : Byte) (hcnt : k.eucnt ≠ 0) (hflags : SameFlags k.eucnt ctrl k.ectrl)
      (hcin : k.out ++ ctrl :: k.eunits <+: cin) :
      k.ReadTo cin (k.out ++ ctrl :: k.eunits).length (ctrl <<< k.eucnt) (8 - k.eucnt)

theorem Packer.Waiting.eunits_eq_nil {k : Packer} (hk : k.Waiting) (h : k.eucnt = 0) : k.eunits = [] :=
  List.length_eq_zero_iff.1 (Nat.le_zero.1 (by simpa [h] using hk.eunits_le))

section

variable {src cin : Memory} {mode : Mode} {v : Bool} {p q : Nat} {flag : Bool} {i : Instr} {k : Packer}

/-- Standing behind the group with one unit more, under its control byte, comes of standing behind the packer. -/
theorem exists_turn_of_group (c : Config) (h : Restores src mode v p q flag i) (hk : k.Waiting) {ctrl : Byte}
    (hflags : SameFlags (k.eucnt + 1) ctrl (setFlag k.ectrl k.eucnt flag))
    (hcin : k.out ++ ctrl :: (k.eunits ++ encode c i) <+: cin) :
    ∃ ipos flags cnt, k.ReadTo cin ipos flags cnt ∧ Turn (.restored src cin mode v ipos p flags cnt)
      (.restored src cin mode v (k.out ++ ctrl :: (k.eunits ++ encode c i)).length q (ctrl <<< (k.eucnt + 1))
        (8 - (k.eucnt + 1))) := by
  obtain ⟨hold, hflag⟩ := SameFlags.of_setFlag hk hflags
  by_cases hcnt : k.eucnt = 0
  · rw [hk.eunits_eq_nil hcnt, List.nil_append] at hcin ⊢
    rw [hcnt] at hflag ⊢
    exact ⟨_, _, _, .noGroup hcnt ((List.prefix_append ..).trans hcin),
      turn_first c h hcin ((nextFlag_eq ctrl).trans hflag)⟩
  · have hassoc : k.out ++ ctrl :: (k.eunits ++ encode c i) = k.out ++ ctrl :: k.eunits ++ encode c i := by simp
    have hlt : k.eucnt < 8 := hk.eucnt_lt
    rw [hassoc] at hcin ⊢
    rw [BitVec.shiftLeft_add, Nat.sub_add_eq]
    exact ⟨_, _, _, .inGroup ctrl hcnt hold ((List.prefix_append ..).trans hcin),
      turn_next c h hcin (by simp) (by omega) ((nextFlag_shiftLeft ctrl hlt).trans hflag)⟩

/-- Standing behind a packer with one unit more comes, by the turn of that unit, of standing behind the packer. -/
theorem exists_turn_of_addUnit (c : Config) (h : Restores src mode v p q flag i) (hk : k.Waiting) {ipos cnt : Nat}
    {flags : Byte} (hread : (k.addUnit flag (encode c i)).ReadTo cin ipos flags cnt) :
    ∃ ipos₀ flags₀ cnt₀, k.ReadTo cin ipos₀ flags₀ cnt₀ ∧
      Turn (.restored src cin mode v ipos₀ p flags₀ cnt₀) (.restored src cin mode v ipos q flags cnt) := by
  rcases addUnit_cases flag (encode c i) k with ⟨-, heq⟩ | ⟨hfull, heq⟩ <;> rw [heq] at hread
  · cases hread with
    | noGroup hcnt _ => cases hcnt
    | inGroup ctrl _ hflags hcin => exact exists_turn_of_group c h hk hflags hcin
  · cases hread with
    | noGroup _ hcin =>
      have hturn := exists_turn_of_group c h hk (fun _ _ => rfl) hcin
      rw [show k.eucnt + 1 = 8 from hfull, BitVec.shiftLeft_eq_zero le_rfl] at hturn
      exact hturn
    | inGroup _ hcnt _ _ => exact absurd rfl hcnt

/-- A Decoder that has read all of the flushed packer stands behind it, whatever follows. -/
theorem readTo_flushPartial (k : Packer) (more : Bytes) :
    ∃ flags cnt, k.ReadTo (k.flushPartial.out ++ more) k.flushPartial.out.length flags cnt := by
  unfold Packer.flushPartial
  by_cases hcnt : 0 < k.eucnt
  · have hout : k.flush.out = k.out ++ k.ectrl :: k.eunits := by simp
    rw [if_pos hcnt, hout]
    exact ⟨_, _, .inGroup k.ectrl hcnt.ne' (fun _ _ => rfl) (List.prefix_append ..)⟩
  · rw [if_neg hcnt]
    exact ⟨_, _, .noGroup (Nat.eq_zero_of_not_pos hcnt) (List.prefix_append ..)⟩

end

end Sys2Proof.Machine
end

section
/-! SUPPORT. The header reads back; the loop of the Encoder, and that DECODE of its flushed output restores the source
(43_header_codec.md R182, 41_encoder.md R143, R145). -/

namespace Sys2Proof.Machine

/-! ### The header -/

/-- The three size bytes of a header join to the size. -/
theorem toNat_sizeBytes {n : Nat} (h : n ≤ maxSize) :
    (BitVec.ofNat 8 (n &&& 0xFF)).toNat ||| ((BitVec.ofNat 8 ((n >>> 8) &&& 0xFF)).toNat <<< 8) |||
      ((BitVec.ofNat 8 ((n >>> 16) &&& 0xFF)).toNat <<< 16) = n := by
  have hand (x : Nat) : x &&& 0xFF = x % 256 := Nat.and_two_pow_sub_one_eq_mod x 8
  rw [← join24_eq_or, join24_toNat]
  simp only [hand, Nat.shiftRight_eq_div_pow, BitVec.toNat_ofNat, maxSize] at *
  omega

theorem readHeader_writeHeader {c : Config} (hc : c.WF) (mode : Mode) {n : Nat} (hn : n ≤ maxSize) (rest : Bytes) :
    readHeader c (writeHeader c mode n ++ rest) = .ok (mode, n) := by
  simp only [writeHeader, List.cons_append, List.nil_append, readHeader, toNat_sizeBytes hn]
  cases mode with
  | lz10 => exact if_pos rfl
  | lz11 => exact (if_neg hc.symm).trans (if_pos rfl)

theorem readHeader_of_isPrefix {c : Config} (hc : c.WF) {mode : Mode} {n : Nat} (hn : n ≤ maxSize) {cin : Memory}
    (h : writeHeader c mode n <+: cin) : readHeader c cin = .ok (mode, n) := by
  obtain ⟨rest, rfl⟩ := h
  exact readHeader_writeHeader hc mode hn rest

/-! ### How long a packer's output is -/

/-- The bits a packer has taken: the bytes of `OUT` and of the waiting units, and one flag for each of these. -/
def Packer.bits (k : Packer) : Nat := 8 * (k.out.length + k.eunits.length) + k.eucnt

theorem bits_addUnit (k : Packer) (f : Bool) (bs : Bytes) : (k.addUnit f bs).bits = k.bits + 8 * bs.length + 1 := by
  rcases addUnit_cases f bs k with ⟨-, heq⟩ | ⟨hfull, heq⟩ <;> rw [heq]
  · simp only [Packer.bits, List.length_append]
    omega
  · simp only [Packer.bits, Packer.start, List.length_append, List.length_cons, List.length_nil, group] at hfull ⊢
    omega

/-- The control byte of a partial group has at most 7 flags that no unit owns (41_encoder.md R140). -/
theorem length_flushPartial_le (k : Packer) : 8 * k.flushPartial.out.length ≤ k.bits + 7 := by
  unfold Packer.flushPartial Packer.bits
  split
  · simp only [Packer.flush_out, List.length_append, List.length_singleton]
    omega
  · omega

theorem out_isPrefix_flushPartial (k : Packer) : k.out <+: k.flushPartial.out := by
  unfold Packer.flushPartial
  split
  · rw [Packer.flush_out, List.append_assoc]
    exact List.prefix_append ..
  · exact List.prefix_rfl

/-! ### The loop -/

/-- What holds of the Encoder's registers at each turn of its loop: they are in their ranges, the bits taken are those of the
header and at most 9 for each byte of the source before the cursor, and a Decoder behind them has restored these bytes. -/
structure EncRegs.Encodes (c : Config) (src : Memory) (mode : Mode) (v : Bool) (e : EncRegs) : Prop where
  src_eq : e.src = src
  mode_eq : e.mode = mode
  vramSafe_eq : e.vramSafe = v
  inv : e.Inv c
  out_ne_nil : e.pk.out ≠ []
  bits_le : e.pk.bits ≤ 32 + 9 * e.ep
  decodes : ∀ cin ipos flags cnt, e.pk.ReadTo cin ipos flags cnt →
    TurnsTo (.restored src cin mode v 4 0 0 0) (.restored src cin mode v ipos e.ep flags cnt)

section

variable {c : Config} {src : Memory} {mode : Mode} {v : Bool}

theorem encodes_writeHeader (hsize : src.length ≤ maxSize) :
    ((EncRegs.start src mode v).writeHeader c).Encodes c src mode v where
  src_eq := rfl
  mode_eq := rfl
  vramSafe_eq := rfl
  inv := (EncRegs.start_inv c src mode v).writeHeader rfl hsize
  out_ne_nil := nofun
  bits_le := le_rfl
  decodes cin ipos flags cnt hread := by
    cases hread with
    | noGroup _ _ => exact .refl
    | inGroup _ hcnt _ _ => exact absurd rfl hcnt

theorem EncRegs.Encodes.encodeUnit {b : Byte} {e : EncRegs} (h : e.Encodes c src mode v)
    (hb : readByte e.src e.ep = some b) : (encodeUnit c b e).Encodes c src mode v := by
  have hinv := h.inv.encodeUnit h.out_ne_nil (b := b) (lt_length_of_readByte hb)
  have hout := encodeUnit_out_ne_nil c b h.out_ne_nil
  have hwaiting := h.inv.waiting
  obtain ⟨q, flag, i, hrestores, heq⟩ := encodeUnit_adds (c := c) hb
  obtain ⟨rfl, rfl, rfl, -, -, hbits, hdecodes⟩ := h
  rw [heq] at hinv hout ⊢
  refine ⟨rfl, rfl, rfl, hinv, hout, ?_, fun cin ipos flags cnt hread => ?_⟩
  · have hlt := hrestores.lt
    have hsize := hrestores.size_le
    rw [bits_addUnit, encode_length]
    simp only
    omega
  · obtain ⟨ipos₀, flags₀, cnt₀, hread₀, hturn⟩ := exists_turn_of_addUnit c hrestores hwaiting hread
    exact (hdecodes cin ipos₀ flags₀ cnt₀ hread₀).tail hturn

/-- The loop keeps what holds at each turn, and ends at the end of the source. -/
theorem EncRegs.Encodes.encodeLoop {fuel : Nat} {e : EncRegs} (h : e.Encodes c src mode v)
    (hfuel : src.length ≤ e.ep + fuel) :
    (encodeLoop c fuel e).Encodes c src mode v ∧ (encodeLoop c fuel e).ep = src.length := by
  have hle : e.ep ≤ src.length := h.src_eq ▸ h.inv.ep_le
  induction fuel generalizing e with
  | zero => exact ⟨h, hle.antisymm hfuel⟩
  | succ fuel ih =>
    unfold Machine.encodeLoop
    cases hb : readByte e.src e.ep with
    | none => exact ⟨h, hle.antisymm (h.src_eq ▸ readByte_eq_none.1 hb)⟩
    | some b =>
      have hnext : (Machine.encodeUnit c b e).Encodes c src mode v := h.encodeUnit hb
      have hlt : e.ep < (Machine.encodeUnit c b e).ep := lt_encodeUnit_ep c b e
      exact ih hnext (by omega) (hnext.src_eq ▸ hnext.inv.ep_le)

theorem encodeUnits_encodes (hsize : src.length ≤ maxSize) :
    (encodeUnits c src mode v).Encodes c src mode v ∧ (encodeUnits c src mode v).ep = src.length :=
  (encodes_writeHeader hsize).encodeLoop (Nat.le_add_left ..)

/-! ### The flushed output -/

/-- Past its header a DECODE is its loop, from the registers that have restored nothing yet. -/
theorem decodeStream_of_header {c : Config} {cin src : Memory} {mode : Mode} (h : readHeader c cin = .ok (mode, src.length))
    (v : Bool) : decodeStream c cin v = decodeLoop (cin.length + 1) (.restored src cin mode v 4 0 0 0) := by
  simp only [decodeStream, h, loadHeader_eq_restored]

theorem okResult_restored (src cin : Memory) (mode : Mode) (v : Bool) (ipos : Nat) (flags : Byte) (cnt : Nat) :
    (DecRegs.restored src cin mode v ipos src.length flags cnt).okResult = .decode src false false :=
  congrArg (Result.decode · false false) List.take_length

variable (c src mode v)

/-- `OUT` after the last flush, before the padding (41_encoder.md R139, R141). -/
def flushedOut : Memory := (encodeUnits c src mode v).pk.flushPartial.out

theorem encodeStream_eq : encodeStream c src mode v = flushedOut c src mode v ++ padding (flushedOut c src mode v) := rfl

variable {c src mode v} (hsize : src.length ≤ maxSize)
include hsize

theorem writeHeader_isPrefix_flushedOut : writeHeader c mode src.length <+: flushedOut c src mode v := by
  obtain ⟨henc, -⟩ := encodeUnits_encodes (c := c) (mode := mode) (v := v) hsize
  have hheader := henc.inv.header_isPrefix henc.out_ne_nil
  rw [henc.mode_eq, henc.src_eq] at hheader
  exact hheader.trans (out_isPrefix_flushPartial _)

/-- Each byte of the source costs at most 9 bits, so that no output is longer than literals alone (41_encoder.md R143). -/
theorem length_flushedOut_le : (flushedOut c src mode v).length ≤ 4 + src.length + (src.length + 7) / 8 := by
  obtain ⟨henc, hend⟩ := encodeUnits_encodes (c := c) (mode := mode) (v := v) hsize
  have hbits := henc.bits_le
  have hflush : 8 * (flushedOut c src mode v).length ≤ _ := length_flushPartial_le _
  omega

/-- The turns of a DECODE over the flushed output, whatever follows it: they restore the source. -/
theorem turnsTo_flushedOut (more : Bytes) : ∃ flags cnt,
    TurnsTo (.restored src (flushedOut c src mode v ++ more) mode v 4 0 0 0)
      (.restored src (flushedOut c src mode v ++ more) mode v (flushedOut c src mode v).length src.length flags cnt) := by
  obtain ⟨henc, hend⟩ := encodeUnits_encodes (c := c) (mode := mode) (v := v) hsize
  obtain ⟨flags, cnt, hread⟩ := readTo_flushPartial (encodeUnits c src mode v).pk more
  have hturns := henc.decodes _ _ _ _ hread
  rw [hend] at hturns
  exact ⟨flags, cnt, hturns⟩

/-- DECODE of the flushed output, whatever follows it, gives the source without a warning. -/
theorem decodeRequest_flushedOut (hc : c.WF) (more : Bytes) :
    decodeRequest c (flushedOut c src mode v ++ more) v = some (.decode src false false) := by
  have hheader : writeHeader c mode src.length <+: flushedOut c src mode v ++ more :=
    (writeHeader_isPrefix_flushedOut hsize).trans (List.prefix_append ..)
  have hfour : 4 ≤ (flushedOut c src mode v ++ more).length := hheader.length_le
  obtain ⟨flags, cnt, hturns⟩ := turnsTo_flushedOut (c := c) (mode := mode) (v := v) hsize more
  have hstream : decodeStream c (flushedOut c src mode v ++ more) v = .ok (.restored src (flushedOut c src mode v ++ more)
      mode v (flushedOut c src mode v).length src.length flags cnt) := by
    rw [decodeStream_of_header (readHeader_of_isPrefix hc hsize hheader)]
    exact decodeLoop_of_turnsTo hturns le_rfl ⟨hfour, rfl⟩ (Nat.succ_ne_zero 3)
      (Nat.lt_add_right 4 (Nat.lt_succ_self _))
  exact decodeRequest_eq_decode.2 ⟨_, hstream, okResult_restored ..⟩

end

end Sys2Proof.Machine
end

section
/-! SUPPORT. DECODE of an input that is cut: where the longer input goes on and the cut one does not, bytes are missing at the
cut (42_decoder.md R151, R166). -/

namespace Sys2Proof.Machine

theorem header_of_badTag {c : Config} {ctx : Context} {bs : Bytes} {t : Byte} (h : decodeIn c ctx bs = .badTag t) :
    ctx = .header := by
  match ctx, bs with
  | .header, _ => rfl
  | .control, [] | .control, _ :: _ | .literal, [] | .literal, _ :: _ => cases h
  | .backRef .lz10, bs => exact absurd h (decodeMatch10_ne_badTag bs t)
  | .backRef .lz11, bs => exact absurd h (decodeMatch11_ne_badTag bs t)

section

variable {more : Bytes} {c : Config} {d d₁ d' : DecRegs} {e : Stop}

/-- Past the header a fetch raises only for bytes missing at the end of the input. -/
theorem nextInstr_trap_of_ipos (hd : d.Sound) (hipos : d.ipos ≠ 0) {e : Err} (h : nextInstr c d = .trap e) :
    e = .truncatedInput d.cin.length := by
  unfold nextInstr at h
  split at h
  · cases h
  · rename_i ctx hctx
    unfold fetchIn at h
    split at h <;> cases h
    · have hle : d.ipos ≤ d.cin.length := hd.ipos_le
      rw [DecRegs.ahead, List.length_drop, Nat.add_sub_of_le hle]
    · rename_i t htag
      exact absurd (DecRegs.context_eq_header.1 (header_of_badTag htag ▸ hctx)) hipos

/-- A step of the Decoder that ends the request, but goes on with more bytes behind the input, missed bytes. -/
theorem decoderStep_error_of_followedBy (hd : d.Sound) (hipos : d.ipos ≠ 0) (h : decoderStep c d = .error e)
    (hmore : decoderStep c (d.followedBy more) = .ok d') : e = .raised (.truncatedInput d.cin.length) := by
  unfold decoderStep at h
  split at h
  · rename_i i hi
    obtain ⟨rest, hdec, hctx⟩ := nextInstr_run hi
    have hdec' := decodeIn_append hdec (more.drop (d.ipos - d.cin.length))
    rw [← DecRegs.ahead_followedBy] at hdec'
    rw [decoderStep_of_instr (d := d.followedBy more) hctx hdec', effect_followedBy, h] at hmore
    cases hmore
  · rename_i e' htrap
    cases h
    rw [nextInstr_trap_of_ipos hd hipos htrap]
  · cases h

/-- A turn that ends the request, but goes on with more bytes behind the input, missed bytes. -/
theorem decodeTurn_error_of_followedBy (c : Config) (hd : d.Sound) (hipos : d.ipos ≠ 0) (howed : d.produced < d.dn)
    (h : decodeTurn d = .error e) (hmore : decodeTurn (d.followedBy more) = .ok d') :
    e = .raised (.truncatedInput d.cin.length) := by
  by_cases hcnt : d.dfcnt = 0
  · rw [decodeTurn_of_noFlag c hipos howed hcnt] at h
    rw [decodeTurn_of_noFlag (d := d.followedBy more) c hipos howed hcnt] at hmore
    cases hctrl : decoderStep c d with
    | error e₁ =>
      rw [hctrl] at h
      cases h
      cases hctrl' : decoderStep c (d.followedBy more) with
      | error e₂ => rw [hctrl'] at hmore; cases hmore
      | ok d₁ => exact decoderStep_error_of_followedBy hd hipos hctrl hctrl'
    | ok d₁ =>
      obtain ⟨hd₁, hlt, hcin⟩ := decoderStep_sound hd (DecRegs.context_ne_none_of_owed howed) hctrl
      replace h : decoderStep c d₁ = .error e := by rwa [hctrl] at h
      replace hmore : decoderStep c (d₁.followedBy more) = .ok d' := by
        rwa [decoderStep_followedBy hctrl] at hmore
      rw [← hcin]
      exact decoderStep_error_of_followedBy hd₁ (by omega) h hmore
  · rw [decodeTurn_of_flag c hipos howed hcnt] at h
    rw [decodeTurn_of_flag (d := d.followedBy more) c hipos howed hcnt] at hmore
    exact decoderStep_error_of_followedBy hd hipos h hmore

/-- Turns over an input end in `TruncatedInput` at the cut, when it is cut before the place they lead to. -/
theorem decodeLoop_cut (hturns : TurnsTo d₁ d') (h₁ : d₁ = d.followedBy more) (hd : d.Sound) (hipos : d.ipos ≠ 0)
    (hcut : d.cin.length < d'.ipos) {fuel : Nat} (hfuel : d.cin.length < fuel + d.ipos) :
    decodeLoop fuel d = .error (.raised (.truncatedInput d.cin.length)) := by
  have hle : d.ipos ≤ d.cin.length := hd.ipos_le
  induction hturns using Relation.ReflTransGen.head_induction_on generalizing d fuel with
  | refl =>
    have hipos' : d'.ipos = d.ipos := by rw [h₁]; rfl
    omega
  | head hturn _ ih =>
    subst h₁
    obtain ⟨howed, hok⟩ := hturn
    replace howed : d.produced < d.dn := howed
    obtain ⟨fuel, rfl⟩ := Nat.exists_eq_add_one_of_ne_zero (show fuel ≠ 0 by omega)
    rw [decodeLoop, if_pos howed]
    cases hcutTurn : decodeTurn d with
    | error e =>
      rw [decodeTurn_error_of_followedBy Config.defaults hd hipos howed hcutTurn hok]
      rfl
    | ok d₂ =>
      obtain ⟨hd₂, hlt, hcin, hmore⟩ := decodeTurn_ok Config.defaults more hd hipos howed hcutTurn
      cases hok.symm.trans hmore
      have hrest := ih (d := d₂) rfl hd₂ (by omega) (by rwa [hcin]) (fuel := fuel) (by rw [hcin]; omega) hd₂.ipos_le
      rwa [hcin] at hrest

end

theorem readHeader_of_short (c : Config) {cin : Memory} (h : cin.length < 4) :
    readHeader c cin = .error (.truncatedInput cin.length) := by
  match cin with
  | [] | [_] | [_, _] | [_, _, _] => rfl
  | _ :: _ :: _ :: _ :: _ => simp at h; omega

/-- The flushed output cut anywhere is truncated at the cut: no byte of it is spare. -/
theorem decodeStream_flushedOut_cut {c : Config} {src : Memory} {mode : Mode} {v : Bool} (hc : c.WF)
    (hsize : src.length ≤ maxSize) {cut more : Bytes} (hsplit : cut ++ more = flushedOut c src mode v)
    (hmore : more ≠ []) : decodeStream c cut v = .error (.raised (.truncatedInput cut.length)) := by
  by_cases hshort : cut.length < 4
  · simp only [decodeStream, readHeader_of_short c hshort]
  · have hfour : 4 ≤ cut.length := Nat.le_of_not_lt hshort
    have hheader : writeHeader c mode src.length <+: cut :=
      List.prefix_of_prefix_length_le (hsplit ▸ writeHeader_isPrefix_flushedOut hsize) (List.prefix_append ..) hfour
    obtain ⟨flags, cnt, hturns⟩ := turnsTo_flushedOut (c := c) (mode := mode) (v := v) hsize []
    have hcut : cut.length < (flushedOut c src mode v).length := by
      rw [← hsplit, List.length_append]
      exact Nat.lt_add_of_pos_right (List.length_pos_iff.2 hmore)
    rw [decodeStream_of_header (readHeader_of_isPrefix hc hsize hheader)]
    exact decodeLoop_cut (more := more) hturns (by rw [List.append_nil, ← hsplit]; rfl) ⟨hfour, rfl⟩
      (Nat.succ_ne_zero 3) hcut (Nat.lt_add_right 4 (Nat.lt_succ_self _))

theorem decodeRequest_flushedOut_take {c : Config} {src : Memory} {mode : Mode} {v : Bool} (hc : c.WF)
    (hsize : src.length ≤ maxSize) {k : Nat} (hk : k < (flushedOut c src mode v).length) :
    decodeRequest c ((flushedOut c src mode v).take k) v = some (.error (.truncatedInput k)) := by
  have hmore : (flushedOut c src mode v).drop k ≠ [] := mt List.drop_eq_nil_iff.1 (Nat.not_le_of_lt hk)
  have hcut := decodeStream_flushedOut_cut hc hsize (List.take_append_drop k (flushedOut c src mode v)) hmore
  rw [List.length_take_of_le hk.le] at hcut
  rw [decodeRequest_eq, hcut]
  rfl

end Sys2Proof.Machine
end

section
/-! SUPPORT. The bytes of a match unit as the shifts, masks and ors of 41_encoder.md R135 to R138. -/

namespace Sys2Proof.Machine

/-- A field cut out of a number's low bits. -/
theorem extractLsb'_ofNat_eq {w start len : Nat} (x : Nat) (h : start + len ≤ w) :
    (BitVec.ofNat w x).extractLsb' start len = BitVec.ofNat len (x >>> start) := by
  refine BitVec.eq_of_getLsbD_eq fun j hj => ?_
  have hw : start + j < w := by omega
  simp only [BitVec.getLsbD_extractLsb', BitVec.getLsbD_ofNat, hj, hw, decide_true, Bool.true_and, Nat.testBit_shiftRight]

/-- Two nibbles joined are the shift and or of the formulas, where the low one fits its place. -/
theorem joinNibbles_ofNat (x : Nat) {y : Nat} (hy : y < 16) :
    joinNibbles (BitVec.ofNat 4 x) (BitVec.ofNat 4 y) = BitVec.ofNat 8 ((x <<< 4) ||| y) := by
  apply BitVec.eq_of_toNat_eq
  rw [joinNibbles_toNat, ← Nat.shiftLeft_add_eq_or_of_lt (b := y) hy, Nat.shiftLeft_eq]
  simp only [BitVec.toNat_ofNat]
  omega

theorem ofNat_and_mask (x : Nat) : BitVec.ofNat 8 (x &&& 0xFF) = BitVec.ofNat 8 x := by
  apply BitVec.eq_of_toNat_eq
  simp [Nat.and_two_pow_sub_one_eq_mod x 8]

theorem ofNat_and_nibble (x : Nat) : BitVec.ofNat 4 (x &&& 0xF) = BitVec.ofNat 4 x := by
  apply BitVec.eq_of_toNat_eq
  simp [Nat.and_two_pow_sub_one_eq_mod x 4]

/-! ### The bytes of a match by its fields -/

/-- The last byte of every match: the displacement's low byte. -/
theorem dispField_low (d : Nat) : (dispField d).extractLsb' 0 8 = BitVec.ofNat 8 ((d - 1) &&& 0xFF) := by
  rw [dispField, extractLsb'_ofNat_eq _ (by decide), Nat.shiftRight_zero, ofNat_and_mask]

section

variable (c : Config) {d : Nat} (hd : d ≤ window)
include hd

/-- The byte that joins a length nibble and the displacement's high nibble. -/
theorem joinNibbles_dispField (x : Nat) : joinNibbles (BitVec.ofNat 4 x) ((dispField d).extractLsb' 8 4) =
    BitVec.ofNat 8 ((x <<< 4) ||| ((d - 1) >>> 8)) := by
  have hfits : (d - 1) >>> 8 < 16 := by
    rw [Nat.shiftRight_eq_div_pow]
    simp only [window] at hd
    omega
  rw [dispField, extractLsb'_ofNat_eq _ (by decide), joinNibbles_ofNat x hfits]

theorem encode_match10_ofNat (x : Nat) : encode c (.match10 (BitVec.ofNat 4 x) (dispField d)) =
    [BitVec.ofNat 8 ((x <<< 4) ||| ((d - 1) >>> 8)), BitVec.ofNat 8 ((d - 1) &&& 0xFF)] := by
  rw [encode, joinNibbles_dispField hd, dispField_low]

theorem encode_match11_2_ofNat (x : Nat) : encode c (.match11_2 (BitVec.ofNat 4 x) (dispField d)) =
    [BitVec.ofNat 8 ((x <<< 4) ||| ((d - 1) >>> 8)), BitVec.ofNat 8 ((d - 1) &&& 0xFF)] :=
  encode_match10_ofNat c hd x

theorem encode_match11_3_ofNat {x : Nat} (hx : x < 2 ^ 8) :
    encode c (.match11_3 (BitVec.ofNat 8 x) (dispField d)) =
      [BitVec.ofNat 8 (x >>> 4), BitVec.ofNat 8 (((x &&& 0xF) <<< 4) ||| ((d - 1) >>> 8)),
        BitVec.ofNat 8 ((d - 1) &&& 0xFF)] := by
  have hfirst : joinNibbles 0 (BitVec.ofNat 4 (x >>> 4)) = BitVec.ofNat 8 (0 ||| (x >>> 4)) :=
    joinNibbles_ofNat 0 (by rw [Nat.shiftRight_eq_div_pow]; omega)
  rw [Nat.zero_or] at hfirst
  rw [encode, extractLsb'_ofNat_eq x (by decide), extractLsb'_ofNat_eq x (by decide), Nat.shiftRight_zero, hfirst,
    ← ofNat_and_nibble x, joinNibbles_dispField hd, dispField_low]

theorem encode_match11_4_ofNat {x : Nat} (hx : x < 2 ^ 16) :
    encode c (.match11_4 (BitVec.ofNat 16 x) (dispField d)) =
      [BitVec.ofNat 8 (0x10 ||| (x >>> 12)), BitVec.ofNat 8 ((x >>> 4) &&& 0xFF),
        BitVec.ofNat 8 (((x &&& 0xF) <<< 4) ||| ((d - 1) >>> 8)), BitVec.ofNat 8 ((d - 1) &&& 0xFF)] := by
  have hfirst : joinNibbles 1 (BitVec.ofNat 4 (x >>> 12)) = BitVec.ofNat 8 (0x10 ||| (x >>> 12)) :=
    joinNibbles_ofNat 1 (by rw [Nat.shiftRight_eq_div_pow]; omega)
  rw [encode, extractLsb'_ofNat_eq x (by decide), extractLsb'_ofNat_eq x (by decide), extractLsb'_ofNat_eq x (by decide),
    Nat.shiftRight_zero, hfirst, ofNat_and_mask (x >>> 4), ← ofNat_and_nibble x, joinNibbles_dispField hd, dispField_low]

end

end Sys2Proof.Machine
end

section
/-! SUPPORT. The Encoder's first step and its unit step, as steps of the machine (41_encoder.md R121, R122, R124). -/

namespace Sys2Proof.Machine

/-- On a quiet machine the first step of an ENCODE is the Encoder's turn from its start registers. -/
theorem step_startRequest_encode {s : State} (h : s.Quiet) (src : Memory) (mode : Mode) (v : Bool) :
    step (startRequest (.encode src mode v) s) =
      .next (stepEncode (EncRegs.start src mode v) (startRequest (.encode src mode v) s)) := by
  have htick : (startRequest (.encode src mode v) s).tick = startRequest (.encode src mode v) s := Quiet.tick h _
  rw [step_encoding (s := startRequest _ s) (Quiet.dueMove h _) rfl, htick]

theorem step_encodeUnit {s : State} {e : EncRegs} {b : Byte} (hdue : s.dueMove = none) (hs : s.activity = .encoding e)
    (ho : e.pk.out ≠ []) (hb : readByte e.src e.ep = some b) :
    step s = .next (s.tick.setActivity (.encoding (encodeUnit s.cfg b e))) := by
  rw [step_encoding hdue hs, stepEncode_unit ho hb, State.tick_cfg]

/-! ### What a turn emits -/

theorem encodeUnit_of_none {c : Config} {e : EncRegs} (b : Byte) (h : committed c e.src e.mode e.vramSafe e.ep = none) :
    encodeUnit c b e = e.emitLiteral b := by
  rw [encodeUnit, h]

theorem encodeUnit_of_some {c : Config} {e : EncRegs} {m : Found} (b : Byte)
    (h : committed c e.src e.mode e.vramSafe e.ep = some m) : encodeUnit c b e = e.emitMatch c m := by
  rw [encodeUnit, h]

/-- A finder result is usable when it is found and long enough (41_encoder.md R127). -/
theorem usableMatch_eq (src : Memory) (mode : Mode) (v : Bool) (p : Nat) :
    (match find src p (maxLen mode) 4096 v with
      | some m => if 3 ≤ m.len then some m else none
      | none => none) = usableMatch src mode v p := by
  rw [usableMatch, show query src mode v p = find src p (maxLen mode) 4096 v from rfl]
  cases find src p (maxLen mode) 4096 v <;> rfl

end Sys2Proof.Machine
end

section
/-! SUPPORT. The statements of the encoder family settled. -/

open Sys2Proof Sys2Proof.Machine

/-- Settles O49: the finder answers a candidate of the window, of its own match length, and the Encoder commits only what is
usable. -/
theorem committedMatchIsSound : Obligations.CommittedMatchIsSound := by
  intro c src mode v p m hlt h
  obtain ⟨hmin, hmax, hend, hpos, hle, hallowed, hagree⟩ := committed_sound hlt h
  exact ⟨hmin, hmax, hend, hpos, hle, fun hv hone => by simp [excluded, hv, hone] at hallowed, hagree⟩

/-- Settles O56: turn by turn of the Encoder, a Decoder that has read what is packed has restored the source up to the cursor;
the padding follows what it reads. -/
theorem encodeDecodeRoundTrip : Obligations.EncodeDecodeRoundTrip := by
  intro c src mode v hc hlt
  rw [encodeStream_eq]
  exact decodeRequest_flushedOut (Nat.le_of_lt_succ hlt) hc _

/-- Settles O51: the same turns restore the source without the padding; cut before their end, they miss the byte at the cut. -/
theorem noByteBeforeThePaddingIsSpare : Obligations.NoByteBeforeThePaddingIsSpare := by
  intro c src mode v hc hsize
  refine ⟨?_, fun k hk => decodeRequest_flushedOut_take hc hsize hk⟩
  have hwhole := decodeRequest_flushedOut (mode := mode) (v := v) hsize hc []
  rwa [List.append_nil] at hwhole

/-- Settles O50: the header stays the first write, each source byte costs at most 9 bits, and the padding is what is missing to
a multiple of 4. -/
theorem encodeOutputShape : Obligations.EncodeOutputShape := by
  intro c src mode v hsize
  have hflushed : writeHeader c mode src.length <+: flushedOut c src mode v := writeHeader_isPrefix_flushedOut hsize
  have hheader : writeHeader c mode src.length <+: encodeStream c src mode v := hflushed.trans (List.prefix_append ..)
  have hlen : (flushedOut c src mode v).length ≤ 4 + src.length + (src.length + 7) / 8 := length_flushedOut_le hsize
  refine ⟨fun hc => readHeader_of_isPrefix hc hsize hheader, (List.prefix_iff_eq_take.1 hheader).symm,
    length_padding (flushedOut c src mode v), ?_, flushedOut c src mode v, rfl, rfl⟩
  rw [encodeStream_eq, List.length_append, padding, List.length_replicate]
  simp only [padAlign]
  omega

/-- Settles O5: form by form, the fields joined are the shifts and ors of the formula. -/
theorem matchBytesAreTheFormulas : Obligations.MatchBytesAreTheFormulas := by
  intro c d l _ hd
  refine ⟨fun _ _ => encode_match10_ofNat c hd (l - 3), fun _ h16 => ?_, fun h17 h272 => ?_, fun h273 hmax => ?_⟩ <;>
    show encode c (matchUnit .lz11 d l) = _
  · rw [matchUnit, if_pos h16, encode_match11_2_ofNat c hd]
  · rw [matchUnit, if_neg (by omega), if_pos h272, encode_match11_3_ofNat c hd (by omega)]
  · rw [matchUnit, if_neg (by omega), if_neg (by omega), encode_match11_4_ofNat c hd (by omega)]

/-- Settles O46: on a quiet machine the first step of the Encoder is its size check and header. -/
theorem encodeFirstStep : Obligations.EncodeFirstStep := by
  intro s src mode v hquiet
  refine ⟨fun hlarge => ?_, fun hsize => ⟨_, step_startRequest_encode hquiet src mode v, ?_⟩⟩
  · rw [step_startRequest_encode hquiet, stepEncode_tooLarge (e := EncRegs.start src mode v) rfl hlarge]
    rfl
  · rw [stepEncode_header (e := EncRegs.start src mode v) rfl (Nat.not_lt_of_le hsize)]
    exact ⟨fun a b hb => hb, fun a => rfl⟩

/-- Settles O47: with no move due the step is a turn of the Encoder, which adds what it commits. -/
theorem encoderUnitRule : Obligations.EncoderUnitRule := by
  intro s e b hdue hs ho hb literal backRef usable probe
  have husable (p : Nat) : usable p = usableMatch e.src e.mode e.vramSafe p := usableMatch_eq ..
  have hprobe (p : Nat) : probe p = probeLen s.cfg e.src e.mode e.vramSafe p := by
    simp only [probe, husable, probeLen]
    cases usableMatch e.src e.mode e.vramSafe p <;> rfl
  have hliteral (h : committed s.cfg e.src e.mode e.vramSafe e.ep = none) :
      step s = .next (s.tick.setActivity (.encoding literal)) := by
    rw [step_encodeUnit hdue hs ho hb, encodeUnit_of_none b h]
    rfl
  have hmatch (m : Found) (h : committed s.cfg e.src e.mode e.vramSafe e.ep = some m) :
      step s = .next (s.tick.setActivity (.encoding (backRef m))) := by
    rw [step_encodeUnit hdue hs ho hb, encodeUnit_of_some b h]
    rfl
  simp only [husable, hprobe]
  refine ⟨fun hp => hliteral ?_, fun hp hu => hliteral ?_, fun m hp hu hend => hmatch m ?_,
    fun m hp hu hend hle => hliteral ?_, fun m hp hu hend hlt => hmatch m ?_⟩
  · rw [hp, committed_at_zero]
  · exact committed_of_unusable hp hu
  · rw [committed_of_usable hp hu, if_neg fun hpref => hpref.1.not_ge hend]
  · rw [committed_of_usable hp hu, if_pos ⟨hend, hle⟩]
  · rw [committed_of_usable hp hu, if_neg fun hpref => hpref.2.not_gt hlt]

end

section
/-! SUPPORT. The step of a running DECODE by what its fetch gives: the header as the Header Codec reads it, bytes missing at
the end of the input (42_decoder.md R151, R166). -/

namespace Sys2Proof

/-! ### Too few bytes for an instruction -/

theorem decodeIn_nil (c : Config) (ctx : Context) : decodeIn c ctx [] = .short := by
  match ctx with
  | .header | .control | .literal | .backRef .lz10 | .backRef .lz11 => rfl

theorem decodeMatch10_of_short {bs : Bytes} (h : bs.length < 2) : decodeMatch10 bs = .short := by
  match bs with
  | [] | [_] => rfl
  | _ :: _ :: _ => simp at h

/-- The first byte of an LZ11 match gives its length in bytes (30_encoding.md R74). -/
theorem decodeMatch11_of_short {b0 : Byte} {more : Bytes}
    (h : more.length + 1 < if b0.toNat / 16 = 0 then 3 else if b0.toNat / 16 = 1 then 4 else 2) :
    decodeMatch11 (b0 :: more) = .short := by
  simp only [decodeMatch11, Machine.hiNibble_eq_zero, Machine.hiNibble_eq_one, Machine.hi]
  split at h
  · rw [if_pos ‹_›]
    match more with
    | [] | [_] => rfl
    | _ :: _ :: _ => simp only [List.length_cons] at h; omega
  · rw [if_neg ‹_›]
    split at h
    · rw [if_pos ‹_›]
      match more with
      | [] | [_] | [_, _] => rfl
      | _ :: _ :: _ :: _ => simp only [List.length_cons] at h; omega
    · rw [if_neg ‹_›]
      match more with
      | [] => rfl
      | _ :: _ => simp only [List.length_cons] at h; omega

end Sys2Proof

namespace Sys2Proof.Machine

/-! ### The header -/

section

variable {c : Config} {t : Byte} (b1 b2 b3 : Byte) (rest : Bytes)

theorem readHeader_of_tag (h : t = c.tagLz10 ∨ t = c.tagLz11) :
    readHeader c (t :: b1 :: b2 :: b3 :: rest) =
      .ok (if t = c.tagLz10 then .lz10 else .lz11, b1.toNat ||| (b2.toNat <<< 8) ||| (b3.toNat <<< 16)) := by
  by_cases h10 : t = c.tagLz10
  · simp only [readHeader, if_pos h10]
  · simp only [readHeader, if_neg h10, if_pos (h.resolve_left h10)]

theorem readHeader_of_ne_tags (h10 : t ≠ c.tagLz10) (h11 : t ≠ c.tagLz11) :
    readHeader c (t :: b1 :: b2 :: b3 :: rest) = .error (.badHeader t) :=
  (if_neg h10).trans (if_neg h11)

end

/-- At the start of the stream the step of the Decoder reads the header as the Header Codec does (43_header_codec.md R181), and
raises the error that it raises. -/
theorem decoderStep_header {d : DecRegs} (c : Config) (hipos : d.ipos = 0) :
    decoderStep c d = ((readHeader c d.cin).mapError .raised).map fun h => d.loadHeader h.1 h.2 := by
  have hctx : d.context = some .header := DecRegs.context_eq_header.2 hipos
  have hahead : d.ahead = d.cin := by rw [DecRegs.ahead, hipos, List.drop_zero]
  match hcin : d.cin with
  | [] | [_] | [_, _] | [_, _, _] =>
    rw [decoderStep_of_short hctx (by rw [hahead, hcin]; rfl), hahead, hcin, hipos, Nat.zero_add]
    rfl
  | t :: b1 :: b2 :: b3 :: rest =>
    have hdec : decodeIn c .header d.ahead = decodeHeader c (t :: b1 :: b2 :: b3 :: rest) := by
      rw [hahead, hcin]
      rfl
    simp only [decodeHeader] at hdec
    by_cases h10 : t = c.tagLz10
    · rw [if_pos h10] at hdec
      rw [decoderStep_of_instr hctx hdec, readHeader_of_tag _ _ _ _ (.inl h10), if_pos h10, ← join24_eq_or]
      rfl
    · rw [if_neg h10] at hdec
      by_cases h11 : t = c.tagLz11
      · rw [if_pos h11] at hdec
        rw [decoderStep_of_instr hctx hdec, readHeader_of_tag _ _ _ _ (.inr h11), if_neg h10, ← join24_eq_or]
        rfl
      · rw [if_neg h11] at hdec
        rw [decoderStep_of_badTag hctx hdec, readHeader_of_ne_tags _ _ _ _ h10 h11]
        rfl

/-! ### A step -/

section

variable {s : State} {d : DecRegs} (hdue : s.dueMove = none) (hs : s.activity = .decoding d)
include hdue hs

/-- With no move due, a DECODE that is not complete steps as its Decoder does. -/
theorem step_of_decoderStep (hctx : d.context ≠ none) : step s = settle s.tick (decoderStep s.cfg d) := by
  have htick : s.tick = s.tick.setActivity (.decoding d) := by
    rw [← hs, ← s.tick_activity]
    rfl
  rw [step_of_notDue hdue, htick, blockStep_decoding hctx, State.tick_cfg, settle_setActivity]

theorem step_header (hipos : d.ipos = 0) :
    step s =
      settle s.tick (((readHeader s.cfg d.cin).mapError .raised).map fun h => d.loadHeader h.1 h.2) := by
  rw [step_of_decoderStep hdue hs (by simp [DecRegs.context_eq_header.2 hipos]), decoderStep_header s.cfg hipos]

theorem step_of_short {ctx : Context} (hctx : d.context = some ctx) (hle : d.ipos ≤ d.cin.length)
    (hdec : decodeIn s.cfg ctx d.ahead = .short) : step s = .next (raise (.truncatedInput d.cin.length) s.tick) := by
  rw [step_of_decoderStep hdue hs (by simp [hctx]), decoderStep_of_short hctx hdec, DecRegs.ahead, List.length_drop,
    Nat.add_sub_of_le hle]
  rfl

theorem step_complete (hctx : d.context = none) : step s = .next (finish d.okResult s.tick) := by
  rw [step_decoding hdue hs, nextInstr_complete.2 hctx]

end

end Sys2Proof.Machine
end

section
/-! SUPPORT. The units: an instruction that goes on and what it leaves of the spaces, a match in range and out of range, the
bytes an overlapping copy repeats (42_decoder.md R157 to R165). -/

namespace Sys2Proof.Machine

section

variable {s : State} {d d' : DecRegs} {i : Instr} (hs : s.activity = .decoding d)
include hs

theorem exec_of_ok (hctx : d.context = some i.context) (heff : effect i d = .ok d') :
    exec i s = .next (s.setActivity (.decoding d')) := by
  rw [exec_of hs hctx, heff]
  rfl

/-- An instruction to a DECODE still running has gone on with its effect. -/
theorem exec_goesOn {t : State} (hst : exec i s = .next t) (ht : t.activity = .decoding d') :
    effect i d = .ok d' ∧ t = s.setActivity (.decoding d') := by
  obtain ⟨d₁, hs₁, -, hnext⟩ := exec_next hst
  cases hs.symm.trans hs₁
  obtain ⟨d₂, hok, rfl⟩ | ⟨e, -, rfl⟩ := hnext <;> cases ht
  exact ⟨hok, rfl⟩

/-- Bytes appended to `OUT` leave every other byte of it. -/
theorem memRead_out_of_append {bytes : Bytes} (hout : d'.out = d.out ++ bytes) {a : Nat}
    (ha : a < d.out.length ∨ d.out.length + bytes.length ≤ a) :
    (s.setActivity (.decoding d')).memRead .out a = s.memRead .out a := by
  have hread : readByte (d.out ++ bytes) a = readByte d.out a := by
    rcases ha with hlt | hle
    · exact List.getElem?_append_left hlt
    · rw [readByte_eq_none.2 (by rwa [List.length_append]), readByte_eq_none.2 (by omega)]
  simpa only [State.memRead, State.space, State.setActivity_activity, hs, hout] using hread

end

/-! ### A match -/

/-- A match whose displacement is out of range raises before it copies (42_decoder.md R163). -/
theorem effect_match_of_outOfRange {i : Instr} {m : Found} {d : DecRegs} (hm : matchOperands i = some m)
    (hlt : d.produced < m.disp) : effect i d = .error (.raised (.outOfRangeBackReference d.ipos m.disp d.produced)) := by
  rw [effect_match hm]
  exact if_pos hlt

/-- A match whose displacement is in range is done, when `|OUT| = PRODUCED` (42_decoder.md R162, R164, R165). -/
theorem effect_match_of_inRange {i : Instr} {m : Found} {d : DecRegs} (hm : matchOperands i = some m)
    (hle : d.produced ≤ d.dn) (hout : d.out.length = d.produced) (hdisp : m.disp ≤ d.produced) :
    ∃ copied d', effect i d = .ok d' ∧ d.MatchDone i.size m.disp m.len copied d' := by
  obtain ⟨copied, hlen, hcopy, hbytes⟩ := copyBytes_spec (n := d.truncated m.len)
    (d := ((d.consumeFlag.advance i.size).warnIfExceeds m.len).warnIfUnsafe m.disp) (disp_pos_of_matchOperands hm)
    hdisp hout
  have heff : effect i d = .ok _ := (effect_match hm d).trans ((if_neg (Nat.not_lt_of_le hdisp)).trans hcopy)
  exact ⟨copied, _, heff, by rw [hlen]; rfl, hlen.trans (DecRegs.truncated_eq_min _ hle), hlen ▸ hbytes⟩

theorem exec_match_completes {s : State} {d : DecRegs} {i : Instr} {m : Found} (hm : matchOperands i = some m)
    (hctx : i.context = .backRef d.dmode) (hs : s.activity = .decoding d) (hunit : d.AtUnit true)
    (hout : d.out.length = d.produced) (hdisp : m.disp ≤ d.produced) :
    ∃ copied d', exec i s = .next (s.setActivity (.decoding d')) ∧ d.MatchDone i.size m.disp m.len copied d' := by
  have ⟨_, howed, _, _⟩ := hunit
  obtain ⟨copied, d', heff, hdone⟩ := effect_match_of_inRange hm howed.le hout hdisp
  exact ⟨copied, d', exec_of_ok hs (hctx ▸ DecRegs.context_eq_backRef.2 ⟨hunit, rfl⟩) heff, hdone⟩

/-! ### An overlapping copy -/

/-- Bytes that each equal the byte `disp` before them repeat the last `disp` bytes of what stood there. -/
theorem getElem?_repeats {out copied : Bytes} {disp : Nat} (hpos : 1 ≤ disp) (hle : disp ≤ out.length)
    (hbytes : ∀ j, j < copied.length → (out ++ copied)[out.length + j]? = (out ++ copied)[out.length + j - disp]?) :
    ∀ j, j < copied.length → (out ++ copied)[out.length + j]? = out[out.length - disp + j % disp]? := by
  intro j hj
  induction j using Nat.strong_induction_on with
  | h j ih =>
    rw [hbytes j hj]
    by_cases hlt : j < disp
    · rw [Nat.mod_eq_of_lt hlt, ← Nat.sub_add_comm hle]
      exact List.getElem?_append_left (by omega)
    · have hdisp : disp ≤ j := Nat.le_of_not_lt hlt
      rw [Nat.add_sub_assoc hdisp, ih (j - disp) (by omega) (by omega), Nat.mod_eq_sub_mod hdisp]

end Sys2Proof.Machine
end

section
/-! SUPPORT. A DECODE that ends well has kept the declared size and `VRAM_SAFE`, and has produced that many bytes (42_decoder.md
R168, R170). -/

namespace Sys2Proof.Machine

theorem effect_dn {i : Instr} {d d' : DecRegs} (hipos : d.ipos ≠ 0) (hctx : d.context = some i.context)
    (heff : effect i d = .ok d') : d'.dn = d.dn := by
  obtain ⟨-, hzero⟩ | ⟨hi, -⟩ | ⟨flag, hunit⟩ := DecRegs.context_cases hctx
  · exact absurd hzero hipos
  · obtain ⟨flags, hok⟩ := effect_of_control hi d
    cases hok.symm.trans heff
    rfl
  · obtain ⟨bytes, len, vram, rfl, -⟩ := effect_unit_ok hunit hctx heff
    rfl

/-- The registers are in their ranges, under the declared size `n` and the setting `v` of `VRAM_SAFE`. -/
structure DecRegs.Declared (n : Nat) (v : Bool) (d : DecRegs) : Prop where
  inv : d.Inv
  dn_eq : d.dn = n
  vramSafe_eq : d.vramSafe = v

/-- A step of the Decoder that goes on has run the instruction that the bytes ahead decode to. -/
theorem decoderStep_ran {c : Config} {d d' : DecRegs} (hctx : d.context ≠ none) (h : decoderStep c d = .ok d') :
    ∃ i rest, decodeIn c i.context d.ahead = .instr i rest ∧ d.context = some i.context ∧ effect i d = .ok d' := by
  unfold decoderStep at h
  split at h
  · obtain ⟨rest, hdec, hi⟩ := nextInstr_run ‹_›
    exact ⟨_, rest, hdec, hi, h⟩
  · cases h
  · exact absurd (nextInstr_complete.1 ‹_›) hctx

namespace DecRegs.Declared

variable {n : Nat} {v : Bool} {d d' : DecRegs} (hd : d.Declared n v) (hipos : d.ipos ≠ 0)
include hd hipos

theorem step {c : Config} (howed : d.produced < d.dn) (h : decoderStep c d = .ok d') : d'.Declared n v := by
  obtain ⟨i, rest, hdec, hi, heff⟩ := decoderStep_ran (context_ne_none_of_owed howed) h
  obtain ⟨-, hvram, -⟩ := effect_ok heff
  exact ⟨decodedEffect_inv hd.inv hdec hi heff, (effect_dn hipos hi heff).trans hd.dn_eq, hvram.trans hd.vramSafe_eq⟩

/-- A turn is one step of the Decoder, or a control byte and then one. -/
theorem turn (howed : d.produced < d.dn) (h : decodeTurn d = .ok d') : d'.Declared n v := by
  by_cases hcnt : d.dfcnt = 0
  · rw [decodeTurn_eq] at h
    cases hload : reloadFlags d with
    | error e => rw [hload] at h; cases h
    | ok d₁ =>
      replace h : unitTurn d₁ = .ok d' := by rwa [hload] at h
      obtain ⟨flag, hunit⟩ := atUnit_of_reloadFlags howed hcnt hload
      have ⟨hipos₁, howed₁, _, _⟩ := hunit
      rw [← decoderStep_control Config.defaults (context_eq_control.2 ⟨hipos, howed, hcnt⟩)] at hload
      rw [← decoderStep_unit Config.defaults hunit] at h
      exact (hd.step hipos howed hload).step hipos₁ howed₁ h
  · rw [decodeTurn_of_flag Config.defaults hipos howed hcnt] at h
    exact hd.step hipos howed h

/-- A loop whose bound is more than the bytes left ends with nothing owed. -/
theorem loop {fuel : Nat} (hfuel : d.cin.length < fuel + d.ipos) (h : decodeLoop fuel d = .ok d') :
    d'.Declared n v ∧ d'.produced = n := by
  induction fuel generalizing d with
  | zero => exact absurd hd.inv.ipos_le (by omega)
  | succ fuel ih =>
    unfold decodeLoop at h
    by_cases howed : d.produced < d.dn
    · rw [if_pos howed] at h
      cases hturn : decodeTurn d with
      | error e => rw [hturn] at h; cases h
      | ok d₁ =>
        replace h : decodeLoop fuel d₁ = .ok d' := by rwa [hturn] at h
        obtain ⟨-, hlt, hcin, -⟩ := decodeTurn_ok Config.defaults [] hd.inv.sound hipos howed hturn
        exact ih (hd.turn hipos howed hturn) (by omega) (by rw [hcin]; omega) h
    · rw [if_neg howed] at h
      cases h
      exact ⟨hd, (hd.inv.produced_le.antisymm (Nat.le_of_not_lt howed)).trans hd.dn_eq⟩

end DecRegs.Declared

/-- A DECODE that ends well has read a header, and has kept its size to the end. -/
theorem decodeStream_ok {c : Config} {cin : Memory} {v : Bool} {d : DecRegs} (h : decodeStream c cin v = .ok d) :
    ∃ mode n, readHeader c cin = .ok (mode, n) ∧ d.Declared n v ∧ d.produced = n := by
  have hctx : (DecRegs.start cin v).context ≠ none := by simp [DecRegs.context_eq_none]
  have hheader := decoderStep_header (d := DecRegs.start cin v) c rfl
  rw [DecRegs.start_cin] at hheader
  unfold decodeStream at h
  cases hread : readHeader c cin with
  | error e => rw [hread] at h; cases h
  | ok header =>
    obtain ⟨mode, n⟩ := header
    rw [hread] at h hheader
    obtain ⟨i, rest, hdec, hi, heff⟩ := decoderStep_ran hctx hheader
    have hd : ((DecRegs.start cin v).loadHeader mode n).Declared n v :=
      ⟨decodedEffect_inv (DecRegs.start_inv cin v) hdec hi heff, rfl, rfl⟩
    exact ⟨mode, n, rfl, hd.loop (Nat.succ_ne_zero 3) (Nat.lt_add_right 4 (Nat.lt_succ_self _)) h⟩

end Sys2Proof.Machine
end

section
/-! SUPPORT. The statements of the decoder family settled. -/

open Sys2Proof Sys2Proof.Machine

/-- Settles O9: with no move due the first step is the Header Codec's ReadHeader. -/
theorem headerStep : Obligations.HeaderStep := by
  intro s d hdue hs hipos
  rw [step_header hdue hs hipos]
  refine ⟨fun hshort => ?_, fun t b1 b2 b3 rest hcin => ⟨fun h10 h11 => ?_, fun htag => ?_⟩⟩
  · rw [readHeader_of_short _ hshort]
    rfl
  · rw [hcin, readHeader_of_ne_tags _ _ _ _ h10 h11]
    rfl
  · rw [hcin, readHeader_of_tag _ _ _ _ htag, ← hcin]
    rfl

/-- Settles O10: in each case the bytes ahead are too few for what the Decoder stands before. -/
theorem missingByteRaisesTruncatedInput : Obligations.MissingByteRaisesTruncatedInput := by
  intro s d hdue hs hipos howed hle
  have hahead : d.ahead.length = d.cin.length - d.ipos := List.length_drop
  refine ⟨fun _ hend => ?_, fun hunit hmode hshort => ?_, fun b0 hunit hmode hb hshort => ?_⟩
  · obtain ⟨ctx, hctx⟩ := Option.ne_none_iff_exists'.1 (DecRegs.context_ne_none_of_owed howed)
    have hnil : d.ahead = [] := List.drop_eq_nil_of_le hend.ge
    rw [hend]
    exact step_of_short hdue hs hctx hle (hnil ▸ decodeIn_nil s.cfg ctx)
  · exact step_of_short hdue hs (DecRegs.context_eq_backRef.2 ⟨hunit, hmode⟩) hle
      (decodeMatch10_of_short (by omega))
  · obtain ⟨more, hmore⟩ : ∃ more, d.ahead = b0 :: more := List.head?_eq_some_iff.1 (d.head?_ahead.trans hb)
    rw [hmore, List.length_cons] at hahead
    refine step_of_short hdue hs (DecRegs.context_eq_backRef.2 ⟨hunit, hmode⟩) hle ?_
    rw [hmore]
    exact decodeMatch11_of_short (by omega)

/-- Settles O16: in range, `ExecMatch` warns and copies. -/
theorem match10Completes : Obligations.Match10Completes :=
  fun _ _ l f hs hunit hmode hout hdisp =>
    exec_match_completes (i := .match10 l f) rfl (congrArg Context.backRef hmode.symm) hs hunit hout hdisp

/-- Settles O17: the three forms differ in their size and length alone. -/
theorem match11Completes : Obligations.Match11Completes := by
  intro s d f hs hunit hmode hout hdisp
  have hcompletes {i : Instr} {m : Found} (hm : matchOperands i = some m) (hi : i.context = .backRef .lz11)
      (hd : m.disp = f.toNat + 1) := exec_match_completes hm (hmode ▸ hi) hs hunit hout (hd ▸ hdisp)
  exact ⟨fun t _ => hcompletes (i := .match11_2 t f) rfl rfl rfl, fun l => hcompletes (i := .match11_3 l f) rfl rfl rfl,
    fun l => hcompletes (i := .match11_4 l f) rfl rfl rfl⟩

/-- Settles O19: by strong induction on the index in the copy, each byte equal to the one `disp` before it. -/
theorem overlappingCopyRepeats : Obligations.OverlappingCopyRepeats := by
  intro disp n d hpos hdisp hout
  obtain ⟨copied, rfl, hcopy, hbytes⟩ := copyBytes_spec (n := n) hpos hdisp hout
  refine ⟨_, hcopy, rfl, by simp [hout], fun a ha => List.getElem?_append_left (hout ▸ ha), ?_⟩
  rw [← hout] at hdisp hbytes ⊢
  exact getElem?_repeats hpos hdisp hbytes

/-- Settles O21: the effect of `LIT` is one update of the Decoder's registers, which appends one byte. -/
theorem literalFrame : Obligations.LiteralFrame := by
  intro s t d b hs hst
  obtain ⟨-, rfl⟩ := exec_next_of_ok (i := .lit b) hs rfl hst
  exact ⟨rfl, rfl, rfl, rfl, rfl, memRead_cin_setActivity hs rfl,
    fun a ha => memRead_out_of_append (bytes := [b]) hs rfl (Nat.lt_or_gt_of_ne ha), _, rfl, rfl, rfl, rfl, rfl, rfl, rfl⟩

/-- Settles O22: a match that goes on appends the truncated length of bytes. -/
theorem matchFrame : Obligations.MatchFrame := by
  intro s t d d' i m hm hs hst ht
  obtain ⟨heff, rfl⟩ := exec_goesOn hs hst ht
  rw [effect_match hm] at heff
  obtain ⟨-, copied, hlen, rfl⟩ := execMatch_ok heff
  exact ⟨rfl, rfl, rfl, rfl, rfl, memRead_cin_setActivity hs rfl,
    fun a ha => memRead_out_of_append (bytes := copied) hs rfl (hlen ▸ ha), rfl, rfl, rfl, rfl⟩

/-- Settles O54: the declared size and the ranges of the registers are kept to the end of the loop, where nothing is owed. -/
theorem decodeReturnsTheDeclaredSize : Obligations.DecodeReturnsTheDeclaredSize := by
  intro c cin out v wl wv h
  obtain ⟨d, hstream, hresult⟩ := decodeRequest_eq_decode.1 h
  obtain ⟨mode, n, hread, hd, hproduced⟩ := decodeStream_ok hstream
  cases hresult
  refine ⟨mode, by rw [hd.inv.out_length, hproduced]; exact hread, fun hv => ?_⟩
  exact Bool.eq_false_iff.2 fun hw => by simp [← hd.vramSafe_eq, hd.inv.warnVram_safe hw] at hv

/-- Settles O8: the step fetches in the Decoder's context. -/
theorem stepRunsTheDecodedInstruction : Obligations.StepRunsTheDecodedInstruction :=
  fun _ _ _ _ _ hdue hs hctx hdec => step_of_decoded hdue hs hctx hdec

/-- Settles O11: with nothing owed the Decoder stands in no context. -/
theorem decodeCompletesAtDeclaredSize : Obligations.DecodeCompletesAtDeclaredSize :=
  fun _ _ hdue hs hipos hdone => step_complete hdue hs (DecRegs.context_eq_none.2 ⟨hipos, hdone.ge⟩)

/-- Settles O13: at the start of the stream the Decoder stands at the header. -/
theorem headersComplete : Obligations.HeadersComplete := by
  intro s d size hs hipos
  have hctx : d.context = some .header := DecRegs.context_eq_header.2 hipos
  exact ⟨exec_of_ok (i := .hdrLz10 size) hs hctx rfl, exec_of_ok (i := .hdrLz11 size) hs hctx rfl⟩

/-- Settles O14: with output owed and no flag left the Decoder stands at a control byte. -/
theorem controlByteCompletes : Obligations.ControlByteCompletes :=
  fun _ _ flags hs hipos howed hcnt =>
    exec_of_ok (i := .ctrl flags) hs (DecRegs.context_eq_control.2 ⟨hipos, howed, hcnt⟩) rfl

/-- Settles O15: at a unit whose flag is 0 the Decoder stands at a literal. -/
theorem literalCompletes : Obligations.LiteralCompletes :=
  fun _ _ b hs hunit => exec_of_ok (i := .lit b) hs (DecRegs.context_eq_literal.2 hunit) rfl

/-- Settles O18: the range is checked before anything is copied. -/
theorem outOfRangeMatchRaises : Obligations.OutOfRangeMatchRaises := by
  intro s d i m hs hunit hctx hm hlt
  rw [exec_of hs (hctx ▸ DecRegs.context_eq_backRef.2 ⟨hunit, rfl⟩), effect_match_of_outOfRange hm hlt]
  rfl

end

section
/-! SUPPORT. The statement of the header codec family settled. -/

open Sys2Proof Sys2Proof.Machine

/-- Settles O6: the size bytes join to the size, and with distinct tags each mode's tag passes its own test alone. -/
theorem headerRoundTrip : Obligations.HeaderRoundTrip :=
  fun _ mode _ rest hc hn => readHeader_writeHeader hc mode hn rest

end

section
/-! SUPPORT. The errors that each request raises, and that the block's own step always answers a next state
(60_exceptions.md R200, R208, R212). -/

namespace Sys2Proof.Machine

/-! ### The errors of each request -/

/-- A FIND that ends with an error has operands out of range. -/
theorem error_of_stepFind {f : FindRegs} {s : State} {e : Err} (hidle : (stepFind f s).activity = .idle)
    (he : (stepFind f s).result = some (.error e)) : e = .invalidRequest f.p f.lprobe f.dmax f.src.length := by
  by_cases hv : ValidFind f.src f.p f.lprobe f.dmax
  · by_cases hl : f.isLast
    · rw [stepFind_last hv hl] at he
      cases he
    · rw [stepFind_goesOn hv hl] at hidle
      cases hidle
  · rw [stepFind_invalid hv] at he
    cases he
    rfl

/-- An ENCODE that ends with an error has a source over `MAX_SIZE`: once the header is written it ends well only. -/
theorem error_of_stepEncode {r : EncRegs} {s : State} {e : Err} (hidle : (stepEncode r s).activity = .idle)
    (he : (stepEncode r s).result = some (.error e)) : e = .inputTooLarge r.src.length := by
  by_cases ho : r.pk.out = []
  · by_cases hn : maxSize < r.src.length
    · rw [stepEncode_tooLarge ho hn] at he
      cases he
      rfl
    · rw [stepEncode_header ho hn] at hidle
      cases hidle
  · cases hb : readByte r.src r.ep with
    | some b =>
      rw [stepEncode_unit ho hb] at hidle
      cases hidle
    | none =>
      by_cases hu : 0 < r.pk.eucnt
      · rw [stepEncode_flush ho hb hu] at hidle
        cases hidle
      · by_cases hp : padding r.pk.out = []
        · rw [stepEncode_done ho hb hu hp] at he
          cases he
        · rw [stepEncode_pad ho hb hu hp] at hidle
          cases hidle

/-- A fetch raises only for an unknown tag or for missing bytes. -/
theorem nextInstr_trap_cases {c : Config} {d : DecRegs} {e : Err} (h : nextInstr c d = .trap e) :
    (∃ t, e = .badHeader t) ∨ ∃ pos, e = .truncatedInput pos := by
  unfold nextInstr at h
  split at h
  · cases h
  · unfold fetchIn at h
    split at h <;> cases h
    · exact .inr ⟨_, rfl⟩
    · exact .inl ⟨_, rfl⟩

/-- A DECODE that ends with an error has it from a match out of range or from a fetch. -/
theorem error_of_step_decoding {s t : State} {d : DecRegs} {e : Err} (hdue : s.dueMove = none)
    (hs : s.activity = .decoding d) (hst : step s = .next t) (hidle : t.activity = .idle)
    (he : t.result = some (.error e)) :
    (∃ b, e = .badHeader b) ∨ (∃ u disp p, e = .outOfRangeBackReference u disp p) ∨ ∃ pos, e = .truncatedInput pos := by
  obtain ⟨i, rest, d', -, -, -, rfl⟩ | ⟨i, rest, e', -, -, heff, rfl⟩ | ⟨e', htrap, rfl⟩ | ⟨-, rfl⟩ :=
    step_decoding_next hdue hs hst
  · cases hidle
  · cases he
    obtain ⟨m, -, -, rfl⟩ := effect_raised heff
    exact .inr (.inl ⟨_, _, _, rfl⟩)
  · cases he
    exact (nextInstr_trap_cases htrap).imp_right .inr
  · cases he

/-! ### The block never stops -/

theorem exists_next_of_settle {x : Except Stop DecRegs} (s : State) (hx : ∀ f, x ≠ .error (.fault f)) :
    ∃ t, settle s x = .next t := by
  match x with
  | .ok d => exact ⟨_, rfl⟩
  | .error (.raised e) => exact ⟨_, rfl⟩
  | .error (.fault f) => exact absurd rfl (hx f)

/-- A DECODE in the ranges of its registers ends, goes on or takes an exception: no copy of it reads an unwritten byte. -/
theorem exists_step_decoding {s : State} {d : DecRegs} (hdue : s.dueMove = none) (hs : s.activity = .decoding d)
    (hd : d.Sound) : ∃ t, step s = .next t := by
  by_cases hctx : d.context = none
  · exact ⟨_, step_complete hdue hs hctx⟩
  · rw [step_of_decoderStep hdue hs hctx]
    exact exists_next_of_settle s.tick (decoderStep_ne_fault hd s.cfg)

/-! ### An exception -/

/-- On an idle block no space has a byte. -/
theorem memRead_of_idle {s : State} (h : s.activity = .idle) (sp : Space) (a : Nat) : s.memRead sp a = none := by
  have hspace : s.space sp = [] := by cases sp <;> simp only [State.space, h]
  rw [State.memRead, hspace]
  rfl

theorem field_error_eq_none (e : Err) {f : ResultField} (hs : f ≠ .status) (hcode : f ≠ .err) (hinfo : f ≠ .errInfo) :
    (Result.error e).field f = none := by
  cases f with
  | status => exact absurd rfl hs
  | err => exact absurd rfl hcode
  | errInfo => exact absurd rfl hinfo
  | _ => rfl

/-! ### The first step of a FIND -/

/-- On a quiet machine the first step of a FIND is the Finder's from its start registers. -/
theorem step_startRequest_find {s : State} (h : s.Quiet) (src : Memory) (p l dmax : Nat) (v : Bool) :
    step (startRequest (.find src p l dmax v) s) =
      .next (stepFind (FindRegs.start src p l dmax v) (startRequest (.find src p l dmax v) s)) := by
  have htick : (startRequest (.find src p l dmax v) s).tick = startRequest (.find src p l dmax v) s := Quiet.tick h _
  rw [step_finding (s := startRequest _ s) (Quiet.dueMove h _) rfl, htick]

theorem not_validFind_iff {src : Memory} {p l dmax : Nat} :
    ¬ ValidFind src p l dmax ↔ p = 0 ∨ src.length ≤ p ∨ l = 0 ∨ dmax = 0 ∨ window < dmax := by
  unfold ValidFind
  omega

end Sys2Proof.Machine
end

section
/-! SUPPORT. The statements of the exceptions family settled. -/

open Sys2Proof Sys2Proof.Machine

/-- Settles O24: request by request, from the steps that end it with an error. -/
theorem errorsOfEachRequest : Obligations.ErrorsOfEachRequest := by
  intro s t e hdue _ hst hidle he
  refine ⟨fun ⟨f, hs⟩ => ?_, fun ⟨r, hs⟩ => ?_, fun ⟨d, hs⟩ => error_of_step_decoding hdue hs hst hidle he⟩
  · cases (step_finding hdue hs).symm.trans hst
    exact ⟨_, _, _, _, error_of_stepFind hidle he⟩
  · cases (step_encoding hdue hs).symm.trans hst
    exact ⟨_, error_of_stepEncode hidle he⟩

/-- Settles O27: only a DECODE could fault, and under the invariant none of its copies does. -/
theorem blockNeverStops : Obligations.BlockNeverStops := by
  intro s h hdue
  have hact := h.activity
  cases hs : s.activity with
  | idle => exact ⟨_, step_idle hdue hs⟩
  | finding f => exact ⟨_, step_finding hdue hs⟩
  | encoding e => exact ⟨_, step_encoding hdue hs⟩
  | decoding d =>
    rw [hs] at hact
    exact exists_step_decoding hdue hs (DecRegs.Inv.sound hact)

/-- Settles O23: an exception is the end of the request, which leaves an idle block and the record. -/
theorem fatalErrorEndsTheRequest : Obligations.FatalErrorEndsTheRequest :=
  fun e s =>
    ⟨raise_activity e s, raise_result e s, raise_cfg e s, raise_moves e s, raise_received e s, raise_reads e s,
      memRead_of_idle (raise_activity e s), rfl, rfl, rfl, fun _ => field_error_eq_none e⟩

/-- Settles O25: the code field of an ERROR record is the code of its error. -/
theorem errorCodes : Obligations.ErrorCodes :=
  fun _ _ _ _ _ _ => ⟨rfl, rfl, rfl, rfl, rfl⟩

/-- Settles O44: the operands' check comes before the first candidate. -/
theorem invalidFindRaises : Obligations.InvalidFindRaises := by
  intro s src p l dmax v hquiet hrange
  have hv : ¬ ValidFind src p l dmax := not_validFind_iff.2 hrange
  rw [step_startRequest_find hquiet, stepFind_invalid (f := FindRegs.start src p l dmax v) hv]
  rfl

end

section
/-! SUPPORT. The state after reset, and the step in which a reset lands (70_reset_and_hazards.md R230, R232). -/

namespace Sys2Proof.Machine

/-- Nothing runs and there is no record, so no register and no field is there to break a bound. -/
theorem State.reset_inv : State.reset.Inv where
  activity := trivial
  result := nofun

/-- A reset whose time has come lands in this step, whatever the block does. -/
theorem step_reset {s : State} {later : List Pending} (hm : s.moves = ⟨0, .reset⟩ :: later) :
    step s = .next (resetBlock { s with moves := later }) := by
  rw [step_of_due (dueMove_of_moves hm rfl), State.popMove, hm, List.tail_cons, hostMove]

end Sys2Proof.Machine
end

section
/-! SUPPORT. The statements of the reset and hazards family settled. -/

open Sys2Proof Sys2Proof.Machine

/-- Settles O29: the state after reset is idle and holds no record, and the invariant bounds only registers and records. -/
theorem resetMeetsTheInvariant : Obligations.ResetMeetsTheInvariant :=
  ⟨State.reset_inv, rfl, rfl⟩

/-- Settles O35: the request starts in this step, and request by request its registers are those of its start. -/
theorem requestsStartAfresh : Obligations.RequestsStartAfresh := by
  intro s r al later hidle hm hal
  have hlater : s.popMove.moves = later := by rw [State.popMove_moves, hm, List.tail_cons]
  refine ⟨startRequest r s.popMove, step_request hidle hm hal, hlater, rfl, rfl, ?_, ?_, ?_⟩
  · rintro src p l dmax v rfl
    rfl
  · rintro src mode v rfl
    rfl
  · rintro cin v rfl
    exact ⟨DecRegs.start cin v, rfl, rfl, rfl, rfl, rfl, rfl, rfl, rfl, rfl, rfl⟩

/-- Settles O36: the reset lands, and leaves an idle block without a record. -/
theorem resetAbandonsTheRequest : Obligations.ResetAbandonsTheRequest :=
  fun _ _ => step_reset

end
